-- ==== Sys2Proof/Word.lean ====
section
/-! DEFINITION. The plainest types of ZIPPER-CORE: bytes, bits and bit strings, node indices
(spec/00_scope.md R10 to R12; spec/10_state.md R40, R41). -/

namespace Sys2Proof

/-- One byte of BUF, of STAGE, of a command or of a Symbol: "one byte (0–255)" (R15). -/
abbrev Byte := BitVec 8

/-- One bit of a bit string: `false` is 0 and `true` is 1 (R12). -/
abbrev Bit := Bool

/-- A bit string, its first bit at the head of the list (R12). -/
abbrev Bits := List Bit

/-- A node index of NODE[0 .. 510] (R40): the 9-bit numbers that name an entry. -/
abbrev NodeIdx := Fin 511

end Sys2Proof
end

