-- ==== Sys2Proof/Machine/Scratch.lean ====
section
/-! DEFINITION. The records of the scratch state and the scratch state itself
(spec/10_state.md R27, R30, R31, R40 to R46). Plain data, one field per structure or register. -/

namespace Sys2Proof.Machine

/-- One entry of NODE (R40).  `sym` means something only for a leaf, `left` and `right` only for an
internal node. -/
structure Node where
  leaf : Bool
  sym : Byte
  weight : Nat
  left : NodeIdx
  right : NodeIdx
  deriving DecidableEq, Repr, Inhabited

/-- One entry of CODE (R43).  The field `len` of the rule is the length of `bits` (`CodeEntry.len`). -/
structure CodeEntry where
  valid : Bool
  bits : Bits
  deriving DecidableEq, Repr, Inhabited

/-- The field `len` of a CODE entry: R43 gives `bits` that length, so it is stored once. -/
def CodeEntry.len (e : CodeEntry) : Nat := e.bits.length

/-- One entry of DTAB (R45). -/
structure DecodeEntry where
  sym : Byte
  code : Bits
  deriving DecidableEq, Repr, Inhabited

/-- Every scratch structure and working register of R20, R27 and R31 to R46, plus `ret`, the
model's own field (log entry 4).

The lengths SLEN (R46) and DU (R45) are the lengths of `stage` and `dtab` (`Scratch.slen`,
`Scratch.du`): the rules make each pair one value, so it is stored once. -/
structure Scratch where
  /-- FREQ[0 .. 255] (R31). -/
  freq : Vector Nat 256
  /-- The storage of NODE[0 .. 510] (R40). -/
  node : Vector Node 511
  /-- NN (R27): nodes created so far, and the next insertion sequence number. -/
  nn : Nat
  /-- The storage of HEAP[0 .. 255] (R41). -/
  heap : Vector NodeIdx 256
  /-- HN (R41): how many entries of HEAP are in the queue. -/
  hn : Nat
  /-- ROOT (R42). -/
  root : NodeIdx
  /-- The valid bit of ROOT (R42). -/
  rootValid : Bool
  /-- CODE[0 .. 255] (R43). -/
  code : Vector CodeEntry 256
  /-- BITS (R44). -/
  bits : Bits
  /-- TBL (R44): totalBitLength. -/
  tbl : Nat
  /-- DTAB (R45), in codebook order. -/
  dtab : List DecodeEntry
  /-- PPOS (R45): the address in BUF of the first payload byte. -/
  ppos : Nat
  /-- STAGE (R46). -/
  stage : List Byte
  /-- IPOS (R27): index of the next byte of BUF to read. -/
  ipos : Nat
  /-- BPOS (R27): index of the next bit of BITS to read. -/
  bpos : Nat
  /-- CAND (R27): the candidate code being accumulated. -/
  cand : Bits
  /-- RUN_BYTE (R27). -/
  runByte : Byte
  /-- RUN_CNT (R27). -/
  runCnt : Nat
  /-- ACC (R27): the byte being assembled. -/
  acc : Byte
  /-- ACCN (R27): bits already in ACC, 0 to 7, a 3-bit register. -/
  accn : Fin 8
  /-- PATH (R27): the accumulated root-to-node path. -/
  path : Bits
  /-- `total` of RLE_EXPAND (R262). -/
  total : Nat
  /-- MODEL's own: the node index PQ_EXTRACT_MIN "returns" (R137; log entry 4). -/
  ret : NodeIdx
  deriving DecidableEq, Repr, Inhabited

/-- SLEN (R46), the length of STAGE. -/
def Scratch.slen (sc : Scratch) : Nat := sc.stage.length

/-- DU (R45), the number of entries of DTAB. -/
def Scratch.du (sc : Scratch) : Nat := sc.dtab.length

/-- All of scratch zero, empty or invalid: the value `State.reset` names for it (log entry 2). -/
def Scratch.zero : Scratch where
  freq := Vector.replicate 256 0
  node := Vector.replicate 511 ⟨false, 0, 0, 0, 0⟩
  nn := 0
  heap := Vector.replicate 256 0
  hn := 0
  root := 0
  rootValid := false
  code := Vector.replicate 256 ⟨false, []⟩
  bits := []
  tbl := 0
  dtab := []
  ppos := 0
  stage := []
  ipos := 0
  bpos := 0
  cand := []
  runByte := 0
  runCnt := 0
  acc := 0
  accn := 0
  path := []
  total := 0
  ret := 0

end Sys2Proof.Machine
end

