-- ==== Sys2Proof/Config.lean ====
section
/-! DEFINITION. What is fixed for one ZIPPER-CORE: the parameters `SZ` and `CAP` of spec/00_scope.md R8,
and the free values of the model: what the spec leaves unspecified. -/

namespace Sys2Proof

/-- The legal values of the parameter `SZ` (R8, decision D2): 4 or 8 bytes. -/
inductive SizeWidth where
  | four
  | eight
  deriving DecidableEq, Repr, Inhabited

/-- `SZ`, in bytes. -/
def SizeWidth.bytes : SizeWidth → Nat
  | .four => 4
  | .eight => 8

/-- The parameters that R8 lets vary.  They stand in `State` as constants (log entry 1), so a
statement about every state is a statement for every legal `SZ` and `CAP`. -/
structure Config where
  /-- `SZ`. -/
  size : SizeWidth
  /-- `CAP`, the largest number of bytes BUF or STAGE may hold. -/
  cap : Nat
  deriving DecidableEq, Repr, Inhabited

/-- `SZ` as a number of bytes (R8). -/
def Config.sz (c : Config) : Nat := c.size.bytes

/-- `2 ^ W` with `W = 8 * SZ` (R8): one more than the largest value of a size field. -/
def Config.limit (c : Config) : Nat := 2 ^ (8 * c.sz)

/-- The legal configurations: `1 <= CAP <= 2^W - 1` (R8). -/
abbrev Config.Legal (c : Config) : Prop := 1 ≤ c.cap ∧ c.cap < c.limit

/-- The values decided for this hardware: `SZ` = 8 (D2) and the default `CAP` = 2^64 - 1 (D6). -/
def Config.decided : Config := ⟨.eight, 2 ^ 64 - 1⟩

/-- FREE VALUE (log entry 3): what scratch holds after the `k`-th time it is released.  R30: "its
contents become unspecified"; 93_implementation_defined.md U3: "any value". -/
opaque Config.freeScratch : Nat → Machine.Scratch

/-- FREE VALUE (log entry 10): the weight TB_MERGE gives a node whose children's weights `a` and `b` have a
sum that `W` bits do not hold.  R151 and R75 state that no command comes to it, and no value there. -/
opaque Config.wideSum : Nat → Nat → Nat

/-- FREE VALUE (log entry 11): which of several entries of DTAB with the candidate as their code CODE_WALK
takes.  R206 says "an i"; its precondition leaves one choice only. -/
opaque Config.freeMatch : List Machine.DecodeEntry → Nat

/-- FREE VALUE (log entry 15): the node CA_ASSIGN begins at where ROOT is invalid.  R171 has a valid ROOT as
precondition, and states no node there. -/
opaque Config.freeRoot : Machine.Scratch → NodeIdx

/-- FREE VALUE (log entry 15): the code CA_ASSIGN leaves at a symbol, or none where it writes none, where a path
of NODE's entries grows beyond the 255 bits PATH holds.  R171 says that none does, and states no codes there. -/
opaque Config.freeCode : Machine.Scratch → Byte → Option Bits

end Sys2Proof
end

