-- ==== Sys2Proof/Syntax.lean ====
section
/-! DEFINITION. The operations of ZIPPER-CORE, one constructor per row of spec/opcode_table.json:
four commands (spec/30_encoding.md R92) and sixteen unit operations (R96). -/

namespace Sys2Proof

/-- The twenty operations.  PQ_INSERT alone has an operand, a 9-bit node index (R136). -/
inductive Instr where
  | hufEnc
  | hufDec
  | rleEnc
  | rleDec
  | pqBuild
  | pqInsert (n : BitVec 9)
  | pqExtractMin
  | tbMerge
  | tbBuild
  | caAssign
  | bpPack
  | bpUnpack
  | freqCount
  | symEncode
  | cbWrite
  | cbParse
  | cbCheck
  | codeWalk
  | rleScan
  | rleExpand
  deriving DecidableEq, Repr, Inhabited

/-- The four operations a host can issue (R92); the other sixteen have no command byte (R96). -/
def Instr.isCommand : Instr → Bool
  | .hufEnc | .hufDec | .rleEnc | .rleDec => true
  | .pqBuild | .pqInsert _ | .pqExtractMin | .tbMerge | .tbBuild | .caAssign | .bpPack | .bpUnpack
  | .freqCount | .symEncode | .cbWrite | .cbParse | .cbCheck | .codeWalk | .rleScan | .rleExpand => false

end Sys2Proof
end

