-- ==== Sys2Proof/WellFormed.lean ====
section
/-! DEFINITION. Which terms of `Instr` stand for an operation of the hardware. -/

namespace Sys2Proof

/-- The operand of PQ_INSERT names an entry of NODE[0 .. 510] (spec/10_state.md R40: "up to 511
entries"); no other operation has an operand. -/
def Instr.wf : Instr → Bool
  | .pqInsert n => decide (n.toNat < 511)
  | .hufEnc | .hufDec | .rleEnc | .rleDec | .pqBuild | .pqExtractMin | .tbMerge | .tbBuild
  | .caAssign | .bpPack | .bpUnpack | .freqCount | .symEncode | .cbWrite | .cbParse | .cbCheck
  | .codeWalk | .rleScan | .rleExpand => true

end Sys2Proof
end

