-- ==== Sys2Proof/Decode.lean ====
section
/-! DEFINITION. The encodings of spec/30_encoding.md: the command byte (R91, R92, R100) and the
unit-operation id (R96), decoded and encoded, and the view of them that numbers bits as
spec/opcode_table.json does. -/

namespace Sys2Proof

/-- An operation as the engine is given it: the byte written to CMD (format CMD), or the value of the
micro-operation select together with the node index PQ_INSERT takes (format UOP, R96; log entry 5). -/
inductive OpWord where
  | cmd (c : Byte)
  | uop (id : BitVec 4) (n : BitVec 9)
  deriving DecidableEq, Repr, Inhabited

/-- Why bits name no operation. -/
inductive DecodeError where
  /-- A command byte whose field ZERO, bits 7:2, is not 0 (R91, R100). -/
  | reservedCommand (c : Byte)
  /-- PQ_INSERT with a node index that names no entry of NODE (R40). -/
  | noSuchNode (n : BitVec 9)
  deriving DecidableEq, Repr

/-- Field ZERO of a command byte, bits 7:2 (R91). -/
def cmdZero (c : Byte) : BitVec 6 := c.extractLsb' 2 6

/-- Field CODEC of a command byte, bit 1: 0 Huffman, 1 RLE (R91). -/
def cmdCodec (c : Byte) : Bool := c.getLsbD 1

/-- Field DIR of a command byte, bit 0: 0 encode, 1 decode (R91). -/
def cmdDir (c : Byte) : Bool := c.getLsbD 0

/-- The command a byte written to CMD selects (R91, R92), or why it selects none (R100). -/
def decodeCommand (c : Byte) : Except DecodeError Instr :=
  if cmdZero c = 0 then
    match cmdCodec c, cmdDir c with
    | false, false => .ok .hufEnc
    | false, true => .ok .hufDec
    | true, false => .ok .rleEnc
    | true, true => .ok .rleDec
  else .error (.reservedCommand c)

/-- The unit operation of a 4-bit id (R96).  `n` is read by PQ_INSERT alone. -/
def decodeUop (id : BitVec 4) (n : BitVec 9) : Except DecodeError Instr :=
  match id.toNat with
  | 0x0 => .ok .pqBuild
  | 0x1 => if n.toNat < 511 then .ok (.pqInsert n) else .error (.noSuchNode n)
  | 0x2 => .ok .pqExtractMin
  | 0x3 => .ok .tbMerge
  | 0x4 => .ok .tbBuild
  | 0x5 => .ok .caAssign
  | 0x6 => .ok .bpPack
  | 0x7 => .ok .bpUnpack
  | 0x8 => .ok .freqCount
  | 0x9 => .ok .symEncode
  | 0xA => .ok .cbWrite
  | 0xB => .ok .cbParse
  | 0xC => .ok .cbCheck
  | 0xD => .ok .codeWalk
  | 0xE => .ok .rleScan
  | _ => .ok .rleExpand

/-- The decoder: every command byte and every select value gives an operation or a named error. -/
def decode : OpWord → Except DecodeError Instr
  | .cmd c => decodeCommand c
  | .uop id n => decodeUop id n

/-- The encoder, from the tables of R92 and R96. -/
def encode : Instr → OpWord
  | .hufEnc => .cmd 0x00
  | .hufDec => .cmd 0x01
  | .rleEnc => .cmd 0x02
  | .rleDec => .cmd 0x03
  | .pqBuild => .uop 0x0 0
  | .pqInsert n => .uop 0x1 n
  | .pqExtractMin => .uop 0x2 0
  | .tbMerge => .uop 0x3 0
  | .tbBuild => .uop 0x4 0
  | .caAssign => .uop 0x5 0
  | .bpPack => .uop 0x6 0
  | .bpUnpack => .uop 0x7 0
  | .freqCount => .uop 0x8 0
  | .symEncode => .uop 0x9 0
  | .cbWrite => .uop 0xA 0
  | .cbParse => .uop 0xB 0
  | .cbCheck => .uop 0xC 0
  | .codeWalk => .uop 0xD 0
  | .rleScan => .uop 0xE 0
  | .rleExpand => .uop 0xF 0

/-- The operation word that the bits `w` of a table row stand for (log entry 6).  `nbits` at most 4
is a row of format UOP.  A row given in a whole byte is the command byte where `w` is one of R92's
four; the other values below 16 can only be a unit-operation id padded with zeros to a byte, since
no row of the table has them as a command byte.  An operand bit the row does not have is 0. -/
def tableWord (nbits w : Nat) : OpWord :=
  if nbits ≤ 4 then .uop (BitVec.ofNat 4 w) 0
  else if 4 ≤ w ∧ w < 16 then .uop (BitVec.ofNat 4 w) 0
  else .cmd (BitVec.ofNat 8 w)

/-- The operation `decode` reads from a table row's bits (log entry 6). -/
def decodeTableWord (nbits w : Nat) : Option Instr :=
  if w < 256 then (decode (tableWord nbits w)).toOption else none

end Sys2Proof
end

