-- ==== Sys2Proof/Machine/State.lean ====
section
/-! DEFINITION. The state of ZIPPER-CORE (spec/10_state.md R20 to R50), the host's pending
transactions (spec/47_command_dispatch.md R280), and the reasons a step can stop. -/

namespace Sys2Proof.Machine

/-- What the host asks of the hardware (R280), the two accesses by register number that R29 gives
it, and the reset event (R330). -/
inductive HostOp where
  /-- H_LOAD(x) (R281). -/
  | load (x : List Byte)
  /-- H_READ (R282). -/
  | read
  /-- A read of the single byte at address `a` of BUF (R282). -/
  | readByte (a : Nat)
  /-- H_STATUS (R283). -/
  | readStatus
  /-- H_CFG (R283). -/
  | readCfg
  /-- H_ISSUE(c) (R284). -/
  | issue (c : Byte)
  /-- A read of register number `r` (R29). -/
  | readReg (r : BitVec 2)
  /-- A write of the value `v` to register number `r` (R29). -/
  | writeReg (r : BitVec 2) (v : Nat)
  /-- The reset event (R330). -/
  | reset
  deriving DecidableEq, Repr, Inhabited

/-- What a transaction gives back to the host. -/
inductive Reply where
  /-- H_LOAD, H_ISSUE and reset return nothing but the fact that they are over. -/
  | done
  /-- H_READ: the bytes of BUF and LEN (R282). -/
  | buffer (x : List Byte) (len : Nat)
  /-- A single byte of BUF (R282). -/
  | byte (b : Byte)
  /-- The value of a register (R283, R29). -/
  | reg (v : Nat)
  deriving DecidableEq, Repr, Inhabited

/-- Where a unit operation cannot go on: its rule's precondition excludes the scratch contents it
meets, and the pseudocode reads or writes an entry that does not exist.  The spec gives no effect
there.  Every one is SAFE (the model stops), and no command reaches one from a state that meets
`State.Inv`; only a unit operation started on its own can. -/
inductive Fault where
  /-- PQ_INSERT with HN = 256: HEAP has no entry for the node (R136: "HEAP cannot overflow"). Safe. -/
  | heapFull
  /-- TB_MERGE with NN = 511: NODE has no entry for the new node (R40). Safe. -/
  | nodeTableFull
  /-- BP_PACK or CODE_WALK with TBL greater than the length of BITS: the bit read does not exist
  (R44, R186, R206). Safe. -/
  | noSuchBit
  /-- BP_UNPACK with PPOS + ceil8(TBL) > LEN (R187, precondition; R70). Safe. -/
  | readBeyondLen
  deriving DecidableEq, Repr

/-- What the model does not admit. -/
inductive Refusal where
  /-- An operation without a meaning; no arm of `exec` answers it now. Safe. -/
  | notModelled (mnemonic : String)
  /-- Raised by PQ_INSERT with the operand 511, which names no entry of NODE (R40). Safe. -/
  | noSuchNode
  /-- Raised by H_LOAD of more than `CAP` bytes (R281, U15: "refused"). Safe. -/
  | loadTooLong
  /-- Raised by a host read of a byte at an address `a >= LEN` (R282, U2: "refused"). Safe. -/
  | readBeyondLen
  /-- Raised by a host read of CMD, a write-only register (R23, U19: "refused"). Safe. -/
  | readOfCmd
  /-- Raised by a host write of STATUS or CFG, or of LEN apart from H_LOAD (R29, U19: "refused"). Safe. -/
  | writeOfReadOnly
  /-- Raised by a host write to CMD of a value that is no byte (R23: CMD is 8 bits wide). Safe. -/
  | cmdValueTooWide
  deriving DecidableEq, Repr

/-- The whole state.  LEN is the length of `buf` (`State.len`): R22 makes BUF and LEN one value.
CFG is an image of `config` (`State.cfg`, R25).  CMD holds nothing (R23). -/
structure State where
  /-- `SZ` and `CAP` (R8, R20): no step changes them. -/
  config : Config
  /-- BUF (R21). -/
  buf : List Byte
  /-- STATUS (R24). -/
  status : BitVec 8
  /-- The scratch structures and working registers (R20, R27, R30). -/
  scratch : Scratch
  /-- The sequencer's micro-operation select (R96) with PQ_INSERT's operand: a unit operation to
  run next, outside any command (log entry 5). -/
  sel : Option (BitVec 4 × BitVec 9)
  /-- MODEL's own: the host's transactions still to come, the first at the head (log entry 7). -/
  script : List HostOp
  /-- MODEL's own: what the transactions so far gave back, oldest first (log entry 7). -/
  replies : List Reply
  /-- MODEL's own: how many free values have been drawn (log entry 3). -/
  draws : Nat
  deriving DecidableEq, Repr, Inhabited

/-- LEN (R22): the number of valid bytes of BUF. -/
def State.len (s : State) : Nat := s.buf.length

/-- The state after reset (R50, R330).  Scratch is unspecified there; the value it has here is named
by log entry 2. -/
def State.reset : State where
  config := Config.decided
  buf := []
  status := 0x00
  scratch := Scratch.zero
  sel := none
  script := []
  replies := []
  draws := 0

end Sys2Proof.Machine
end

