-- ==== Sys2Proof/Machine/Flags.lean ====
section
/-! DEFINITION. The status fields: STATUS (spec/10_state.md R24, R28), the error codes that fill it
(spec/60_exceptions.md R301) and CFG (R25). -/

namespace Sys2Proof.Machine

/-- The errors of R301. -/
inductive Err where
  | malformedContainer
  | inconsistentCodebook
  | emptyQueue
  | illegalCommand
  | capacityExceeded
  deriving DecidableEq, Repr, Inhabited

/-- `code(E)` (R301). -/
def Err.errCode : Err → BitVec 8
  | .malformedContainer => 1
  | .inconsistentCodebook => 2
  | .emptyQueue => 3
  | .illegalCommand => 4
  | .capacityExceeded => 5

/-- What a command that ends with error `e` writes to STATUS: `0x08 | code(e)` (R24, R306). -/
def Err.status (e : Err) : BitVec 8 := 0x08#8 ||| e.errCode

/-- What commit writes to STATUS: DONE = 1, ERR = 0 (R286). -/
def statusOk : BitVec 8 := 0x08

/-- Field ERR, bits 2:0 of STATUS (R24). -/
def State.err (s : State) : BitVec 3 := s.status.extractLsb' 0 3

/-- Field DONE, bit 3 of STATUS (R24). -/
def State.done (s : State) : Bool := s.status.getLsbD 3

/-- Bits 7:4 of STATUS, hardwired 0 (R24). -/
def State.statusReserved (s : State) : BitVec 4 := s.status.extractLsb' 4 4

/-- CFG (R25): `SZ` in bits 3:0, BO in bit 4 and bits 7:5 hardwired 0. -/
def State.cfg (s : State) : BitVec 8 := BitVec.ofNat 8 s.config.sz

end Sys2Proof.Machine
end

