-- ==== Sys2Proof/Machine/Operands.lean ====
section
/-! DEFINITION. Operand forms: size fields, packed bit strings, reads of BUF, entries of the tables
(spec/00_scope.md R10 to R13; spec/20_memory.md R60 to R65; spec/43_bit_packer.md R188). -/

namespace Sys2Proof.Machine

/-- `ceil8(n)`: the number of bytes that hold `n` bits (R10). -/
def ceil8 (n : Nat) : Nat := (n + 7) / 8

/-! ### Size fields (R61, R93) -/

/-- The unsigned integer whose little-endian bytes these are (R61). -/
def leValue : List Byte → Nat
  | [] => 0
  | b :: bs => b.toNat + 256 * leValue bs

/-- The `n` little-endian bytes of `v`: byte `k` is `(v div 256^k) mod 256` (R13, `MemWrite`). -/
def leBytes : Nat → Nat → List Byte
  | 0, _ => []
  | n + 1, v => BitVec.ofNat 8 v :: leBytes n (v / 256)

/-! ### Reads of BUF (R13, R60) -/

/-- `MemReadBytes(a, n)`: `BUF[a .. a+n)`.  Callers have checked `a + n <= LEN` (R13). -/
def memReadBytes (buf : List Byte) (a n : Nat) : List Byte := (buf.drop a).take n

/-- `MemRead(a, n)` (R13, R61). -/
def memRead (buf : List Byte) (a n : Nat) : Nat := leValue (memReadBytes buf a n)

/-! ### Packed bit strings (R62, R63, R188) -/

/-- `bit(i)` of R188 as a number: `b[i]` if `i < len(b)`, and 0 beyond. -/
def bitAt (b : Bits) (i : Nat) : Nat := if b.getD i false then 1 else 0

/-- `pack(b)[j]` (R188). -/
def packByte (b : Bits) (j : Nat) : Byte :=
  BitVec.ofNat 8
    (bitAt b (8 * j) * 128 + bitAt b (8 * j + 1) * 64 + bitAt b (8 * j + 2) * 32
      + bitAt b (8 * j + 3) * 16 + bitAt b (8 * j + 4) * 8 + bitAt b (8 * j + 5) * 4
      + bitAt b (8 * j + 6) * 2 + bitAt b (8 * j + 7))

/-- `pack(b)` (R188). -/
def pack (b : Bits) : List Byte := (List.range (ceil8 b.length)).map (packByte b)

/-- `unpack(B, n)` (R188): bit `i` is bit position `7 - (i mod 8)` of byte `i div 8`. -/
def unpack (B : List Byte) (n : Nat) : Bits :=
  (List.range n).map fun i => (B.getD (i / 8) 0).getLsbD (7 - i % 8)

/-- `isPrefix(c, d)` (R12). -/
def isPrefix : Bits → Bits → Bool
  | [], _ => true
  | _ :: _, [] => false
  | c :: cs, d :: ds => c == d && isPrefix cs ds

/-! ### Tables (R31, R40, R41, R43) -/

/-- The entry of symbol `s` in a table of 256 (FREQ, CODE). -/
def symGet {α : Type} (v : Vector α 256) (s : Byte) : α := v[s.toNat]'s.isLt

/-- The table with the entry of symbol `s` written. -/
def symSet {α : Type} (v : Vector α 256) (s : Byte) (x : α) : Vector α 256 := v.set s.toNat x s.isLt

/-- The table whose entry `i` is `f i`. -/
def tabulate {α : Type} (n : Nat) (f : Nat → α) : Vector α n := ⟨⟨(List.range n).map f⟩, by simp⟩

/-- The table `v`, written out entry by entry: a free table can then be read and written as a table. -/
def writtenOut {α : Type} (v : Vector α 256) : Vector α 256 := tabulate 256 fun i => symGet v (BitVec.ofNat 8 i)

/-- Every symbol, in ascending order: the loops `for s = 0 .. 255`. -/
def symbols : List Byte := (List.range 256).map (BitVec.ofNat 8)

/-- `NODE[i]` (R40). -/
def nodeGet (v : Vector Node 511) (i : NodeIdx) : Node := v[i.val]'i.isLt

/-- `NODE[i] <- x` (R40). -/
def nodeSet (v : Vector Node 511) (i : NodeIdx) (x : Node) : Vector Node 511 := v.set i.val x i.isLt

/-- The node index of a count, for counts below 511. -/
def nodeIdx (n : Nat) : NodeIdx := Fin.ofNat 511 n

/-- `HEAP[i]` (R41).  The rules read positions below HN <= 256 only. -/
def heapGet (h : Vector NodeIdx 256) (i : Nat) : NodeIdx := h[i]?.getD 0

/-- `HEAP[i] <- n` (R41). -/
def heapSet (h : Vector NodeIdx 256) (i : Nat) (n : NodeIdx) : Vector NodeIdx 256 := h.setIfInBounds i n

/-- `swap HEAP[i], HEAP[j]` (R133, R134). -/
def heapSwap (h : Vector NodeIdx 256) (i j : Nat) : Vector NodeIdx 256 :=
  heapSet (heapSet h i (heapGet h j)) j (heapGet h i)

end Sys2Proof.Machine
end

