-- ==== Sys2Proof/Machine/Ops.lean ====
section
/-! DEFINITION. The operations the meanings share: starting a command, releasing scratch, raising an
error, committing, running a unit operation or a microprogram
(spec/47_command_dispatch.md R285 to R289; spec/60_exceptions.md R306). -/

namespace Sys2Proof.Machine

/-- Why a unit operation does not run to its end: it raises an error (R306), or the model stops. -/
inductive Stop where
  | raised (e : Err)
  | stuck (f : Fault)
  deriving DecidableEq, Repr

/-- What a unit operation is to the rest of the machine: it reads the configuration, BUF and
scratch, and it writes scratch alone (R60, R66: BUF is written only at commit). -/
abbrev UnitOp := Config → List Byte → Scratch → Except Stop Scratch

/-- Scratch initialisation, at the start of every legal command (R288). -/
def Scratch.init (sc : Scratch) : Scratch :=
  { sc with
    stage := []
    code := sc.code.map fun e => { e with valid := false }
    rootValid := false
    nn := 0
    hn := 0
    bits := []
    tbl := 0
    dtab := []
    ppos := 0 }

/-- A scratch state cut to the values R27 and R31 to R46 give its registers: the bound a free value keeps.
DESIGN CHOICE (log entry 3): that is the range the rules name where it is smaller than the register's width: NN is
0 to 511, HN 0 to 256, and ROOT, HEAP, `left`, `right` and `ret` are 0 to 510.
The tables are written out entry by entry, so that a table with free entries can be read and written. -/
def Scratch.clamp (c : Config) (sc : Scratch) : Scratch :=
  { sc with
    freq := tabulate 256 fun i => symGet sc.freq (BitVec.ofNat 8 i) % c.limit
    node := tabulate 511 fun i =>
      { nodeGet sc.node (nodeIdx i) with weight := (nodeGet sc.node (nodeIdx i)).weight % c.limit }
    nn := sc.nn % 512
    heap := tabulate 256 fun i => heapGet sc.heap i
    hn := sc.hn % 257
    code := tabulate 256 fun i =>
      ⟨(symGet sc.code (BitVec.ofNat 8 i)).valid, (symGet sc.code (BitVec.ofNat 8 i)).bits.take 255⟩
    tbl := sc.tbl % c.limit
    ipos := sc.ipos % c.limit
    bpos := sc.bpos % c.limit
    runCnt := sc.runCnt % c.limit
    path := sc.path.take 255 }

/-- Release scratch (R30): its contents become unspecified, a free value (log entry 3). -/
def State.release (s : State) : State :=
  { s with scratch := (Config.freeScratch s.draws).clamp s.config, draws := s.draws + 1 }

/-- `raise e` (R306): STAGE is discarded with the rest of scratch, STATUS <- 0x08 | code(e), BUF and
LEN stay as they are. -/
def State.raise (e : Err) (s : State) : State := { s.release with status := e.status }

/-- `raise IllegalCommand` by the dispatcher (R285, R289): no scratch has been initialised, and R306
releases it as every `raise` does. -/
def State.raiseIllegalCommand (s : State) : State := s.raise .illegalCommand

/-- Commit (R286), of the scratch state `sc` a microprogram ended with: the capacity check, then the
one atomic replacement of (BUF, LEN), STATUS <- 0x08 and the release of scratch. -/
def State.commit (sc : Scratch) (s : State) : State :=
  if sc.slen > s.config.cap then s.raise .capacityExceeded
  else { s.release with buf := sc.stage, status := statusOk }

/-- Run one unit operation outside a command (log entry 5): scratch is written, or the error raised. -/
def runUop (f : UnitOp) (s : State) : Host.Outcome State Fault Refusal :=
  match f s.config s.buf s.scratch with
  | .ok sc => .next { s with scratch := sc }
  | .error (.raised e) => .next (s.raise e)
  | .error (.stuck r) => .fault r

/-- Run one command (R285): initialise scratch, run the microprogram, commit or abort. -/
def runCommand (f : UnitOp) (s : State) : Host.Outcome State Fault Refusal :=
  match f s.config s.buf s.scratch.init with
  | .ok sc => .next (s.commit sc)
  | .error (.raised e) => .next (s.raise e)
  | .error (.stuck r) => .fault r

/-! ### Writing STAGE (R13, R46) -/

/-- Append bytes to STAGE. -/
def Scratch.append (sc : Scratch) (bs : List Byte) : Scratch := { sc with stage := sc.stage ++ bs }

/-- `MemWrite(SLEN, SZ, v)` (R13). -/
def Scratch.writeSize (c : Config) (v : Nat) (sc : Scratch) : Scratch := sc.append (leBytes c.sz v)

/-- `Emit(b)` (R13). -/
def Scratch.emit (b : Byte) (sc : Scratch) : Scratch := sc.append [b]

end Sys2Proof.Machine
end

