-- ==== Sys2Proof/Machine/CodeAssigner.lean ====
section
/-! DEFINITION. The code table generator: CA_ASSIGN (spec/42_code_assigner.md R170 to R175). -/

namespace Sys2Proof.Machine

/-- `walk(n, PATH)` (R171), left before right (R175 leaves the order free).  The first argument is
how many more bits PATH can take: it holds at most 255 (R27), and a path that needs more has no result.
DESIGN CHOICE (log entry 12): NN is not looked at. -/
def walk (node : Vector Node 511) :
    Nat → NodeIdx → Bits → Vector CodeEntry 256 → Option (Vector CodeEntry 256)
  | room, n, path, code =>
    if (nodeGet node n).leaf then some (symSet code (nodeGet node n).sym ⟨true, path⟩)
    else
      match room with
      | 0 => none
      | room + 1 =>
        (walk node room (nodeGet node n).left (path ++ [false]) code).bind
          (walk node room (nodeGet node n).right (path ++ [true]))

/-- `for s = 0 .. 255: CODE[s].valid <- 0` (R171). -/
def clearValid (code : Vector CodeEntry 256) : Vector CodeEntry 256 :=
  code.map fun e => { e with valid := false }

/-- CODE after a walk whose paths PATH cannot hold: which entries are written, and with which codes, is a free
value (log entry 15); an entry that is not written is invalid. -/
def openCodes (sc : Scratch) : Vector CodeEntry 256 :=
  tabulate 256 fun i =>
    match Config.freeCode sc (BitVec.ofNat 8 i) with
    | some code => ⟨true, code.take 255⟩
    | none => ⟨false, (symGet sc.code (BitVec.ofNat 8 i)).bits⟩

/-- CODE after CA_ASSIGN has begun at node `root` (R171, R172). -/
def codesFrom (sc : Scratch) (root : NodeIdx) : Vector CodeEntry 256 :=
  if (nodeGet sc.node root).leaf then symSet (clearValid sc.code) (nodeGet sc.node root).sym ⟨true, [false]⟩
  else (walk sc.node 255 root [] (clearValid sc.code)).getD (openCodes sc)

/-- CA_ASSIGN on the scratch state (R171, R172).
DESIGN CHOICE (log entry 15): with ROOT invalid it begins at a node that is a free value.
DEDUCED (log entry 8): PATH is empty when the walk is over.
DESIGN CHOICE (log entry 8): PATH is empty after the branch for a leaf too, where no walk runs.
DESIGN CHOICE (log entry 12): a ROOT or a child index from NN on, an entry R40 does not have, is read from
NODE's storage. -/
def caAssign (sc : Scratch) : Scratch :=
  { sc with
    code := if sc.rootValid then codesFrom sc sc.root else writtenOut (codesFrom sc (Config.freeRoot sc))
    path := [] }

/-- CA_ASSIGN (R171). -/
def execCaAssign (s : State) : Host.Outcome State Fault Refusal :=
  runUop (fun _ _ sc => .ok (caAssign sc)) s

end Sys2Proof.Machine
end

