-- ==== Sys2Proof/Machine/BitPacker.lean ====
section
/-! DEFINITION. The bit packer and unpacker: BP_PACK, BP_UNPACK (spec/43_bit_packer.md R185 to R189). -/

namespace Sys2Proof.Machine

/-- `BITS[0 .. TBL)`, the bits BP_PACK and CODE_WALK read one by one (R44, R186, R206).  DESIGN CHOICE (log entry
12): where TBL is smaller than the length of BITS, BP_PACK too reads these bits, as R186's loop does, and not all
of BITS, as R186's result line does. -/
def payloadBits (sc : Scratch) : Except Stop Bits :=
  if sc.tbl ≤ sc.bits.length then .ok (sc.bits.take sc.tbl) else .error (.stuck .noSuchBit)

/-- One turn of the loop of BP_PACK (R186) on STAGE, ACC and ACCN. -/
def packStep (sc : Scratch) (b : Bit) : Scratch :=
  let acc := sc.acc + (if b then (1#8 <<< (7 - sc.accn.val)) else 0)
  if sc.accn.val = 7 then { sc.emit acc with acc := 0, accn := 0 }
  else { sc with acc := acc, accn := sc.accn + 1 }

/-- BP_PACK on the scratch state, bit by bit as R186 writes it. -/
def bpPack (sc : Scratch) : Except Stop Scratch := do
  let bits ← payloadBits sc
  let sc := bits.foldl packStep { sc with acc := 0, accn := 0 }
  let sc := if 0 < sc.accn.val then sc.emit sc.acc else sc
  .ok { sc with bpos := sc.tbl }

/-- BP_UNPACK on the scratch state (R187). -/
def bpUnpack (buf : List Byte) (sc : Scratch) : Except Stop Scratch :=
  if sc.ppos + ceil8 sc.tbl ≤ buf.length then
    .ok { sc with bits := unpack (memReadBytes buf sc.ppos (ceil8 sc.tbl)) sc.tbl }
  else .error (.stuck .readBeyondLen)

/-- BP_PACK (R186). -/
def execBpPack (s : State) : Host.Outcome State Fault Refusal :=
  runUop (fun _ _ sc => bpPack sc) s

/-- BP_UNPACK (R187). -/
def execBpUnpack (s : State) : Host.Outcome State Fault Refusal :=
  runUop (fun _ buf sc => bpUnpack buf sc) s

end Sys2Proof.Machine
end

