-- ==== Sys2Proof/Machine/CodebookSerializer.lean ====
section
/-! DEFINITION. The codebook serializer and the codec's data path: FREQ_COUNT, SYM_ENCODE, CB_WRITE,
CB_PARSE, CB_CHECK, CODE_WALK (spec/44_codebook_serializer.md R200 to R209). -/

namespace Sys2Proof.Machine

/-! ### Encode side -/

/-- FREQ_COUNT on the scratch state (R201). -/
def freqCount (buf : List Byte) (sc : Scratch) : Scratch :=
  { sc with
    freq := buf.foldl (fun f b => symSet f b (symGet f b + 1)) (Vector.replicate 256 0)
    ipos := buf.length }

/-- SYM_ENCODE on the scratch state (R202).  DESIGN CHOICE (log entry 12): of an invalid CODE entry, which R202
says no byte of BUF has, it takes the stored bits. -/
def symEncode (c : Config) (buf : List Byte) (sc : Scratch) : Except Stop Scratch :=
  let bits := buf.flatMap fun b => (symGet sc.code b).bits
  if bits.length < c.limit then .ok { sc with bits := bits, tbl := bits.length, ipos := buf.length }
  else .error (.raised .capacityExceeded)

/-- One turn of the loop of CB_WRITE (R203): the codebook entry of symbol `s`, if it is valid. -/
def writeEntry (c : Config) (sc : Scratch) (s : Byte) : Scratch :=
  if (symGet sc.code s).valid then
    ((sc.emit s).writeSize c (symGet sc.code s).len).append (pack (symGet sc.code s).bits)
  else sc

/-- CB_WRITE on the scratch state (R203). -/
def cbWrite (c : Config) (sc : Scratch) : Scratch :=
  let u := (symbols.filter fun s => (symGet sc.code s).valid).length
  symbols.foldl (writeEntry c) ((sc.writeSize c u).writeSize c sc.tbl)

/-! ### Decode side -/

/-- The loop of CB_PARSE (R204): `DU - i` entries from address `p`.  It gives DTAB and the final `p`. -/
def parseEntries (c : Config) (buf : List Byte) :
    Nat → Nat → List DecodeEntry → Except Stop (List DecodeEntry × Nat)
  | 0, p, dtab => .ok (dtab, p)
  | k + 1, p, dtab =>
    if p + 1 + c.sz > buf.length then .error (.raised .malformedContainer)
    else
      let sym := BitVec.ofNat 8 (memRead buf p 1)
      let cl := memRead buf (p + 1) c.sz
      let q := p + 1 + c.sz
      if q + ceil8 cl > buf.length then .error (.raised .malformedContainer)
      else
        parseEntries c buf k (q + ceil8 cl)
          (dtab ++ [⟨sym, unpack (memReadBytes buf q (ceil8 cl)) cl⟩])

/-- CB_PARSE on the scratch state (R204). -/
def cbParse (c : Config) (buf : List Byte) (sc : Scratch) : Except Stop Scratch :=
  if buf.length < 2 * c.sz then .error (.raised .malformedContainer)
  else do
    let tbl := memRead buf c.sz c.sz
    let (dtab, p) ← parseEntries c buf (memRead buf 0 c.sz) (2 * c.sz) []
    if p + ceil8 tbl > buf.length then .error (.raised .malformedContainer)
    else .ok { sc with tbl := tbl, dtab := dtab, ppos := p, ipos := p }

/-- Two codes of which one is a prefix of the other, at different positions (check K2 of R205). -/
def anyPrefixPair : List Bits → Bool
  | [] => false
  | c :: cs => cs.any (fun d => isPrefix c d || isPrefix d c) || anyPrefixPair cs

/-- CB_CHECK on the scratch state (R205): checks K1 and K2. -/
def cbCheck (sc : Scratch) : Except Stop Scratch :=
  if sc.dtab.any fun e => e.code.isEmpty then .error (.raised .inconsistentCodebook)
  else if anyPrefixPair (sc.dtab.map (·.code)) then .error (.raised .inconsistentCodebook)
  else .ok sc

/-- The entry CODE_WALK takes among the matching ones `e :: es` (R206): `e` if it is the only one, as it is
after CB_CHECK, and a free choice among them otherwise (log entry 11). -/
def chooseMatch (e : DecodeEntry) (es : List DecodeEntry) : DecodeEntry :=
  match es with
  | [] => e
  | _ :: _ => (e :: es).getD (Config.freeMatch (e :: es) % (es.length + 1)) e

/-- One turn of the loop of CODE_WALK (R206) on CAND and STAGE. -/
def walkStep (sc : Scratch) (b : Bit) : Scratch :=
  match sc.dtab.filter fun e => e.code == sc.cand ++ [b] with
  | [] => { sc with cand := sc.cand ++ [b] }
  | e :: es => { sc.emit (chooseMatch e es).sym with cand := [] }

/-- CODE_WALK on the scratch state (R206). -/
def codeWalk (sc : Scratch) : Except Stop Scratch := do
  let bits ← payloadBits sc
  let sc := bits.foldl walkStep { sc with cand := [] }
  if sc.cand = [] then .ok { sc with bpos := sc.tbl } else .error (.raised .malformedContainer)

/-! ### The meanings -/

/-- FREQ_COUNT (R201). -/
def execFreqCount (s : State) : Host.Outcome State Fault Refusal :=
  runUop (fun _ buf sc => .ok (freqCount buf sc)) s

/-- SYM_ENCODE (R202). -/
def execSymEncode (s : State) : Host.Outcome State Fault Refusal := runUop symEncode s

/-- CB_WRITE (R203). -/
def execCbWrite (s : State) : Host.Outcome State Fault Refusal :=
  runUop (fun c _ sc => .ok (cbWrite c sc)) s

/-- CB_PARSE (R204). -/
def execCbParse (s : State) : Host.Outcome State Fault Refusal := runUop cbParse s

/-- CB_CHECK (R205). -/
def execCbCheck (s : State) : Host.Outcome State Fault Refusal :=
  runUop (fun _ _ sc => cbCheck sc) s

/-- CODE_WALK (R206). -/
def execCodeWalk (s : State) : Host.Outcome State Fault Refusal :=
  runUop (fun _ _ sc => codeWalk sc) s

end Sys2Proof.Machine
end

