-- ==== Sys2Proof/Machine/PriorityQueue.lean ====
section
/-! DEFINITION. The min-priority queue: PQ_BUILD, PQ_INSERT, PQ_EXTRACT_MIN
(spec/40_priority_queue.md R130 to R139). -/

namespace Sys2Proof.Machine

/-- `less(a, b)` (R131): the keys (weight, node index) in lexicographic order.  DESIGN CHOICE (log entry 12): an
index from NN on is read from NODE's storage. -/
def less (node : Vector Node 511) (a b : NodeIdx) : Bool :=
  decide ((nodeGet node a).weight < (nodeGet node b).weight)
    || (decide ((nodeGet node a).weight = (nodeGet node b).weight) && decide (a.val < b.val))

/-- The position among `i` and its children below `hn` that holds the least key: `m` of R133. -/
def siftTarget (node : Vector Node 511) (hn : Nat) (h : Vector NodeIdx 256) (i : Nat) : Nat :=
  let m := if 2 * i + 1 < hn ∧ less node (heapGet h (2 * i + 1)) (heapGet h i) = true then 2 * i + 1 else i
  if 2 * i + 2 < hn ∧ less node (heapGet h (2 * i + 2)) (heapGet h m) = true then 2 * i + 2 else m

/-- `siftDown(i)` (R133).  The first argument bounds the iterations; position `i` grows in each and
stays below `hn`, so `hn` of them are enough. -/
def siftDown (node : Vector Node 511) (hn : Nat) : Nat → Vector NodeIdx 256 → Nat → Vector NodeIdx 256
  | 0, h, _ => h
  | fuel + 1, h, i =>
    let m := siftTarget node hn h i
    if m = i then h else siftDown node hn fuel (heapSwap h i m) m

/-- `siftUp(i)` (R134).  The first argument bounds the iterations; `i` of them are enough. -/
def siftUp (node : Vector Node 511) : Nat → Vector NodeIdx 256 → Nat → Vector NodeIdx 256
  | 0, h, _ => h
  | fuel + 1, h, i =>
    if 0 < i ∧ less node (heapGet h i) (heapGet h ((i - 1) / 2)) = true then
      siftUp node fuel (heapSwap h i ((i - 1) / 2)) ((i - 1) / 2)
    else h

/-- The second loop of PQ_BUILD (R135): `siftDown(k - 1)` for `k` from its start down to 1. -/
def heapify (node : Vector Node 511) (hn : Nat) : Nat → Vector NodeIdx 256 → Vector NodeIdx 256
  | 0, h => h
  | k + 1, h => heapify node hn k (siftDown node hn hn h k)

/-- One turn of the first loop of PQ_BUILD (R135): the leaf of symbol `s`, if `s` is present. -/
def addLeaf (sc : Scratch) (s : Byte) : Scratch :=
  if 1 ≤ symGet sc.freq s then
    { sc with
      node := nodeSet sc.node (nodeIdx sc.nn) ⟨true, s, symGet sc.freq s, 0, 0⟩
      heap := heapSet sc.heap sc.hn (nodeIdx sc.nn)
      hn := sc.hn + 1
      nn := sc.nn + 1 }
  else sc

/-- PQ_BUILD on the scratch state (R135). -/
def pqBuild (sc : Scratch) : Scratch :=
  let sc := symbols.foldl addLeaf { sc with nn := 0, hn := 0 }
  { sc with heap := heapify sc.node sc.hn (sc.hn / 2) sc.heap }

/-- PQ_INSERT(n) on the scratch state (R136). -/
def pqInsert (n : NodeIdx) (sc : Scratch) : Except Stop Scratch :=
  if sc.hn < 256 then
    .ok { sc with
      heap := siftUp sc.node sc.hn (heapSet sc.heap sc.hn n) sc.hn
      hn := sc.hn + 1 }
  else .error (.stuck .heapFull)

/-- PQ_EXTRACT_MIN on the scratch state (R137): the node index returned stands in `ret`. -/
def pqExtractMin (sc : Scratch) : Except Stop Scratch :=
  if sc.hn = 0 then .error (.raised .emptyQueue)
  else
    let hn := sc.hn - 1
    let heap :=
      if 0 < hn then siftDown sc.node hn hn (heapSet sc.heap 0 (heapGet sc.heap hn)) 0 else sc.heap
    .ok { sc with ret := heapGet sc.heap 0, heap := heap, hn := hn }

/-- PQ_BUILD (R135). -/
def execPqBuild (s : State) : Host.Outcome State Fault Refusal :=
  runUop (fun _ _ sc => .ok (pqBuild sc)) s

/-- PQ_INSERT(n) (R136); a number that names no entry of NODE is no operand of it. -/
def execPqInsert (n : BitVec 9) (s : State) : Host.Outcome State Fault Refusal :=
  if h : n.toNat < 511 then runUop (fun _ _ sc => pqInsert ⟨n.toNat, h⟩ sc) s
  else .refused .noSuchNode

/-- PQ_EXTRACT_MIN (R137). -/
def execPqExtractMin (s : State) : Host.Outcome State Fault Refusal :=
  runUop (fun _ _ sc => pqExtractMin sc) s

end Sys2Proof.Machine
end

