-- ==== Sys2Proof/Machine/TreeBuilder.lean ====
section
/-! DEFINITION. The Huffman tree builder: TB_MERGE, TB_BUILD (spec/41_tree_builder.md R150 to R157). -/

namespace Sys2Proof.Machine

/-- The weight of a merged node (R151): the sum of its children's, and a free value where the sum needs
more than `W` bits (log entry 10). -/
def mergeWeight (c : Config) (a b : Nat) : Nat :=
  if a + b < c.limit then a + b else Config.wideSum a b % c.limit

/-- The write of the internal node of TB_MERGE (R151): `NODE[NN] <- ...; NN <- NN + 1`. -/
def addInternal (c : Config) (l r : NodeIdx) (sc : Scratch) : Except Stop Scratch :=
  if sc.nn < 511 then
    .ok { sc with
      node := nodeSet sc.node (nodeIdx sc.nn)
        ⟨false, 0, mergeWeight c (nodeGet sc.node l).weight (nodeGet sc.node r).weight, l, r⟩
      nn := sc.nn + 1 }
  else .error (.stuck .nodeTableFull)

/-- TB_MERGE on the scratch state (R151). -/
def tbMerge (c : Config) (sc : Scratch) : Except Stop Scratch := do
  let sc1 ← pqExtractMin sc
  let sc2 ← pqExtractMin sc1
  let sc3 ← addInternal c sc1.ret sc2.ret sc2
  pqInsert (nodeIdx sc2.nn) sc3

/-- The loop of TB_BUILD (R152).  The first argument bounds the iterations; HN falls by one in each,
so HN of them are enough. -/
def mergeAll (c : Config) : Nat → Scratch → Except Stop Scratch
  | 0, sc => .ok sc
  | fuel + 1, sc => if 1 < sc.hn then do mergeAll c fuel (← tbMerge c sc) else .ok sc

/-- TB_BUILD on the scratch state (R152). -/
def tbBuild (c : Config) (sc : Scratch) : Except Stop Scratch := do
  let sc ← mergeAll c sc.hn sc
  .ok { sc with root := heapGet sc.heap 0, rootValid := true }

/-- TB_MERGE (R151). -/
def execTbMerge (s : State) : Host.Outcome State Fault Refusal :=
  runUop (fun c _ sc => tbMerge c sc) s

/-- TB_BUILD (R152). -/
def execTbBuild (s : State) : Host.Outcome State Fault Refusal :=
  runUop (fun c _ sc => tbBuild c sc) s

end Sys2Proof.Machine
end

