-- ==== Sys2Proof/Machine/HuffmanCodec.lean ====
section
/-! DEFINITION. The Huffman commands HUF_ENC and HUF_DEC (spec/45_huffman_codec.md R230 to R239). -/

namespace Sys2Proof.Machine

/-- The steps of HUF_ENC that its test `LEN >= 1` guards (R231). -/
def buildCodes (c : Config) (buf : List Byte) (sc : Scratch) : Except Stop Scratch :=
  if 1 ≤ buf.length then do return caAssign (← tbBuild c (pqBuild sc)) else .ok sc

/-- The microprogram of HUF_ENC up to its commit (R231). -/
def hufEncProgram : UnitOp := fun c buf sc => do
  let sc ← buildCodes c buf (freqCount buf sc)
  let sc ← symEncode c buf sc
  bpPack (cbWrite c sc)

/-- The microprogram of HUF_DEC up to its commit (R232). -/
def hufDecProgram : UnitOp := fun c buf sc => do
  let sc ← cbParse c buf sc
  let sc ← cbCheck sc
  let sc ← bpUnpack buf sc
  codeWalk sc

/-- HUF_ENC (R231). -/
def execHufEnc (s : State) : Host.Outcome State Fault Refusal := runCommand hufEncProgram s

/-- HUF_DEC (R232). -/
def execHufDec (s : State) : Host.Outcome State Fault Refusal := runCommand hufDecProgram s

end Sys2Proof.Machine
end

