-- ==== Sys2Proof/Machine/RleCodec.lean ====
section
/-! DEFINITION. The run-length codec: RLE_SCAN, RLE_EXPAND, RLE_ENC, RLE_DEC
(spec/46_rle_codec.md R260 to R269). -/

namespace Sys2Proof.Machine

/-- The write of the pending run (R261): `MemWrite(SLEN, SZ, RUN_CNT); Emit(RUN_BYTE)`. -/
def emitRun (c : Config) (sc : Scratch) : Scratch := (sc.writeSize c sc.runCnt).emit sc.runByte

/-- One turn of the loop of RLE_SCAN (R261). -/
def scanStep (c : Config) (sc : Scratch) (b : Byte) : Scratch :=
  if b = sc.runByte then { sc with runCnt := sc.runCnt + 1 }
  else { emitRun c sc with runByte := b, runCnt := 1 }

/-- RLE_SCAN on the scratch state (R261). -/
def rleScan (c : Config) (buf : List Byte) (sc : Scratch) : Scratch :=
  match buf with
  | [] => sc
  | b :: bs =>
    let sc := bs.foldl (scanStep c) { sc with runByte := b, runCnt := 1 }
    { emitRun c sc with ipos := buf.length }

/-- The loop of RLE_EXPAND (R262) over the `k` pairs that begin at address `p`. -/
def expandPairs (c : Config) (buf : List Byte) : Nat → Nat → Scratch → Except Stop Scratch
  | 0, _, sc => .ok sc
  | k + 1, p, sc =>
    let cnt := memRead buf p c.sz
    let b := BitVec.ofNat 8 (memRead buf (p + c.sz) 1)
    if sc.total + cnt > c.cap then .error (.raised .capacityExceeded)
    else
      expandPairs c buf k (p + (c.sz + 1))
        { sc.append (List.replicate cnt b) with total := sc.total + cnt }

/-- RLE_EXPAND on the scratch state (R262): check X1, then the loop with its check X2. -/
def rleExpand (c : Config) (buf : List Byte) (sc : Scratch) : Except Stop Scratch :=
  if buf.length % (c.sz + 1) ≠ 0 then .error (.raised .malformedContainer)
  else do
    let sc ← expandPairs c buf (buf.length / (c.sz + 1)) 0 { sc with total := 0 }
    .ok { sc with ipos := buf.length }

/-- RLE_SCAN (R261). -/
def execRleScan (s : State) : Host.Outcome State Fault Refusal :=
  runUop (fun c buf sc => .ok (rleScan c buf sc)) s

/-- RLE_EXPAND (R262). -/
def execRleExpand (s : State) : Host.Outcome State Fault Refusal := runUop rleExpand s

/-- RLE_ENC (R263). -/
def execRleEnc (s : State) : Host.Outcome State Fault Refusal :=
  runCommand (fun c buf sc => .ok (rleScan c buf sc)) s

/-- RLE_DEC (R264). -/
def execRleDec (s : State) : Host.Outcome State Fault Refusal := runCommand rleExpand s

end Sys2Proof.Machine
end

