-- ==== Sys2Proof/Machine/Dispatch.lean ====
section
/-! DEFINITION. One arm per operation: which meaning an operation has. -/

namespace Sys2Proof.Machine

def exec (i : Instr) (s : State) : Host.Outcome State Fault Refusal :=
  match i with
  | .hufEnc => Sys2Proof.Machine.execHufEnc s
  | .hufDec => Sys2Proof.Machine.execHufDec s
  | .rleEnc => Sys2Proof.Machine.execRleEnc s
  | .rleDec => Sys2Proof.Machine.execRleDec s
  | .pqBuild => Sys2Proof.Machine.execPqBuild s
  | .pqInsert n => Sys2Proof.Machine.execPqInsert n s
  | .pqExtractMin => Sys2Proof.Machine.execPqExtractMin s
  | .tbMerge => Sys2Proof.Machine.execTbMerge s
  | .tbBuild => Sys2Proof.Machine.execTbBuild s
  | .caAssign => Sys2Proof.Machine.execCaAssign s
  | .bpPack => Sys2Proof.Machine.execBpPack s
  | .bpUnpack => Sys2Proof.Machine.execBpUnpack s
  | .freqCount => Sys2Proof.Machine.execFreqCount s
  | .symEncode => Sys2Proof.Machine.execSymEncode s
  | .cbWrite => Sys2Proof.Machine.execCbWrite s
  | .cbParse => Sys2Proof.Machine.execCbParse s
  | .cbCheck => Sys2Proof.Machine.execCbCheck s
  | .codeWalk => Sys2Proof.Machine.execCodeWalk s
  | .rleScan => Sys2Proof.Machine.execRleScan s
  | .rleExpand => Sys2Proof.Machine.execRleExpand s

end Sys2Proof.Machine
end

