-- ==== Sys2Proof/Machine/Transactions.lean ====
section
/-! DEFINITION. The host transactions (spec/47_command_dispatch.md R280 to R289), the accesses by
register number (spec/10_state.md R29) and the reset event (spec/70_reset_and_hazards.md R330). -/

namespace Sys2Proof.Machine

/-- A transaction gives `r` back to the host (log entry 7). -/
def State.reply (r : Reply) (s : State) : State := { s with replies := s.replies ++ [r] }

/-- H_LOAD(x) (R281): BUF and LEN together, STATUS unchanged; refused beyond `CAP` bytes. -/
def hLoad (x : List Byte) (s : State) : Host.Outcome State Fault Refusal :=
  if x.length ≤ s.config.cap then .next (State.reply .done { s with buf := x })
  else .refused .loadTooLong

/-- H_READ (R282): the bytes of BUF and LEN, no side effect. -/
def hRead (s : State) : Host.Outcome State Fault Refusal := .next (s.reply (.buffer s.buf s.len))

/-- A read of the byte at address `a` (R282): refused for `a >= LEN`. -/
def hReadByte (a : Nat) (s : State) : Host.Outcome State Fault Refusal :=
  match s.buf[a]? with
  | some b => .next (s.reply (.byte b))
  | none => .refused .readBeyondLen

/-- H_STATUS (R283). -/
def hStatus (s : State) : Host.Outcome State Fault Refusal := .next (s.reply (.reg s.status.toNat))

/-- H_CFG (R283). -/
def hCfg (s : State) : Host.Outcome State Fault Refusal := .next (s.reply (.reg s.cfg.toNat))

/-- The dispatcher (R285): the operation the byte selects, or IllegalCommand (R289). -/
def dispatchCommand (c : Byte) (s : State) : Host.Outcome State Fault Refusal :=
  match decodeCommand c with
  | .ok i => exec i s
  | .error _ => .next s.raiseIllegalCommand

/-- H_ISSUE(c) (R284): one whole command, then the transaction returns. -/
def hIssue (c : Byte) (s : State) : Host.Outcome State Fault Refusal :=
  match dispatchCommand c s with
  | .next t => .next (t.reply .done)
  | .fault f => .fault f
  | .refused r => .refused r

/-- A read of register number `r` (R29): CMD is write-only (R23). -/
def hReadReg (r : BitVec 2) (s : State) : Host.Outcome State Fault Refusal :=
  match r.toNat with
  | 0 => .refused .readOfCmd
  | 1 => hStatus s
  | 2 => .next (s.reply (.reg s.len))
  | _ => hCfg s

/-- A write of `v` to register number `r` (R29): to CMD it issues the command `v` (R23); the other
registers are read-only, LEN but for H_LOAD. -/
def hWriteReg (r : BitVec 2) (v : Nat) (s : State) : Host.Outcome State Fault Refusal :=
  match r.toNat with
  | 0 => if v < 256 then hIssue (BitVec.ofNat 8 v) s else .refused .cmdValueTooWide
  | _ => .refused .writeOfReadOnly

/-- The reset event (R330, R50): BUF empty, STATUS 0, scratch unspecified (a free value).  The
parameters, the script and the replies are outside what it resets. -/
def hReset (s : State) : Host.Outcome State Fault Refusal :=
  .next (State.reply .done { s.release with buf := [], status := 0x00, sel := none })

/-- One transaction (R280). -/
def hostStep (op : HostOp) (s : State) : Host.Outcome State Fault Refusal :=
  match op with
  | .load x => hLoad x s
  | .read => hRead s
  | .readByte a => hReadByte a s
  | .readStatus => hStatus s
  | .readCfg => hCfg s
  | .issue c => hIssue c s
  | .readReg r => hReadReg r s
  | .writeReg r v => hWriteReg r v s
  | .reset => hReset s

/-- Run the unit operation the micro-operation select names (R96; log entry 5), the select cleared. -/
def runSelect (id : BitVec 4) (n : BitVec 9) (s : State) : Host.Outcome State Fault Refusal :=
  match decodeUop id n with
  | .ok i => exec i { s with sel := none }
  | .error _ => .refused .noSuchNode

end Sys2Proof.Machine
end

