-- ==== Sys2Proof/Machine/Step.lean ====
section
/-! DEFINITION. One step of the machine (log entry 7): a unit operation that the micro-operation select
names, else the host's next transaction, else nothing: "Between commands the engine is idle"
(spec/60_exceptions.md R313). -/

namespace Sys2Proof.Machine

/-- One step.  A whole command is one step (92_eei_decisions.md D14). -/
def step (s : State) : Host.Outcome State Fault Refusal :=
  match s.sel with
  | some (id, n) => runSelect id n s
  | none =>
    match s.script with
    | [] => .next s
    | op :: rest => hostStep op { s with script := rest }

/-- `s` with the operation of a table row where the next step takes it: a unit operation in the
micro-operation select, a command as the host's next transaction H_ISSUE (log entry 6). -/
def State.withFetchWord (s : State) (nbits w : Nat) : State :=
  match tableWord nbits w with
  | .uop id n => { s with sel := some (id, n) }
  | .cmd c => { s with sel := none, script := .issue c :: s.script }

end Sys2Proof.Machine
end

