-- ==== Sys2Proof/Safety.lean ====
section
/-! DEFINITION. The terms the claims use: the canonical form of BUF, the widths of the registers, the
machine's invariant, the priority queue and its heap, prefix codes, containers and RLE streams as the spec's
layouts describe them. -/

namespace Sys2Proof.Machine

/-! ### BUF as memory (spec/20_memory.md R60, R70; log entry 9) -/

/-- BUF as (address, byte) pairs: its addresses are 0 to `LEN - 1`, and no other address exists. -/
def Memory.cells (m : List Byte) : List Host.Cell := m.zipIdx.map fun x => (x.2, x.1)

/-- The addresses of a list of cells are `a`, `a + 1`, ... without a gap. -/
def Memory.risingFrom : Nat → List Host.Cell → Bool
  | _, [] => true
  | a, x :: xs => x.1 == a && Memory.risingFrom (a + 1) xs

/-- The canonical form of memory: addresses from 0 without a gap, at most `CAP` of them (R21). -/
def Memory.wf (cap : Nat) (m : List Byte) : Bool :=
  Memory.risingFrom 0 (Memory.cells m) && decide (m.length ≤ cap)

/-! ### The invariant -/

/-- Every register of scratch holds a value of its width (R27, R31 to R46). -/
structure Scratch.Fits (c : Config) (sc : Scratch) : Prop where
  freq : ∀ s, symGet sc.freq s < c.limit
  weight : ∀ i, (nodeGet sc.node i).weight < c.limit
  nn : sc.nn ≤ 511
  hn : sc.hn ≤ 256
  code : ∀ s, (symGet sc.code s).len ≤ 255
  tbl : sc.tbl < c.limit
  ipos : sc.ipos < c.limit
  bpos : sc.bpos < c.limit
  runCnt : sc.runCnt < c.limit
  path : sc.path.length ≤ 255

/-- STATUS is as reset leaves it, or as the end of a command writes it (R24, R301). -/
def LegalStatus (v : BitVec 8) : Prop := v = 0x00 ∨ v = statusOk ∨ ∃ e : Err, v = e.status

/-- What every reachable state meets. -/
structure State.Inv (s : State) : Prop where
  config : s.config.Legal
  buf : s.len ≤ s.config.cap
  status : LegalStatus s.status
  scratch : s.scratch.Fits s.config

/-! ### The priority queue (spec/40_priority_queue.md R131, R132, R138) -/

/-- `HEAP[0 .. HN)`: the node indices in the queue. -/
def Scratch.queue (sc : Scratch) : List NodeIdx := sc.heap.toList.take sc.hn

/-- The heap invariant (R132). -/
structure Scratch.HeapInv (sc : Scratch) : Prop where
  room : sc.hn ≤ 256
  ordered : ∀ i, 1 ≤ i → i < sc.hn →
    less sc.node (heapGet sc.heap ((i - 1) / 2)) (heapGet sc.heap i) = true
  distinct : sc.queue.Nodup

/-! ### The tree (spec/10_state.md R40; spec/41_tree_builder.md R154; spec/42_code_assigner.md R171, R172) -/

/-- A Huffman tree: a leaf with its symbol and weight, or two subtrees. -/
inductive HTree where
  | leaf (s : Byte) (w : Nat)
  | node (l r : HTree)
  deriving DecidableEq, Repr

/-- The leaves of a tree from left to right, as (symbol, weight) pairs. -/
def HTree.leaves : HTree → List (Byte × Nat)
  | .leaf s w => [(s, w)]
  | .node l r => l.leaves ++ r.leaves

/-- The sum of the leaves' weights (R15 "Weight"). -/
def HTree.weight : HTree → Nat
  | .leaf _ w => w
  | .node l r => l.weight + r.weight

/-- The length of the longest path from the root. -/
def HTree.depth : HTree → Nat
  | .leaf _ _ => 0
  | .node l r => max l.depth r.depth + 1

/-- Entry `i` of a node table of which the first `nn` entries are written stands for a tree. -/
inductive Rep (node : Vector Node 511) (nn : Nat) : NodeIdx → HTree → Prop
  | leaf (i : NodeIdx) (hi : i.val < nn) (hl : (nodeGet node i).leaf = true) :
      Rep node nn i (.leaf (nodeGet node i).sym (nodeGet node i).weight)
  | node (i : NodeIdx) (l r : HTree) (hi : i.val < nn) (hl : (nodeGet node i).leaf = false)
      (hw : (nodeGet node i).weight = l.weight + r.weight)
      (left : Rep node nn (nodeGet node i).left l) (right : Rep node nn (nodeGet node i).right r) :
      Rep node nn i (.node l r)

/-- The queued nodes stand for trees whose leaves are `L`, and NODE has room for the merges to come
(R40: leaves 0 to N-1, internal nodes N, N+1, ...). -/
structure Forest (sc : Scratch) (L : List (Byte × Nat)) : Prop where
  trees : ∃ ts, List.Forall₂ (Rep sc.node sc.nn) sc.queue ts ∧ (ts.flatMap HTree.leaves).Perm L
  count : sc.nn + sc.hn = 2 * L.length
  room : L.length ≤ 256
  some : 1 ≤ sc.hn

/-- The paths of a tree's leaves below `path`, left before right, as (symbol, path) pairs. -/
def HTree.paths : HTree → Bits → List (Byte × Bits)
  | .leaf s _, path => [(s, path)]
  | .node l r, path => l.paths (path ++ [false]) ++ r.paths (path ++ [true])

/-- The codes CA_ASSIGN gives a tree's symbols: the paths, or "0" for a lone leaf (R171, R172). -/
def HTree.codes : HTree → List (Byte × Bits)
  | .leaf s _ => [(s, [false])]
  | .node l r => (HTree.node l r).paths []

/-! ### Codes and containers (spec/30_encoding.md R97 to R102) -/

/-- No code of the list is a prefix of one at another position (R15 "Prefix code"; check K2 of R205). -/
def PrefixFree (codes : List Bits) : Prop :=
  ∀ i j, (hi : i < codes.length) → (hj : j < codes.length) → i ≠ j → isPrefix codes[i] codes[j] = false

/-- A codebook CB_CHECK passes: no empty code, and prefix-free (R205). -/
structure Decodable (book : List DecodeEntry) : Prop where
  nonempty : ∀ e ∈ book, e.code ≠ []
  prefixFree : PrefixFree (book.map (·.code))

/-- A codebook entry: symbol, codeLength, codeBits (R99). -/
def entryBytes (c : Config) (e : DecodeEntry) : List Byte :=
  e.sym :: (leBytes c.sz e.code.length ++ pack e.code)

/-- A container (R97): header, codebook, payload. -/
def container (c : Config) (book : List DecodeEntry) (payload : Bits) : List Byte :=
  leBytes c.sz book.length ++ leBytes c.sz payload.length ++ book.flatMap (entryBytes c) ++ pack payload

/-- The valid entries of CODE in ascending symbol order (R103). -/
def bookOf (code : Vector CodeEntry 256) : List DecodeEntry :=
  (symbols.filter fun s => (symGet code s).valid).map fun s => ⟨s, (symGet code s).bits⟩

/-- The distinct byte values of `x`, in ascending order (R31, R103). -/
def present (x : List Byte) : List Byte := symbols.filter fun s => decide (s ∈ x)

/-- A codebook that gives the symbols `ss` the codes `code`. -/
def bookFor (code : Byte → Bits) (ss : List Byte) : List DecodeEntry := ss.map fun s => ⟨s, code s⟩

/-- The codes of the input bytes: a prefix code without empty codes, none longer than 255 bits
(R173, R174), and "0" for the symbol of a one-symbol input (R172). -/
structure IsCode (x : List Byte) (code : Byte → Bits) : Prop where
  decodable : Decodable (bookFor code (present x))
  short : ∀ s ∈ x, (code s).length ≤ 255
  lone : ∀ s, present x = [s] → code s = [false]

/-- CB_PARSE's reading of `k` entries from address `p`: the entries, and the address after them (the checks P2
and P3 of R204). -/
inductive ParsesTo (c : Config) (buf : List Byte) : Nat → Nat → List DecodeEntry → Nat → Prop
  | done (p : Nat) : ParsesTo c buf 0 p [] p
  | entry (k p cl : Nat) (book : List DecodeEntry) (q : Nat)
      (header : p + 1 + c.sz ≤ buf.length) (length : memRead buf (p + 1) c.sz = cl)
      (bits : p + 1 + c.sz + ceil8 cl ≤ buf.length)
      (rest : ParsesTo c buf k (p + 1 + c.sz + ceil8 cl) book q) :
      ParsesTo c buf (k + 1) p
        (⟨BitVec.ofNat 8 (memRead buf p 1), unpack (memReadBytes buf (p + 1 + c.sz) (ceil8 cl)) cl⟩ :: book) q

/-! ### RLE streams (R104, R105) -/

/-- The stream of pairs (R104, R105). -/
def rleStream (c : Config) (ps : List (Nat × Byte)) : List Byte :=
  ps.flatMap fun p => leBytes c.sz p.1 ++ [p.2]

/-- Pair `i` of a buffer that is an RLE stream (R104: it starts at address `i * (SZ + 1)`). -/
def pairAt (c : Config) (buf : List Byte) (i : Nat) : Nat × Byte :=
  (memRead buf (i * (c.sz + 1)) c.sz, buf.getD (i * (c.sz + 1) + c.sz) 0)

/-- The pairs of a buffer of whole pairs (R104). -/
def pairsOf (c : Config) (buf : List Byte) : List (Nat × Byte) :=
  (List.range (buf.length / (c.sz + 1))).map (pairAt c buf)

/-- The bytes a sequence of pairs stands for (R262). -/
def expansion (ps : List (Nat × Byte)) : List Byte := ps.flatMap fun p => List.replicate p.1 p.2

/-- `ps` is the sequence of the maximal runs of `x`, as (count, byte) pairs (R15 "Run", R261): no count is
zero, adjacent pairs have different bytes, and together they spell `x`. -/
structure IsRuns (x : List Byte) (ps : List (Nat × Byte)) : Prop where
  positive : ∀ p ∈ ps, 1 ≤ p.1
  maximal : ps.IsChain fun p q => p.2 ≠ q.2
  spells : expansion ps = x

/-! ### Commands as sequences of unit operations (R231, R232, R263, R264) -/

/-- The unit operations a command runs one after the other on a buffer of `len` bytes, up to its commit. -/
def microprogram (len : Nat) : Instr → List Instr
  | .hufEnc =>
    if 1 ≤ len then [.freqCount, .pqBuild, .tbBuild, .caAssign, .symEncode, .cbWrite, .bpPack]
    else [.freqCount, .symEncode, .cbWrite, .bpPack]
  | .hufDec => [.cbParse, .cbCheck, .bpUnpack, .codeWalk]
  | .rleEnc => [.rleScan]
  | .rleDec => [.rleExpand]
  | i => [i]

/-- The operations `is` run one after the other from `s` to `u`, and none of them raises an error: a raise
would release scratch. -/
def Chain : List Instr → State → State → Prop
  | [], s, u => u = s
  | i :: is, s, u => ∃ t, exec i s = .next t ∧ t.draws = s.draws ∧ Chain is t u

/-- The end of a command that has the output `out` (R286): commit, or CapacityExceeded beyond `CAP` bytes. -/
def State.output (s : State) (out : List Byte) : State :=
  if out.length ≤ s.config.cap then { s.release with buf := out, status := statusOk }
  else s.raise .capacityExceeded

end Sys2Proof.Machine
end

