-- ==== Sys2Proof/Certificates/Slice0/Obligations.lean ====
section
/-! DEFINITION. The statements about ZIPPER-CORE: its encodings, its state, its host transactions, its unit
operations, its commands, and what holds of the whole machine.  Each docstring names the rules of spec/ it
formalises; "log entry" names the model's own conventions (NOTES.md). -/

section

open Sys2Proof Sys2Proof.Machine

/-! ### Encodings (spec/30_encoding.md) -/

/-- R92, R96: every command byte and every unit-operation id of the two tables, written out in bits, decodes to
the operation of its row.  The tables give PQ_INSERT no operand bits: that an operand stands beside the id, and is
read unchanged, is the model's choice (log entry 5). -/
def Obligations.TableWordsDecode : Prop :=
  decode (.cmd 0b00000000) = .ok .hufEnc ∧ decode (.cmd 0b00000001) = .ok .hufDec ∧
  decode (.cmd 0b00000010) = .ok .rleEnc ∧ decode (.cmd 0b00000011) = .ok .rleDec ∧
  decode (.uop 0b0000 0) = .ok .pqBuild ∧ decode (.uop 0b0001 0b000000101) = .ok (.pqInsert 5) ∧
  decode (.uop 0b0010 0) = .ok .pqExtractMin ∧ decode (.uop 0b0011 0) = .ok .tbMerge ∧
  decode (.uop 0b0100 0) = .ok .tbBuild ∧ decode (.uop 0b0101 0) = .ok .caAssign ∧
  decode (.uop 0b0110 0) = .ok .bpPack ∧ decode (.uop 0b0111 0) = .ok .bpUnpack ∧
  decode (.uop 0b1000 0) = .ok .freqCount ∧ decode (.uop 0b1001 0) = .ok .symEncode ∧
  decode (.uop 0b1010 0) = .ok .cbWrite ∧ decode (.uop 0b1011 0) = .ok .cbParse ∧
  decode (.uop 0b1100 0) = .ok .cbCheck ∧ decode (.uop 0b1101 0) = .ok .codeWalk ∧
  decode (.uop 0b1110 0) = .ok .rleScan ∧ decode (.uop 0b1111 0) = .ok .rleExpand

/-- R92, R96, R136: decoding the encoding of a well-formed operation gives it back, PQ_INSERT with each of its
511 operands (that these stand beside the id is the model's choice, log entry 5). -/
def Obligations.DecodeOfEncode : Prop :=
  ∀ i : Instr, i.wf = true → decode (encode i) = .ok i

/-- R91, R92, R96: no two command bytes and no two ids share an operation, and a command byte decodes to a command
only and an id to a unit operation only.  That an operand stands beside the id, that PQ_INSERT alone reads it, and
that it reads it unchanged, is the model's choice (log entry 5). -/
def Obligations.EncodeOfDecode : Prop :=
  (∀ (c : Byte) (i : Instr), decodeCommand c = .ok i → i.isCommand = true ∧ encode i = .cmd c) ∧
  ∀ (id : BitVec 4) (n : BitVec 9) (i : Instr), decodeUop id n = .ok i →
    i.wf = true ∧ i.isCommand = false ∧ (∃ m, encode i = .uop id m) ∧ ∀ m, i = .pqInsert m → m = n

/-- R100, R289: a command byte from 0x04 to 0xFF raises IllegalCommand: STATUS becomes 0x0C, BUF and LEN stay.
Script and replies are the model's (log entry 7). -/
def Obligations.ReservedCommandRaisesIllegalCommand : Prop :=
  ∀ (s : State) (c : Byte) (rest : List HostOp), s.sel = none → s.script = .issue c :: rest → 0x04 ≤ c.toNat →
    ∃ t, step s = .next t ∧ t.status = 0x0C ∧ t.buf = s.buf ∧ t.len = s.len ∧ t.config = s.config ∧
      t.sel = none ∧ t.script = rest ∧ t.replies = s.replies ++ [.done]

/-! ### Steps (log entries 5, 6, 7) -/

/-- R284, R285: with the transaction H_ISSUE(c) at the head of the script, a step is the command `c` decodes to,
run from the state without that transaction, and the transaction returns (script and replies: log entry 7). -/
def Obligations.StepRunsIssuedCommand : Prop :=
  ∀ (s : State) (c : Byte) (rest : List HostOp) (i : Instr),
    s.sel = none → s.script = .issue c :: rest → decodeCommand c = .ok i →
    step s = match exec i { s with script := rest } with
      | .next t => .next (t.reply .done)
      | .fault f => .fault f
      | .refused r => .refused r

/-- Log entry 5: with a unit operation in the micro-operation select (R96), a step is that operation, run from
the state with the select cleared. -/
def Obligations.StepRunsSelectedOperation : Prop :=
  ∀ (s : State) (id : BitVec 4) (n : BitVec 9) (i : Instr),
    s.sel = some (id, n) → decodeUop id n = .ok i → step s = exec i { s with sel := none }

/-- Log entry 6: after `withFetchWord` the next step runs the operation the table word decodes to, from `s` with
the select clear; a command's step also returns its transaction. -/
def Obligations.FetchWordRunsItsOperation : Prop :=
  ∀ (s : State) (nbits w : Nat) (i : Instr), decodeTableWord nbits w = some i →
    (i.isCommand = false → step (s.withFetchWord nbits w) = exec i { s with sel := none }) ∧
    (i.isCommand = true → ∀ t, exec i { s with sel := none } = .next t →
      step (s.withFetchWord nbits w) = .next (t.reply .done))

/-- R313: with no transaction to come and no operation selected the machine is idle, and a step changes nothing.
That it takes such steps is the model's choice (log entry 7). -/
def Obligations.IdleStepChangesNothing : Prop :=
  ∀ s : State, s.sel = none → s.script = [] → step s = .next s

/-! ### Host transactions (spec/47_command_dispatch.md R280 to R283; spec/10_state.md R29)

That the transactions stand in a script, that what they give back stands in replies, and that a refused one is
the outcome `refused`, is the model's choice (log entry 7). -/

/-- R281: H_LOAD of at most `CAP` bytes replaces BUF and LEN together and leaves STATUS and everything else; a
longer load is refused (log entry 7: script, replies, refusal). -/
def Obligations.LoadReplacesBuffer : Prop :=
  ∀ (s : State) (x : List Byte) (rest : List HostOp), s.sel = none → s.script = .load x :: rest →
    (x.length ≤ s.config.cap →
      step s = .next { s with script := rest, buf := x, replies := s.replies ++ [.done] } ∧
      State.len { s with script := rest, buf := x, replies := s.replies ++ [.done] } = x.length) ∧
    (s.config.cap < x.length → step s = .refused .loadTooLong)

/-- R282, R283: H_READ returns BUF and LEN, H_STATUS returns STATUS, H_CFG returns CFG, and none of them changes
anything else (log entry 7: script, replies). -/
def Obligations.HostReadsHaveNoSideEffect : Prop :=
  ∀ (s : State) (rest : List HostOp), s.sel = none →
    (s.script = .read :: rest →
      step s = .next { s with script := rest, replies := s.replies ++ [.buffer s.buf s.len] }) ∧
    (s.script = .readStatus :: rest →
      step s = .next { s with script := rest, replies := s.replies ++ [.reg s.status.toNat] }) ∧
    (s.script = .readCfg :: rest →
      step s = .next { s with script := rest, replies := s.replies ++ [.reg s.cfg.toNat] })

/-- R282, R70: a read of one byte gives the byte at an address below LEN, and is refused from LEN on (log entry
7: script, replies, refusal). -/
def Obligations.ByteReadIsBoundedByLen : Prop :=
  ∀ (s : State) (a : Nat) (rest : List HostOp), s.sel = none → s.script = .readByte a :: rest →
    (∀ h : a < s.buf.length,
      step s = .next { s with script := rest, replies := s.replies ++ [.byte s.buf[a]] }) ∧
    (s.buf.length ≤ a → step s = .refused .readBeyondLen)

/-- R29, R23: register numbers 1, 2 and 3 read STATUS, LEN and CFG; number 0, CMD, cannot be read; a write of a
byte to number 0 issues that command, and no other number can be written (log entry 7: script, replies, refusal;
the refusal of a value that is no byte is the model's). -/
def Obligations.RegisterNumbersSelectRegisters : Prop :=
  ∀ (s : State) (rest : List HostOp), s.sel = none →
    (s.script = .readReg 0 :: rest → step s = .refused .readOfCmd) ∧
    (s.script = .readReg 1 :: rest →
      step s = .next { s with script := rest, replies := s.replies ++ [.reg s.status.toNat] }) ∧
    (s.script = .readReg 2 :: rest →
      step s = .next { s with script := rest, replies := s.replies ++ [.reg s.len] }) ∧
    (s.script = .readReg 3 :: rest →
      step s = .next { s with script := rest, replies := s.replies ++ [.reg s.cfg.toNat] }) ∧
    (∀ c : Byte, s.script = .writeReg 0 c.toNat :: rest →
      step s = step { s with script := .issue c :: rest }) ∧
    (∀ v, s.script = .writeReg 0 v :: rest → 256 ≤ v → step s = .refused .cmdValueTooWide) ∧
    ∀ (r : BitVec 2) (v : Nat), r ≠ 0 → s.script = .writeReg r v :: rest → step s = .refused .writeOfReadOnly

/-- R25: CFG holds `SZ` in bits 3:0 and 0 in bits 7:4: it reads 0x08 for `SZ` = 8 and 0x04 for `SZ` = 4. -/
def Obligations.CfgHoldsSizeWidth : Prop :=
  ∀ s : State, s.cfg = (match s.config.size with
    | .eight => 0x08
    | .four => 0x04)

/-! ### Reset (spec/70_reset_and_hazards.md R330; spec/10_state.md R50) -/

/-- R50: the state after reset: BUF empty, LEN 0, STATUS 0 (ERR and DONE 0), CFG 0x08; nothing is selected (log
entry 5). -/
def Obligations.ResetState : Prop :=
  State.reset.buf = [] ∧ State.reset.len = 0 ∧ State.reset.status = 0x00 ∧ State.reset.err = 0 ∧
  State.reset.done = false ∧ State.reset.cfg = 0x08 ∧ State.reset.sel = none

/-- R330: the reset event leaves BUF empty, LEN 0 and STATUS 0x00 from every state, with CFG at its constant
(log entry 7: script, replies; log entry 5: the select). -/
def Obligations.ResetEventClears : Prop :=
  ∀ (s : State) (rest : List HostOp), s.sel = none → s.script = .reset :: rest →
    ∃ t, step s = .next t ∧ t.buf = [] ∧ t.len = 0 ∧ t.status = 0x00 ∧ t.config = s.config ∧ t.cfg = s.cfg ∧
      t.sel = none ∧ t.script = rest ∧ t.replies = s.replies ++ [.done]

/-- The machine's invariant holds after reset, with the scratch values log entry 2 names. -/
def Obligations.ResetMeetsInvariant : Prop := State.reset.Inv

/-! ### The whole machine -/

/-- R22, R24, R75: every step keeps the invariant: the parameters legal, BUF at most `CAP` bytes, STATUS a value
R301 lists (or 0), every scratch register within the range the rules give it.  That NN (at most 511) and HN (at most
256), of which R30 leaves nothing specified, keep to their ranges after a command, a raise and a reset event is the
model's choice (log entry 3). -/
def Obligations.StepKeepsInvariant : Prop :=
  ∀ s t : State, s.Inv → step s = .next t → t.Inv

/-- R21, R60 (log entry 9): from a state that meets the invariant every step leaves BUF in memory's canonical form. -/
def Obligations.StepKeepsMemoryCanonical : Prop :=
  ∀ s t : State, s.Inv → step s = .next t → Memory.wf t.config.cap t.buf = true

/-- R331, R286: what changes BUF: H_LOAD, reset, and a command that ends with STATUS 0x08; nothing else (log entry
7: script). -/
def Obligations.BufferWriters : Prop :=
  ∀ s t : State, step s = .next t → t.buf ≠ s.buf → s.sel = none ∧ ∃ rest, t.script = rest ∧
    ((∃ x, s.script = .load x :: rest ∧ t.buf = x ∧ t.status = s.status) ∨
     (s.script = .reset :: rest ∧ t.buf = []) ∨
     (∃ c : Byte, (s.script = .issue c :: rest ∨ s.script = .writeReg 0 c.toNat :: rest) ∧ c.toNat < 4 ∧
       t.status = 0x08))

/-- R24, R331: what changes STATUS: reset, the end of a command, and the raise of a unit operation run on its
own (log entry 5); every transaction but H_ISSUE and reset leaves it. -/
def Obligations.StatusWriters : Prop :=
  ∀ s t : State, step s = .next t → t.status ≠ s.status →
    (∃ rest, s.sel = none ∧ s.script = .reset :: rest ∧ t.status = 0x00) ∨
    ((∃ (c : Byte) (rest : List HostOp), s.sel = none ∧
        (s.script = .issue c :: rest ∨ s.script = .writeReg 0 c.toNat :: rest)) ∧ t.done = true) ∨
    (s.sel ≠ none ∧ ∃ e : Err, t.status = e.status)

/-- R8, R25: no step changes `SZ` or `CAP`, so CFG is constant. -/
def Obligations.ParametersAreConstant : Prop :=
  ∀ s t : State, step s = .next t → t.config = s.config ∧ t.cfg = s.cfg

/-- R24: in a state that meets the invariant STATUS bits 7:4 read 0, ERR is 0 to 5, and DONE is 1 where ERR is
not 0. -/
def Obligations.StatusFieldsAreLegal : Prop :=
  ∀ s : State, s.Inv → s.statusReserved = 0 ∧ s.err.toNat ≤ 5 ∧ (s.err ≠ 0 → s.done = true)

/-- R301: STATUS after each error, and after success. -/
def Obligations.ErrorStatusValues : Prop :=
  statusOk = 0x08 ∧ Err.malformedContainer.status = 0x09 ∧ Err.inconsistentCodebook.status = 0x0A ∧
  Err.emptyQueue.status = 0x0B ∧ Err.illegalCommand.status = 0x0C ∧ Err.capacityExceeded.status = 0x0D

/-- R306, R307, R290: a command that does not end with STATUS 0x08 ends with `0x08 | code` of an error, and
changes nothing else a host can read: BUF, LEN and the parameters stay, and so do the select (log entry 5), the
script and the replies (log entry 7). -/
def Obligations.FailedCommandChangesOnlyStatus : Prop :=
  ∀ (i : Instr) (s t : State), i.isCommand = true → exec i s = .next t → t.status ≠ 0x08 →
    (∃ e : Err, t.status = 0x08#8 ||| e.errCode) ∧ t.buf = s.buf ∧ t.len = s.len ∧ t.config = s.config ∧
    t.sel = s.sel ∧ t.script = s.script ∧ t.replies = s.replies

/-- R60, R66: a unit operation run on its own (log entry 5) leaves BUF and the parameters as they were, the select,
the script and the replies (log entries 5, 7) too, and STATUS and the counter of free values (log entry 3) unless
it raises an error. -/
def Obligations.UnitOperationFrame : Prop :=
  ∀ (i : Instr) (s t : State), i.isCommand = false → exec i s = .next t →
    t.buf = s.buf ∧ t.config = s.config ∧ t.sel = s.sel ∧ t.script = s.script ∧ t.replies = s.replies ∧
    ((t.status = s.status ∧ t.draws = s.draws) ∨ ∃ e : Err, t = s.raise e)

/-! ### Commands (spec/45_huffman_codec.md, spec/46_rle_codec.md, spec/47_command_dispatch.md) -/

/-- R239, R237, R156, R301: from every state that meets the invariant every command ends: with STATUS 0x08 and at
most `CAP` bytes, or with BUF unchanged and an error R301 lists for it; never with EmptyQueue, never in a stop.
The select (log entry 5), the script and the replies (log entry 7) are the model's fields, and they stay. -/
def Obligations.EveryCommandEnds : Prop :=
  ∀ (i : Instr) (s : State), i.isCommand = true → s.Inv → ∃ t, exec i s = .next t ∧
    t.config = s.config ∧ t.sel = s.sel ∧ t.script = s.script ∧ t.replies = s.replies ∧ t.done = true ∧
    ((t.status = 0x08 ∧ t.len ≤ s.config.cap) ∨
     (t.buf = s.buf ∧ (t.status = 0x0D ∨ (t.status = 0x09 ∧ (i = .hufDec ∨ i = .rleDec)) ∨
       (t.status = 0x0A ∧ i = .hufDec))))

/-- R30, R236, R290: a command's result is a function of (BUF, LEN) and the parameters: nothing scratch, STATUS,
an earlier command or a free value holds changes it. -/
def Obligations.CommandsIgnoreEverythingButBuffer : Prop :=
  ∀ (i : Instr) (s s' t t' : State), i.isCommand = true → s.Inv → s'.Inv →
    s'.buf = s.buf → s'.config = s.config → exec i s = .next t → exec i s' = .next t' →
    t'.buf = t.buf ∧ t'.status = t.status

/-- R231, R232, R263, R264, R285, R288: a command initialises scratch, runs the unit operations of its
microprogram one after the other, and commits; the first of them that raises an error ends it with that error.
The operations run on their own states as log entry 5 has it, and that one raised an error is told by the counter
`draws` of free values, the model's field (log entry 3). -/
def Obligations.CommandsRunTheirMicroprograms : Prop :=
  ∀ (i : Instr) (s : State), i.isCommand = true →
    (∀ u, Chain (microprogram s.len i) { s with scratch := s.scratch.init } u →
      exec i s = .next (s.commit u.scratch)) ∧
    ∀ (before after : List Instr) (j : Instr) (u v : State), microprogram s.len i = before ++ j :: after →
      Chain before { s with scratch := s.scratch.init } u → exec j u = .next v → v.draws ≠ u.draws →
      exec i s = .next { s.release with status := v.status }

/-- R263, R261, R286: RLE_ENC replaces BUF by the stream of its maximal runs, or ends with CapacityExceeded where
that is longer than `CAP`; there is one sequence of maximal runs. -/
def Obligations.RleEncWritesRuns : Prop :=
  ∀ s : State, (∃ ps, IsRuns s.buf ps) ∧
    ∀ ps, IsRuns s.buf ps → exec .rleEnc s = .next (s.output (rleStream s.config ps))

/-- R264, R262: RLE_DEC raises MalformedContainer where LEN is no multiple of `SZ + 1`, CapacityExceeded where the
counts add up to more than `CAP`, and else replaces BUF by the expansion of its pairs, zero counts and equal
neighbours included (R267, R268). -/
def Obligations.RleDecExpandsPairs : Prop :=
  ∀ s : State, exec .rleDec s =
    if s.len % (s.config.sz + 1) ≠ 0 then .next (s.raise .malformedContainer)
    else if ((pairsOf s.config s.buf).map (·.1)).sum ≤ s.config.cap then
      .next { s.release with buf := expansion (pairsOf s.config s.buf), status := 0x08 }
    else .next (s.raise .capacityExceeded)

/-- R266: RLE_ENC and then RLE_DEC give BUF back, for every input for which RLE_ENC does not raise
CapacityExceeded. -/
def Obligations.RleRoundTrip : Prop :=
  ∀ s t : State, s.Inv → exec .rleEnc s = .next t → t.status = 0x08 →
    ∃ u, exec .rleDec t = .next u ∧ u.buf = s.buf ∧ u.len = s.len ∧ u.status = 0x08

/-- R231, R97, R103, R173: HUF_ENC replaces BUF by a container: one entry per byte value present, ascending; a
prefix code without empty codes, none longer than 255 bits; and as payload the codes of the input bytes in input
order.  It ends with CapacityExceeded where the payload has `2^W` bits or more or the container is longer than
`CAP` (R237). -/
def Obligations.HufEncWritesContainer : Prop :=
  ∀ s : State, s.Inv → ∃ code, IsCode s.buf code ∧ exec .hufEnc s =
    if (s.buf.flatMap code).length < s.config.limit then
      .next (s.output (container s.config (bookFor code (present s.buf)) (s.buf.flatMap code)))
    else .next (s.raise .capacityExceeded)

/-- R234, R172: of an input with one distinct byte value, HUF_ENC writes the one-entry container with the code
"0" and LEN zero bits. -/
def Obligations.HufEncOfOneSymbol : Prop :=
  ∀ (s : State) (b : Byte) (n : Nat), s.Inv → 1 ≤ n → s.buf = List.replicate n b →
    exec .hufEnc s = .next (s.output (container s.config [⟨b, [false]⟩] (List.replicate n false)))

/-- R232, R97, R108, R209: of a container with a codebook CB_CHECK passes and a payload that spells entries of
it, HUF_DEC writes their symbols; bytes after the container do not matter, nor the order of the entries. -/
def Obligations.HufDecReadsContainer : Prop :=
  ∀ (s : State) (book es : List DecodeEntry) (rest : List Byte), Decodable book → (∀ e ∈ es, e ∈ book) →
    book.length < s.config.limit → (∀ e ∈ book, e.code.length < s.config.limit) →
    (es.flatMap (·.code)).length < s.config.limit →
    s.buf = container s.config book (es.flatMap (·.code)) ++ rest →
    exec .hufDec s = .next (s.output (es.map (·.sym)))

/-- R302, R303, R238: HUF_DEC ends with MalformedContainer on a buffer shorter than the header, with
InconsistentCodebook on a container whose codebook CB_CHECK refuses, and with MalformedContainer on one whose
payload ends with bits that no code begins; BUF stays. -/
def Obligations.HufDecRejects : Prop :=
  (∀ s : State, s.len < 2 * s.config.sz → exec .hufDec s = .next (s.raise .malformedContainer)) ∧
  (∀ (s : State) (book : List DecodeEntry) (payload : Bits) (rest : List Byte), ¬ Decodable book →
    book.length < s.config.limit → (∀ e ∈ book, e.code.length < s.config.limit) →
    payload.length < s.config.limit → s.buf = container s.config book payload ++ rest →
    exec .hufDec s = .next (s.raise .inconsistentCodebook)) ∧
  ∀ (s : State) (book es : List DecodeEntry) (rem : Bits) (rest : List Byte), Decodable book →
    (∀ e ∈ es, e ∈ book) → rem ≠ [] → (∀ e ∈ book, isPrefix e.code rem = false) →
    book.length < s.config.limit → (∀ e ∈ book, e.code.length < s.config.limit) →
    (es.flatMap (·.code) ++ rem).length < s.config.limit →
    s.buf = container s.config book (es.flatMap (·.code) ++ rem) ++ rest →
    exec .hufDec s = .next (s.raise .malformedContainer)

/-- R235: HUF_ENC and then HUF_DEC give BUF back, for every input for which HUF_ENC does not raise
CapacityExceeded. -/
def Obligations.HufRoundTrip : Prop :=
  ∀ s t : State, s.Inv → exec .hufEnc s = .next t → t.status = 0x08 →
    ∃ u, exec .hufDec t = .next u ∧ u.buf = s.buf ∧ u.len = s.len ∧ u.status = 0x08

/-- R233, R265: on the empty buffer HUF_ENC writes `2 * SZ` zero bytes, of which HUF_DEC writes the empty buffer;
RLE_ENC and RLE_DEC write the empty buffer. -/
def Obligations.EmptyInput : Prop :=
  ∀ s : State, s.Inv →
    (s.buf = [] → exec .hufEnc s = .next (s.output (List.replicate (2 * s.config.sz) 0)) ∧
      exec .rleEnc s = .next { s.release with buf := [], status := 0x08 } ∧
      exec .rleDec s = .next { s.release with buf := [], status := 0x08 }) ∧
    (s.buf = List.replicate (2 * s.config.sz) 0 →
      exec .hufDec s = .next { s.release with buf := [], status := 0x08 })

/-! ### The priority queue (spec/40_priority_queue.md) -/

/-- R135, R132: PQ_BUILD writes one leaf per symbol with `FREQ >= 1`, in ascending order of symbol, queues exactly
these as a heap, and sets NN and HN to their number; no other register and no other entry changes. -/
def Obligations.PqBuildMakesLeafHeap : Prop :=
  ∀ (s : State) (ps : List Byte), ps = symbols.filter (fun b => decide (1 ≤ symGet s.scratch.freq b)) →
    ∃ node heap, exec .pqBuild s = .next { s with scratch := { s.scratch with
        node := node, nn := ps.length, heap := heap, hn := ps.length } } ∧
      (∀ i, (hi : i < ps.length) → nodeGet node (nodeIdx i) = ⟨true, ps[i], symGet s.scratch.freq ps[i], 0, 0⟩) ∧
      (heap.toList.take ps.length).Perm ((List.range ps.length).map nodeIdx) ∧
      Scratch.HeapInv { s.scratch with node := node, nn := ps.length, heap := heap, hn := ps.length } ∧
      (∀ j : NodeIdx, ps.length ≤ j.val → nodeGet node j = nodeGet s.scratch.node j) ∧
      ∀ j, ps.length ≤ j → heapGet heap j = heapGet s.scratch.heap j

/-- R136, R132: PQ_INSERT(n) adds `n` to the queue and keeps the heap invariant where `n` was not queued; nothing
but HEAP and HN changes, and of HEAP nothing beyond the new entry.  A full HEAP stops it (log entry 12), and so
does the operand 511, which names no node. -/
def Obligations.PqInsertQueuesNode : Prop :=
  ∀ (s : State) (n : BitVec 9),
    (s.scratch.hn < 256 → ∀ h : n.toNat < 511, ∃ heap,
      exec (.pqInsert n) s = .next { s with scratch := { s.scratch with heap := heap, hn := s.scratch.hn + 1 } } ∧
      (heap.toList.take (s.scratch.hn + 1)).Perm (⟨n.toNat, h⟩ :: s.scratch.queue) ∧
      (s.scratch.HeapInv → (⟨n.toNat, h⟩ : NodeIdx) ∉ s.scratch.queue →
        Scratch.HeapInv { s.scratch with heap := heap, hn := s.scratch.hn + 1 }) ∧
      ∀ j, s.scratch.hn + 1 ≤ j → heapGet heap j = heapGet s.scratch.heap j) ∧
    (256 ≤ s.scratch.hn → n.toNat < 511 → exec (.pqInsert n) s = .fault .heapFull) ∧
    (n.toNat = 511 → exec (.pqInsert n) s = .refused .noSuchNode)

/-- R137, R132: PQ_EXTRACT_MIN takes the node of least key off the queue, returns it, and keeps the heap
invariant; nothing but HEAP, HN and the returned index (log entry 4) changes.  With an empty queue it raises EmptyQueue. -/
def Obligations.PqExtractMinTakesLeast : Prop :=
  ∀ s : State,
    (s.scratch.hn = 0 → exec .pqExtractMin s = .next (s.raise .emptyQueue)) ∧
    (1 ≤ s.scratch.hn → s.scratch.hn ≤ 256 → ∃ r heap,
      exec .pqExtractMin s = .next { s with scratch := { s.scratch with
        ret := r, heap := heap, hn := s.scratch.hn - 1 } } ∧
      s.scratch.queue.Perm (r :: heap.toList.take (s.scratch.hn - 1)) ∧
      (s.scratch.HeapInv → (∀ j ∈ heap.toList.take (s.scratch.hn - 1), less s.scratch.node r j = true) ∧
        Scratch.HeapInv { s.scratch with ret := r, heap := heap, hn := s.scratch.hn - 1 }) ∧
      ∀ j, s.scratch.hn - 1 ≤ j → heapGet heap j = heapGet s.scratch.heap j)

/-! ### The tree builder (spec/41_tree_builder.md) -/

/-- R151: TB_MERGE takes the two nodes of least key `l` and `r` off the queue, in this order, writes the internal
node with the children `l`, `r` and the sum of their weights at index NN, queues it and advances NN; no other
entry and no other register changes but the index PQ_EXTRACT_MIN returned last (log entry 4).  With fewer than two nodes it
raises EmptyQueue; with NODE full it stops (log entry 12).  The weight is stated where the sum fits `W` bits (log
entry 10). -/
def Obligations.TbMergeJoinsTwoLeast : Prop :=
  ∀ s : State,
    (s.scratch.hn < 2 → exec .tbMerge s = .next (s.raise .emptyQueue)) ∧
    (2 ≤ s.scratch.hn → s.scratch.hn ≤ 256 → 511 ≤ s.scratch.nn → exec .tbMerge s = .fault .nodeTableFull) ∧
    (2 ≤ s.scratch.hn → s.scratch.hn ≤ 256 → s.scratch.nn < 511 → ∃ l r w heap Q sc',
      sc' = { s.scratch with
        node := nodeSet s.scratch.node (nodeIdx s.scratch.nn) ⟨false, 0, w, l, r⟩
        nn := s.scratch.nn + 1, heap := heap, hn := s.scratch.hn - 1, ret := r } ∧
      exec .tbMerge s = .next { s with scratch := sc' } ∧
      s.scratch.queue.Perm (l :: r :: Q) ∧ sc'.queue.Perm (nodeIdx s.scratch.nn :: Q) ∧
      ((nodeGet s.scratch.node l).weight + (nodeGet s.scratch.node r).weight < s.config.limit →
        w = (nodeGet s.scratch.node l).weight + (nodeGet s.scratch.node r).weight) ∧
      (s.scratch.HeapInv → (∀ j ∈ r :: Q, less s.scratch.node l j = true) ∧
        (∀ j ∈ Q, less s.scratch.node r j = true) ∧
        ((∀ j ∈ s.scratch.queue, j.val < s.scratch.nn) → sc'.HeapInv)) ∧
      ∀ j, s.scratch.hn - 1 ≤ j → heapGet heap j = heapGet s.scratch.heap j)

/-- R152, R153: TB_BUILD with one node queued sets ROOT to it, valid, and changes nothing else; with more it is
TB_MERGE and then TB_BUILD again.  With NODE full it stops as TB_MERGE does, which is the model's choice (log entry
12). -/
def Obligations.TbBuildIteratesMerge : Prop :=
  ∀ s : State,
    (s.scratch.hn = 1 → exec .tbBuild s = .next { s with scratch := { s.scratch with
      root := heapGet s.scratch.heap 0, rootValid := true } }) ∧
    (2 ≤ s.scratch.hn → s.scratch.hn ≤ 256 → s.scratch.nn < 511 →
      ∃ t, exec .tbMerge s = .next t ∧ t.scratch.hn + 1 = s.scratch.hn ∧ exec .tbBuild s = exec .tbBuild t) ∧
    (2 ≤ s.scratch.hn → s.scratch.hn ≤ 256 → 511 ≤ s.scratch.nn → exec .tbBuild s = .fault .nodeTableFull)

/-- R152, R153, R154: after PQ_BUILD on a FREQ with `N >= 1` symbols present and a total below `2^W`, TB_BUILD
leaves HN = 1, NN = 2N - 1 and a valid ROOT = 2N - 2; the nodes from ROOT down are a strictly binary tree with
one leaf per symbol present, the weight of each node the sum of the frequencies below it.  The index
PQ_EXTRACT_MIN returned last stands in the model's field `ret` (log entry 4). -/
def Obligations.TbBuildMakesOneTree : Prop :=
  ∀ (s : State) (ps : List Byte), ps = symbols.filter (fun b => decide (1 ≤ symGet s.scratch.freq b)) →
    ps ≠ [] → (ps.map (symGet s.scratch.freq ·)).sum < s.config.limit →
    ∃ t node nn heap r root tree, exec .pqBuild s = .next t ∧
      exec .tbBuild t = .next { s with scratch := { s.scratch with
        node := node, nn := nn, heap := heap, hn := 1, ret := r, root := root, rootValid := true } } ∧
      nn = 2 * ps.length - 1 ∧ root.val = 2 * ps.length - 2 ∧ Rep node nn root tree ∧
      tree.leaves.Perm (ps.map fun b => (b, symGet s.scratch.freq b)) ∧
      (nodeGet node root).weight = (ps.map (symGet s.scratch.freq ·)).sum

/-! ### The code assigner (spec/42_code_assigner.md) -/

/-- R171, R172: CA_ASSIGN completes from every state, and nothing but CODE and PATH (empty afterwards, for a leaf
ROOT too: log entry 8) changes.  It begins at ROOT, or, with ROOT invalid, at a node that is a free value (log entry
15).  Every entry of CODE is made invalid with its bits unchanged, or is valid with at most 255 bits.  Below a root of
depth at most 255 with no symbol at two leaves (the tree's nodes need not lie below the register NN: log entry 12)
each leaf's symbol has its path as code, "0" if the leaf is alone, and every other entry is invalid. -/
def Obligations.CaAssignWritesPaths : Prop :=
  ∀ s : State, ∃ root code, (s.scratch.rootValid = true → root = s.scratch.root) ∧
    exec .caAssign s = .next { s with scratch := { s.scratch with code := code, path := [] } } ∧
    (∀ b, symGet code b = ⟨false, (symGet s.scratch.code b).bits⟩ ∨
      ((symGet code b).valid = true ∧ (symGet code b).len ≤ 255)) ∧
    ∀ (nn : Nat) (tree : HTree), Rep s.scratch.node nn root tree → tree.depth ≤ 255 →
      (tree.leaves.map (·.1)).Nodup →
      (∀ e ∈ tree.codes, symGet code e.1 = ⟨true, e.2⟩) ∧
      ∀ b, b ∉ tree.leaves.map (·.1) → symGet code b = ⟨false, (symGet s.scratch.code b).bits⟩

/-- R139, R155: for one FREQ there is one code table: PQ_BUILD, TB_BUILD and CA_ASSIGN complete from every scratch
state that holds it and give each symbol present the same code. -/
def Obligations.CodesAreFunctionOfFrequencies : Prop :=
  ∀ (c : Config) (freq : Vector Nat 256),
    (∃ b, 1 ≤ symGet freq b) → (symbols.map (symGet freq ·)).sum < c.limit →
    ∃ code : Byte → Bits, ∀ s : State, s.config = c → s.scratch.freq = freq →
      ∃ t u v, exec .pqBuild s = .next t ∧ exec .tbBuild t = .next u ∧ exec .caAssign u = .next v ∧
        ∀ b, (symGet v.scratch.code b).valid = decide (1 ≤ symGet freq b) ∧
          (1 ≤ symGet freq b → (symGet v.scratch.code b).bits = code b)

/-! ### The bit packer (spec/43_bit_packer.md) -/

/-- R186: BP_PACK appends the packed form of `BITS[0 .. TBL)` to STAGE; nothing but STAGE, ACC, ACCN and BPOS (its
last value: log entry 8) changes. That of a longer BITS only these bits are packed, and that it stops where BITS
is shorter than TBL, is the model's choice (log entry 12). -/
def Obligations.BpPackAppendsPackedBits : Prop :=
  ∀ s : State,
    (s.scratch.tbl ≤ s.scratch.bits.length → ∃ acc accn, exec .bpPack s = .next { s with
      scratch := { s.scratch with
        stage := s.scratch.stage ++ pack (s.scratch.bits.take s.scratch.tbl)
        acc := acc, accn := accn, bpos := s.scratch.tbl } }) ∧
    (s.scratch.bits.length < s.scratch.tbl → exec .bpPack s = .fault .noSuchBit)

/-- R187, R62: BP_UNPACK sets BITS to the first TBL bits of the bytes from PPOS on, the most significant bit of a
byte first, and changes nothing else.  Where those bytes end beyond LEN it stops (log entry 12). -/
def Obligations.BpUnpackFillsBits : Prop :=
  ∀ s : State,
    (s.scratch.ppos + ceil8 s.scratch.tbl ≤ s.len → ∃ bits : Bits,
      exec .bpUnpack s = .next { s with scratch := { s.scratch with bits := bits } } ∧
      bits.length = s.scratch.tbl ∧
      ∀ i, (hi : i < bits.length) → bits[i] = (s.buf.getD (s.scratch.ppos + i / 8) 0).getLsbD (7 - i % 8)) ∧
    (s.len < s.scratch.ppos + ceil8 s.scratch.tbl → exec .bpUnpack s = .fault .readBeyondLen)

/-- R189, R188, R62: unpacking a packed bit string gives it back, whatever bytes follow it; its packed form has
`ceil8` of its length bytes, and bit `i` stands at position `7 - (i mod 8)` of byte `i div 8`, the padding zero. -/
def Obligations.UnpackInvertsPack : Prop :=
  ∀ (b : Bits) (rest : List Byte), unpack (pack b ++ rest) b.length = b ∧ (pack b).length = ceil8 b.length ∧
    ∀ i, i < 8 * ceil8 b.length → ((pack b).getD (i / 8) 0).getLsbD (7 - i % 8) = b.getD i false

/-- R61, R13: a size field holds its value's bytes, least significant first, and reading it gives the value. -/
def Obligations.SizeFieldsAreLittleEndian : Prop :=
  ∀ (c : Config) (v : Nat) (before after : List Byte), v < c.limit →
    (leBytes c.sz v).length = c.sz ∧
    (∀ k, k < c.sz → ((leBytes c.sz v).getD k 0).toNat = v / 256 ^ k % 256) ∧
    memRead (before ++ leBytes c.sz v ++ after) before.length c.sz = v

/-! ### The codebook serializer and the data path (spec/44_codebook_serializer.md) -/

/-- R201: FREQ_COUNT sets `FREQ[b]` to the number of occurrences of `b` in BUF; nothing but FREQ and IPOS
(its last value: log entry 8) changes. -/
def Obligations.FreqCountCountsBytes : Prop :=
  ∀ s : State, ∃ freq, exec .freqCount s = .next { s with scratch := { s.scratch with
      freq := freq, ipos := s.len } } ∧
    ∀ b, symGet freq b = s.buf.count b

/-- R202, R207: SYM_ENCODE sets BITS to the codes of the bytes of BUF in input order and TBL to its length, the sum
of the code lengths, and raises CapacityExceeded where that is `2^W` or more; nothing but BITS, TBL and IPOS
(its last value: log entry 8) changes.  The bits of a CODE entry are taken whether or not it is valid (log entry
12). -/
def Obligations.SymEncodeConcatenatesCodes : Prop :=
  ∀ (s : State) (bits : Bits), bits = s.buf.flatMap (fun b => (symGet s.scratch.code b).bits) →
    bits.length = (s.buf.map fun b => (symGet s.scratch.code b).len).sum ∧
    (bits.length < s.config.limit → exec .symEncode s = .next { s with scratch := { s.scratch with
      bits := bits, tbl := bits.length, ipos := s.len } }) ∧
    (s.config.limit ≤ bits.length → exec .symEncode s = .next (s.raise .capacityExceeded))

/-- R203, R97, R99: CB_WRITE appends the header and one entry per valid code, in ascending order of symbol;
nothing but STAGE changes. -/
def Obligations.CbWriteAppendsCodebook : Prop :=
  ∀ (s : State) (book : List DecodeEntry), book = bookOf s.scratch.code →
    exec .cbWrite s = .next { s with scratch := { s.scratch with
      stage := s.scratch.stage ++ (leBytes s.config.sz book.length ++ leBytes s.config.sz s.scratch.tbl ++
        book.flatMap fun e => e.sym :: (leBytes s.config.sz e.code.length ++ pack e.code)) } }

/-- R204: CB_PARSE reads DU, TBL and the entries and sets DTAB and PPOS, and raises MalformedContainer where one of
the checks P1 to P4 fails; nothing but TBL, DTAB, PPOS and IPOS
changes.  That IPOS is left at the address after the last entry is the model's reading (log entry 8). -/
def Obligations.CbParseReadsCodebook : Prop :=
  ∀ (s : State) (du tbl : Nat), du = memRead s.buf 0 s.config.sz → tbl = memRead s.buf s.config.sz s.config.sz →
    (s.len < 2 * s.config.sz → exec .cbParse s = .next (s.raise .malformedContainer)) ∧
    (2 * s.config.sz ≤ s.len → (∀ book p, ¬ ParsesTo s.config s.buf du (2 * s.config.sz) book p) →
      exec .cbParse s = .next (s.raise .malformedContainer)) ∧
    (2 * s.config.sz ≤ s.len → ∀ book p, ParsesTo s.config s.buf du (2 * s.config.sz) book p →
      (s.len < p + ceil8 tbl → exec .cbParse s = .next (s.raise .malformedContainer)) ∧
      (p + ceil8 tbl ≤ s.len → exec .cbParse s = .next { s with scratch := { s.scratch with
        tbl := tbl, dtab := book, ppos := p, ipos := p } }))

/-- R205, R303: CB_CHECK raises InconsistentCodebook where DTAB has an empty code or a code that is a prefix of
another's, and changes nothing else where it has neither; symbols play no part (R208). -/
def Obligations.CbCheckRefusesAmbiguity : Prop :=
  ∀ s : State,
    (((∀ e ∈ s.scratch.dtab, e.code ≠ []) ∧ PrefixFree (s.scratch.dtab.map (·.code))) →
      exec .cbCheck s = .next s) ∧
    (¬ ((∀ e ∈ s.scratch.dtab, e.code ≠ []) ∧ PrefixFree (s.scratch.dtab.map (·.code))) →
      exec .cbCheck s = .next (s.raise .inconsistentCodebook))

/-- R206: CODE_WALK, on a DTAB CB_CHECK passes and bits that spell entries of it and then bits no code begins,
appends the entries' symbols where nothing is left over, and raises MalformedContainer where something is;
nothing but STAGE, CAND and BPOS (its last value: log entry 8) changes.  Every bit string splits
so.  Where BITS is shorter than TBL it stops (log entry 12). -/
def Obligations.CodeWalkDecodesBits : Prop :=
  ∀ s : State,
    (s.scratch.bits.length < s.scratch.tbl → exec .codeWalk s = .fault .noSuchBit) ∧
    (s.scratch.tbl ≤ s.scratch.bits.length → Decodable s.scratch.dtab →
      ∃ (es : List DecodeEntry) (rem : Bits),
      (∀ e ∈ es, e ∈ s.scratch.dtab) ∧ (∀ e ∈ s.scratch.dtab, isPrefix e.code rem = false) ∧
      s.scratch.bits.take s.scratch.tbl = es.flatMap (·.code) ++ rem ∧
      exec .codeWalk s =
        if rem = [] then .next { s with scratch := { s.scratch with
          stage := s.scratch.stage ++ es.map (·.sym), cand := [], bpos := s.scratch.tbl } }
        else .next (s.raise .malformedContainer))

/-! ### The run-length codec (spec/46_rle_codec.md) -/

/-- R261: RLE_SCAN appends one pair per maximal run of BUF to STAGE; nothing but STAGE, RUN_BYTE, RUN_CNT and IPOS
(its last value: log entry 8) changes, and on an empty buffer nothing at all. -/
def Obligations.RleScanAppendsRuns : Prop :=
  ∀ s : State,
    (s.buf = [] → exec .rleScan s = .next s) ∧
    (s.buf ≠ [] → ∀ ps, IsRuns s.buf ps → ∃ b n, exec .rleScan s = .next { s with scratch := { s.scratch with
      stage := s.scratch.stage ++ rleStream s.config ps, runByte := b, runCnt := n, ipos := s.len } } ∧
      ps.getLast? = some (n, b))

/-- R262: RLE_EXPAND raises MalformedContainer where LEN is no multiple of `SZ + 1` (X1), CapacityExceeded where
the counts add up to more than `CAP` (X2), and else appends each pair's byte as often as its count says; nothing
but STAGE, `total` (a register that keeps its last value: log entry 14) and IPOS (its last value: log entry 8)
changes. -/
def Obligations.RleExpandAppendsCopies : Prop :=
  ∀ s : State,
    (s.len % (s.config.sz + 1) ≠ 0 → exec .rleExpand s = .next (s.raise .malformedContainer)) ∧
    (s.len % (s.config.sz + 1) = 0 → s.config.cap < ((pairsOf s.config s.buf).map (·.1)).sum →
      exec .rleExpand s = .next (s.raise .capacityExceeded)) ∧
    (s.len % (s.config.sz + 1) = 0 → ((pairsOf s.config s.buf).map (·.1)).sum ≤ s.config.cap →
      exec .rleExpand s = .next { s with scratch := { s.scratch with
        stage := s.scratch.stage ++ expansion (pairsOf s.config s.buf)
        total := ((pairsOf s.config s.buf).map (·.1)).sum, ipos := s.len } })

end
end

