-- ==== Sys2Proof/Laws/Config.lean ====
section
/-! SUPPORT. Facts about the parameters `SZ` and `CAP`. -/

namespace Sys2Proof

theorem Config.limit_pos (c : Config) : 0 < c.limit := Nat.two_pow_pos _

theorem Config.sz_cases (c : Config) : c.sz = 4 ∨ c.sz = 8 := by
  rcases c with ⟨_ | _, cap⟩ <;> simp [Config.sz, SizeWidth.bytes]

theorem Config.limit_eq (c : Config) : c.limit = 256 ^ c.sz := by
  unfold Config.limit
  rw [show (256 : Nat) = 2 ^ 8 by norm_num, ← pow_mul]

theorem Config.limit_big (c : Config) : 2 ^ 32 ≤ c.limit := by
  unfold Config.limit
  exact Nat.pow_le_pow_right (by norm_num) (by rcases c.sz_cases with h | h <;> omega)

end Sys2Proof
end

