-- ==== Sys2Proof/Laws/State.lean ====
section
/-! SUPPORT. Small lemmas of the state records: one per field and update, and what the shared operations of
Machine/Ops.lean can answer. -/

namespace Sys2Proof.Machine

/-! ### `release`, `raise`, `commit`, `reply` -/

@[simp] theorem State.release_config (s : State) : s.release.config = s.config := rfl
@[simp] theorem State.release_buf (s : State) : s.release.buf = s.buf := rfl
@[simp] theorem State.release_status (s : State) : s.release.status = s.status := rfl
@[simp] theorem State.release_sel (s : State) : s.release.sel = s.sel := rfl
@[simp] theorem State.release_script (s : State) : s.release.script = s.script := rfl
@[simp] theorem State.release_replies (s : State) : s.release.replies = s.replies := rfl
@[simp] theorem State.release_draws (s : State) : s.release.draws = s.draws + 1 := rfl
@[simp] theorem State.release_scratch (s : State) :
    s.release.scratch = (Config.freeScratch s.draws).clamp s.config := rfl

@[simp] theorem State.raise_config (e : Err) (s : State) : (s.raise e).config = s.config := rfl
@[simp] theorem State.raise_buf (e : Err) (s : State) : (s.raise e).buf = s.buf := rfl
@[simp] theorem State.raise_status (e : Err) (s : State) : (s.raise e).status = e.status := rfl
@[simp] theorem State.raise_sel (e : Err) (s : State) : (s.raise e).sel = s.sel := rfl
@[simp] theorem State.raise_script (e : Err) (s : State) : (s.raise e).script = s.script := rfl
@[simp] theorem State.raise_replies (e : Err) (s : State) : (s.raise e).replies = s.replies := rfl
@[simp] theorem State.raise_draws (e : Err) (s : State) : (s.raise e).draws = s.draws + 1 := rfl
@[simp] theorem State.raise_scratch (e : Err) (s : State) :
    (s.raise e).scratch = (Config.freeScratch s.draws).clamp s.config := rfl

@[simp] theorem State.reply_config (r : Reply) (s : State) : (s.reply r).config = s.config := rfl
@[simp] theorem State.reply_buf (r : Reply) (s : State) : (s.reply r).buf = s.buf := rfl
@[simp] theorem State.reply_status (r : Reply) (s : State) : (s.reply r).status = s.status := rfl
@[simp] theorem State.reply_scratch (r : Reply) (s : State) : (s.reply r).scratch = s.scratch := rfl
@[simp] theorem State.reply_sel (r : Reply) (s : State) : (s.reply r).sel = s.sel := rfl
@[simp] theorem State.reply_script (r : Reply) (s : State) : (s.reply r).script = s.script := rfl
@[simp] theorem State.reply_replies (r : Reply) (s : State) : (s.reply r).replies = s.replies ++ [r] := rfl
@[simp] theorem State.reply_draws (r : Reply) (s : State) : (s.reply r).draws = s.draws := rfl

theorem State.commit_of_fits {sc : Scratch} {s : State} (h : sc.slen ≤ s.config.cap) :
    s.commit sc = { s.release with buf := sc.stage, status := statusOk } := by
  simp [State.commit, Nat.not_lt.mpr h]

theorem State.commit_of_exceeds {sc : Scratch} {s : State} (h : s.config.cap < sc.slen) :
    s.commit sc = s.raise .capacityExceeded := by
  simp [State.commit, h]

/-! ### Scratch initialisation (R288) -/

@[simp] theorem Scratch.init_freq (sc : Scratch) : sc.init.freq = sc.freq := rfl
@[simp] theorem Scratch.init_node (sc : Scratch) : sc.init.node = sc.node := rfl
@[simp] theorem Scratch.init_nn (sc : Scratch) : sc.init.nn = 0 := rfl
@[simp] theorem Scratch.init_heap (sc : Scratch) : sc.init.heap = sc.heap := rfl
@[simp] theorem Scratch.init_hn (sc : Scratch) : sc.init.hn = 0 := rfl
@[simp] theorem Scratch.init_rootValid (sc : Scratch) : sc.init.rootValid = false := rfl
@[simp] theorem Scratch.init_bits (sc : Scratch) : sc.init.bits = [] := rfl
@[simp] theorem Scratch.init_tbl (sc : Scratch) : sc.init.tbl = 0 := rfl
@[simp] theorem Scratch.init_dtab (sc : Scratch) : sc.init.dtab = [] := rfl
@[simp] theorem Scratch.init_ppos (sc : Scratch) : sc.init.ppos = 0 := rfl
@[simp] theorem Scratch.init_stage (sc : Scratch) : sc.init.stage = [] := rfl

/-! ### Appending to STAGE -/

@[simp] theorem Scratch.append_stage (sc : Scratch) (bs : List Byte) :
    (sc.append bs).stage = sc.stage ++ bs := rfl
@[simp] theorem Scratch.append_code (sc : Scratch) (bs : List Byte) : (sc.append bs).code = sc.code := rfl
@[simp] theorem Scratch.append_runByte (sc : Scratch) (bs : List Byte) :
    (sc.append bs).runByte = sc.runByte := rfl
@[simp] theorem Scratch.append_runCnt (sc : Scratch) (bs : List Byte) :
    (sc.append bs).runCnt = sc.runCnt := rfl
@[simp] theorem Scratch.append_total (sc : Scratch) (bs : List Byte) : (sc.append bs).total = sc.total := rfl
@[simp] theorem Scratch.append_dtab (sc : Scratch) (bs : List Byte) : (sc.append bs).dtab = sc.dtab := rfl
@[simp] theorem Scratch.append_cand (sc : Scratch) (bs : List Byte) : (sc.append bs).cand = sc.cand := rfl
@[simp] theorem Scratch.append_tbl (sc : Scratch) (bs : List Byte) : (sc.append bs).tbl = sc.tbl := rfl
@[simp] theorem Scratch.append_bits (sc : Scratch) (bs : List Byte) : (sc.append bs).bits = sc.bits := rfl
@[simp] theorem Scratch.append_nil (sc : Scratch) : sc.append [] = sc := by simp [Scratch.append]
@[simp] theorem Scratch.append_append (sc : Scratch) (xs ys : List Byte) :
    (sc.append xs).append ys = sc.append (xs ++ ys) := by simp [Scratch.append]

/-! ### What running a unit operation or a command can answer -/

/-- A unit operation run on its own answers one of three ways, and writes scratch only (R66, R306). -/
theorem runUop_cases (f : UnitOp) (s : State) :
    (∃ sc, f s.config s.buf s.scratch = .ok sc ∧ runUop f s = .next { s with scratch := sc }) ∨
    (∃ e, f s.config s.buf s.scratch = .error (.raised e) ∧ runUop f s = .next (s.raise e)) ∨
    (∃ r, f s.config s.buf s.scratch = .error (.stuck r) ∧ runUop f s = .fault r) := by
  unfold runUop
  rcases h : f s.config s.buf s.scratch with (e | r) | sc
  · exact .inr (.inl ⟨e, rfl, rfl⟩)
  · exact .inr (.inr ⟨r, rfl, rfl⟩)
  · exact .inl ⟨sc, rfl, rfl⟩

theorem runUop_ok {f : UnitOp} {s : State} {sc : Scratch} (h : f s.config s.buf s.scratch = .ok sc) :
    runUop f s = .next { s with scratch := sc } := by simp [runUop, h]

theorem runUop_raised {f : UnitOp} {s : State} {e : Err}
    (h : f s.config s.buf s.scratch = .error (.raised e)) : runUop f s = .next (s.raise e) := by
  simp [runUop, h]

theorem runUop_stuck {f : UnitOp} {s : State} {r : Fault}
    (h : f s.config s.buf s.scratch = .error (.stuck r)) : runUop f s = .fault r := by
  simp [runUop, h]

/-- A command answers one of three ways (R285 to R287). -/
theorem runCommand_cases (f : UnitOp) (s : State) :
    (∃ sc, f s.config s.buf s.scratch.init = .ok sc ∧ runCommand f s = .next (s.commit sc)) ∨
    (∃ e, f s.config s.buf s.scratch.init = .error (.raised e) ∧ runCommand f s = .next (s.raise e)) ∨
    (∃ r, f s.config s.buf s.scratch.init = .error (.stuck r) ∧ runCommand f s = .fault r) := by
  unfold runCommand
  rcases h : f s.config s.buf s.scratch.init with (e | r) | sc
  · exact .inr (.inl ⟨e, rfl, rfl⟩)
  · exact .inr (.inr ⟨r, rfl, rfl⟩)
  · exact .inl ⟨sc, rfl, rfl⟩

theorem runCommand_ok {f : UnitOp} {s : State} {sc : Scratch}
    (h : f s.config s.buf s.scratch.init = .ok sc) : runCommand f s = .next (s.commit sc) := by
  simp [runCommand, h]

theorem runCommand_raised {f : UnitOp} {s : State} {e : Err}
    (h : f s.config s.buf s.scratch.init = .error (.raised e)) : runCommand f s = .next (s.raise e) := by
  simp [runCommand, h]

/-- What a command's end can be: commit of a result that fits, or the abort of one error. -/
theorem runCommand_next_cases {f : UnitOp} {s t : State} (h : runCommand f s = .next t) :
    (∃ sc, f s.config s.buf s.scratch.init = .ok sc ∧ sc.slen ≤ s.config.cap ∧
      t = { s.release with buf := sc.stage, status := statusOk }) ∨
    (∃ e, t = s.raise e ∧ (f s.config s.buf s.scratch.init = .error (.raised e) ∨
      (e = .capacityExceeded ∧ ∃ sc, f s.config s.buf s.scratch.init = .ok sc ∧
        s.config.cap < sc.slen))) := by
  obtain ⟨sc, hf, hr⟩ | ⟨e, hf, hr⟩ | ⟨r, hf, hr⟩ := runCommand_cases f s <;> rw [hr] at h
  · injection h with h
    by_cases hc : sc.slen ≤ s.config.cap
    · exact .inl ⟨sc, hf, hc, by rw [← h, State.commit_of_fits hc]⟩
    · rw [State.commit_of_exceeds (by omega)] at h
      exact .inr ⟨_, h.symm, .inr ⟨rfl, sc, hf, by omega⟩⟩
  · injection h with h
    exact .inr ⟨e, h.symm, .inl hf⟩
  · cases h

/-! ### `clamp` (log entry 3) -/

theorem symGet_tabulate {α : Type} (f : Nat → α) (s : Byte) : symGet (tabulate 256 f) s = f s.toNat := by
  simp [symGet, tabulate]

theorem nodeGet_tabulate (f : Nat → Node) (i : NodeIdx) : nodeGet (tabulate 511 f) i = f i.val := by
  simp [nodeGet, tabulate]

theorem Scratch.clamp_fits (c : Config) (sc : Scratch) : (sc.clamp c).Fits c where
  freq s := by rw [Scratch.clamp, symGet_tabulate]; exact Nat.mod_lt _ c.limit_pos
  weight i := by rw [Scratch.clamp, nodeGet_tabulate]; exact Nat.mod_lt _ c.limit_pos
  nn := by simp only [Scratch.clamp]; omega
  hn := by simp only [Scratch.clamp]; omega
  code s := by rw [Scratch.clamp, symGet_tabulate]; simp [CodeEntry.len]
  tbl := Nat.mod_lt _ c.limit_pos
  ipos := Nat.mod_lt _ c.limit_pos
  bpos := Nat.mod_lt _ c.limit_pos
  runCnt := Nat.mod_lt _ c.limit_pos
  path := by simp [Scratch.clamp]

theorem Scratch.zero_fits (c : Config) : Scratch.zero.Fits c where
  freq s := by simp [Scratch.zero, symGet, c.limit_pos]
  weight i := by simp [Scratch.zero, nodeGet, c.limit_pos]
  nn := by decide
  hn := by decide
  code s := by simp [Scratch.zero, symGet, CodeEntry.len]
  tbl := c.limit_pos
  ipos := c.limit_pos
  bpos := c.limit_pos
  runCnt := c.limit_pos
  path := by decide

end Sys2Proof.Machine
end

