-- ==== Sys2Proof/Laws/Operands.lean ====
section
/-! SUPPORT. What the operand forms of Machine/Operands.lean do. -/

namespace Sys2Proof.Machine

/-! ### Size fields -/

@[simp] theorem leBytes_length (n v : Nat) : (leBytes n v).length = n := by
  induction n generalizing v with
  | zero => rfl
  | succ n ih => simp [leBytes, ih]

theorem leValue_leBytes {n v : Nat} (h : v < 256 ^ n) : leValue (leBytes n v) = v := by
  induction n generalizing v with
  | zero => simp at h; simp [leBytes, leValue, h]
  | succ n ih =>
    have : v / 256 < 256 ^ n := Nat.div_lt_of_lt_mul (by rw [pow_succ] at h; omega)
    simp only [leBytes, leValue, ih this, BitVec.toNat_ofNat]
    omega

theorem leValue_lt (bs : List Byte) : leValue bs < 256 ^ bs.length := by
  induction bs with
  | nil => simp [leValue]
  | cons b bs ih =>
    have := b.isLt
    simp only [leValue, List.length_cons, pow_succ]
    omega

theorem leBytes_leValue (bs : List Byte) : leBytes bs.length (leValue bs) = bs := by
  induction bs with
  | nil => rfl
  | cons b bs ih =>
    have hb := b.isLt
    simp only [leValue, List.length_cons, leBytes]
    rw [show (b.toNat + 256 * leValue bs) / 256 = leValue bs by omega, ih]
    congr 1
    apply BitVec.eq_of_toNat_eq
    simp only [BitVec.toNat_ofNat]
    omega

/-! ### Reads of BUF -/

theorem memReadBytes_length {buf : List Byte} {a n : Nat} (h : a + n ≤ buf.length) :
    (memReadBytes buf a n).length = n := by
  simp [memReadBytes]; omega

theorem memReadBytes_append (xs ys zs : List Byte) :
    memReadBytes (xs ++ ys ++ zs) xs.length ys.length = ys := by
  simp [memReadBytes]

theorem memReadBytes_append_of_eq {xs ys zs : List Byte} {a n : Nat} (ha : a = xs.length)
    (hn : n = ys.length) : memReadBytes (xs ++ ys ++ zs) a n = ys := by
  subst ha hn; exact memReadBytes_append xs ys zs

theorem memRead_append_leBytes {xs zs : List Byte} {a n v : Nat} (ha : a = xs.length)
    (hv : v < 256 ^ n) : memRead (xs ++ leBytes n v ++ zs) a n = v := by
  rw [memRead, memReadBytes_append_of_eq ha (by simp), leValue_leBytes hv]

theorem memRead_lt {buf : List Byte} (a n : Nat) : memRead buf a n < 256 ^ n :=
  lt_of_lt_of_le (leValue_lt _) (Nat.pow_le_pow_right (by norm_num) (by simp [memReadBytes]))

/-- A one-byte read is the byte. -/
theorem memRead_one {buf : List Byte} {a : Nat} (h : a < buf.length) :
    BitVec.ofNat 8 (memRead buf a 1) = buf[a] := by
  have : memReadBytes buf a 1 = [buf[a]] := by
    rw [memReadBytes, List.drop_eq_getElem_cons h]; rfl
  simp [memRead, this, leValue]

/-! ### Packed bit strings -/

theorem ceil8_spec (n : Nat) : n ≤ 8 * ceil8 n ∧ 8 * ceil8 n < n + 8 := by unfold ceil8; omega

@[simp] theorem ceil8_zero : ceil8 0 = 0 := rfl

@[simp] theorem pack_length (b : Bits) : (pack b).length = ceil8 b.length := by simp [pack]

@[simp] theorem unpack_length (B : List Byte) (n : Nat) : (unpack B n).length = n := by simp [unpack]

/-- The bit at position `7 - k` of a byte put together from eight bits is the `k`-th of them. -/
theorem testBit_byte : ∀ x0 x1 x2 x3 x4 x5 x6 x7 : Bool, ∀ k < 8,
    ((x0.toNat * 128 + x1.toNat * 64 + x2.toNat * 32 + x3.toNat * 16 + x4.toNat * 8 + x5.toNat * 4
      + x6.toNat * 2 + x7.toNat) % 2 ^ 8).testBit (7 - k)
      = [x0, x1, x2, x3, x4, x5, x6, x7].getD k false := by decide +kernel

theorem bitAt_eq (b : Bits) (i : Nat) : bitAt b i = (b.getD i false).toNat := by
  unfold bitAt; cases b.getD i false <;> rfl

theorem packByte_bit (b : Bits) (j k : Nat) (hk : k < 8) :
    (packByte b j).getLsbD (7 - k) = b.getD (8 * j + k) false := by
  simp only [packByte, bitAt_eq, ← BitVec.testBit_toNat, BitVec.toNat_ofNat]
  rw [testBit_byte _ _ _ _ _ _ _ _ k hk]
  interval_cases k <;> rfl

theorem pack_getD (b : Bits) {j : Nat} (hj : j < ceil8 b.length) : (pack b).getD j 0 = packByte b j := by
  simp [pack, List.getD_eq_getElem?_getD, hj]

theorem unpack_append {B : List Byte} {n : Nat} (C : List Byte) (h : ceil8 n ≤ B.length) :
    unpack (B ++ C) n = unpack B n := by
  unfold unpack
  refine List.map_congr_left fun i hi => ?_
  have hi := List.mem_range.mp hi
  have := ceil8_spec n
  rw [List.getD_append _ _ _ _ (by omega)]

/-- Unpacking what was packed gives the bits back (R189). -/
theorem unpack_pack (b : Bits) : unpack (pack b) b.length = b := by
  apply List.ext_getElem (by simp)
  intro i h1 h2
  have := ceil8_spec b.length
  simp only [unpack, List.getElem_map, List.getElem_range]
  rw [pack_getD b (by omega), packByte_bit _ _ _ (Nat.mod_lt _ (by norm_num)),
    show 8 * (i / 8) + i % 8 = i by omega, List.getD_eq_getElem?_getD, List.getElem?_eq_getElem h2]
  rfl

@[simp] theorem pack_nil : pack [] = [] := rfl

/-! ### Prefixes -/

theorem isPrefix_iff (c d : Bits) : isPrefix c d = true ↔ c <+: d := by
  induction c generalizing d with
  | nil => simp [isPrefix]
  | cons x xs ih =>
    cases d with
    | nil => simp [isPrefix]
    | cons y ys => simp [isPrefix, ih, List.cons_prefix_cons]

/-! ### Tables -/

@[simp] theorem symGet_symSet_self {α : Type} (v : Vector α 256) (s : Byte) (x : α) :
    symGet (symSet v s x) s = x := by simp [symGet, symSet]

theorem symGet_symSet_ne {α : Type} (v : Vector α 256) {s t : Byte} (x : α) (h : s ≠ t) :
    symGet (symSet v s x) t = symGet v t := by
  have : s.toNat ≠ t.toNat := fun e => h (BitVec.eq_of_toNat_eq e)
  simp [symGet, symSet, this]

theorem symGet_symSet {α : Type} (v : Vector α 256) (s t : Byte) (x : α) :
    symGet (symSet v s x) t = if s = t then x else symGet v t := by
  split
  · next h => subst h; simp
  · next h => exact symGet_symSet_ne v x h

@[simp] theorem symGet_writtenOut {α : Type} (v : Vector α 256) (s : Byte) :
    symGet (writtenOut v) s = symGet v s := by
  simp [writtenOut, tabulate, symGet, Nat.mod_eq_of_lt s.isLt]

@[simp] theorem symGet_replicate {α : Type} (x : α) (s : Byte) :
    symGet (Vector.replicate 256 x) s = x := by simp [symGet]

@[simp] theorem symGet_map {α β : Type} (f : α → β) (v : Vector α 256) (s : Byte) :
    symGet (v.map f) s = f (symGet v s) := by simp [symGet]

theorem symTable_ext {α : Type} {v w : Vector α 256} (h : ∀ s, symGet v s = symGet w s) : v = w := by
  ext i hi
  have := h (BitVec.ofNat 8 i)
  have e : (BitVec.ofNat 8 i).toNat = i := by simp; omega
  simpa [symGet, e] using this

theorem mem_symbols (s : Byte) : s ∈ symbols := by
  refine List.mem_map.mpr ⟨s.toNat, List.mem_range.mpr s.isLt, ?_⟩
  simp

theorem symbols_length : symbols.length = 256 := by simp [symbols]

theorem symbols_nodup : symbols.Nodup := by
  refine List.Nodup.map_on ?_ List.nodup_range
  intro a ha b hb h
  have ha := List.mem_range.mp ha
  have hb := List.mem_range.mp hb
  have := congrArg BitVec.toNat h
  simp only [BitVec.toNat_ofNat] at this
  omega

@[simp] theorem nodeGet_nodeSet_self (v : Vector Node 511) (i : NodeIdx) (x : Node) :
    nodeGet (nodeSet v i x) i = x := by simp [nodeGet, nodeSet]

theorem nodeGet_nodeSet_ne (v : Vector Node 511) {i j : NodeIdx} (x : Node) (h : i ≠ j) :
    nodeGet (nodeSet v i x) j = nodeGet v j := by
  have : i.val ≠ j.val := fun e => h (Fin.ext e)
  simp [nodeGet, nodeSet, this]

theorem nodeIdx_val {n : Nat} (h : n < 511) : (nodeIdx n).val = n := by
  simp [nodeIdx, Fin.ofNat, Nat.mod_eq_of_lt h]

@[simp] theorem nodeIdx_self (i : NodeIdx) : nodeIdx i.val = i := Fin.ext (nodeIdx_val i.isLt)

theorem heapGet_eq (h : Vector NodeIdx 256) {i : Nat} (hi : i < 256) : heapGet h i = h[i] := by
  simp [heapGet, hi]

theorem heapGet_heapSet_self (h : Vector NodeIdx 256) {i : Nat} (n : NodeIdx) (hi : i < 256) :
    heapGet (heapSet h i n) i = n := by simp [heapGet, heapSet, hi]

theorem heapGet_heapSet_ne (h : Vector NodeIdx 256) {i j : Nat} (n : NodeIdx) (hij : i ≠ j) :
    heapGet (heapSet h i n) j = heapGet h j := by
  simp [heapGet, heapSet, hij]

theorem heapGet_heapSwap (h : Vector NodeIdx 256) {i j k : Nat} (hi : i < 256) (hj : j < 256) :
    heapGet (heapSwap h i j) k =
      if k = j then heapGet h i else if k = i then heapGet h j else heapGet h k := by
  unfold heapSwap
  by_cases hkj : k = j
  · subst hkj; rw [heapGet_heapSet_self _ _ hj]; simp
  · rw [heapGet_heapSet_ne _ _ (Ne.symm hkj)]
    by_cases hki : k = i
    · subst hki; rw [heapGet_heapSet_self _ _ hi]; simp [hkj]
    · rw [heapGet_heapSet_ne _ _ (Ne.symm hki)]; simp [hkj, hki]

theorem heapSet_toList (h : Vector NodeIdx 256) (i : Nat) (n : NodeIdx) :
    (heapSet h i n).toList = h.toList.set i n := by
  simp [heapSet, Vector.toList, Vector.setIfInBounds]

end Sys2Proof.Machine
end

