-- ==== Sys2Proof/Laws/BitPacker.lean ====
section
/-! SUPPORT. BP_PACK, bit by bit, appends `pack` of the bits (spec/43_bit_packer.md R186). -/

namespace Sys2Proof.Machine

theorem packByte_append_zero (p q : Bits) (h : 8 ≤ p.length) : packByte (p ++ q) 0 = packByte p 0 := by
  have key : ∀ k, k < 8 → bitAt (p ++ q) k = bitAt p k := fun k hk => by
    rw [bitAt, bitAt, List.getD_append _ _ _ _ (by omega)]
  simp only [packByte, Nat.mul_zero, Nat.zero_add]
  rw [key 0, key 1, key 2, key 3, key 4, key 5, key 6, key 7] <;> omega

theorem packByte_append_succ (p q : Bits) (h : p.length = 8) (j : Nat) :
    packByte (p ++ q) (j + 1) = packByte q j := by
  have key : ∀ k, bitAt (p ++ q) (8 * (j + 1) + k) = bitAt q (8 * j + k) := fun k => by
    rw [bitAt, bitAt, List.getD_append_right _ _ _ _ (by omega),
      show 8 * (j + 1) + k - p.length = 8 * j + k by omega]
  simp only [packByte]
  rw [key 1, key 2, key 3, key 4, key 5, key 6, key 7]
  have := key 0
  simp only [Nat.add_zero] at this
  rw [this]

/-- Eight bits make the first byte. -/
theorem pack_append_eight (p q : Bits) (h : p.length = 8) : pack (p ++ q) = packByte p 0 :: pack q := by
  have hc : ceil8 (p ++ q).length = ceil8 q.length + 1 := by
    simp only [List.length_append, h, ceil8]; omega
  rw [pack, hc, List.range_succ_eq_map, List.map_cons, List.map_map, packByte_append_zero _ _ (by omega)]
  congr 1
  exact List.map_congr_left fun j _ => packByte_append_succ p q h j

/-- Fewer than nine bits, at least one, make one byte. -/
theorem pack_short (p : Bits) (h1 : 1 ≤ p.length) (h2 : p.length ≤ 8) : pack p = [packByte p 0] := by
  have : ceil8 p.length = 1 := by unfold ceil8; omega
  simp [pack, this]

theorem packByte_snoc_values : ∀ x0 x1 x2 x3 x4 x5 x6 b : Bool, ∀ n < 8,
    packByte ([x0, x1, x2, x3, x4, x5, x6].take n) 0 + (if b then (1#8 <<< (7 - n)) else 0)
      = packByte ([x0, x1, x2, x3, x4, x5, x6].take n ++ [b]) 0 := by decide +kernel

/-- The next bit goes to the highest free position of ACC. -/
theorem packByte_snoc (p : Bits) (b : Bit) (h : p.length < 8) :
    packByte p 0 + (if b then (1#8 <<< (7 - p.length)) else 0) = packByte (p ++ [b]) 0 := by
  have := packByte_snoc_values (p.getD 0 false) (p.getD 1 false) (p.getD 2 false) (p.getD 3 false)
    (p.getD 4 false) (p.getD 5 false) (p.getD 6 false) b p.length h
  have e : [p.getD 0 false, p.getD 1 false, p.getD 2 false, p.getD 3 false, p.getD 4 false, p.getD 5 false,
      p.getD 6 false].take p.length = p := by
    clear this
    rcases p with _ | ⟨_, _ | ⟨_, _ | ⟨_, _ | ⟨_, _ | ⟨_, _ | ⟨_, _ | ⟨_, _ | ⟨_, p⟩⟩⟩⟩⟩⟩⟩⟩ <;>
      first | rfl | (simp at h; omega)
  rwa [e] at this

/-- The end of BP_PACK: the byte still pending, if there is one (R186). -/
def flush (sc : Scratch) : Scratch := if 0 < sc.accn.val then sc.emit sc.acc else sc

/-- The loop of BP_PACK with the bits `p` pending in ACC. -/
theorem pack_loop (bs p : Bits) (sc : Scratch) (hacc : sc.acc = packByte p 0)
    (haccn : sc.accn.val = p.length) :
    ∃ acc accn, flush (bs.foldl packStep sc) =
      { sc with stage := sc.stage ++ pack (p ++ bs), acc := acc, accn := accn } := by
  have hlt : p.length < 8 := by have := sc.accn.isLt; omega
  induction bs generalizing p sc with
  | nil =>
    refine ⟨sc.acc, sc.accn, ?_⟩
    rw [List.foldl_nil, flush, List.append_nil]
    split
    · rw [pack_short p (by omega) (by omega), ← hacc]; rfl
    · obtain rfl : p = [] := List.eq_nil_of_length_eq_zero (by omega)
      simp
  | cons b bs ih =>
    rw [List.foldl_cons]
    have hsnoc := packByte_snoc p b hlt
    by_cases h7 : sc.accn.val = 7
    · have hstep : packStep sc b = { sc with
          stage := sc.stage ++ [packByte (p ++ [b]) 0], acc := 0, accn := 0 } := by
        simp only [packStep, h7, if_true]
        rw [← hsnoc, hacc, ← haccn, h7]
        simp [Scratch.emit, Scratch.append]
      rw [hstep]
      obtain ⟨acc, accn, h⟩ := ih [] { sc with
        stage := sc.stage ++ [packByte (p ++ [b]) 0], acc := 0, accn := 0 } (by rfl) (by rfl) (by decide)
      refine ⟨acc, accn, ?_⟩
      have h8 : (p ++ [b]).length = 8 := by rw [List.length_append, ← haccn, h7]; rfl
      rw [h, show p ++ b :: bs = (p ++ [b]) ++ bs by simp, pack_append_eight _ _ h8]
      simp
    · have hstep : packStep sc b = { sc with acc := packByte (p ++ [b]) 0, accn := sc.accn + 1 } := by
        simp only [packStep, h7, if_false]
        rw [← hsnoc, hacc, ← haccn]
      have hn : (sc.accn + 1).val = (p ++ [b]).length := by
        have := sc.accn.isLt
        rw [Fin.val_add, List.length_append, ← haccn]
        simp; omega
      rw [hstep]
      obtain ⟨acc, accn, h⟩ := ih (p ++ [b]) { sc with acc := packByte (p ++ [b]) 0, accn := sc.accn + 1 }
        rfl hn (by rw [← hn]; exact Fin.isLt _)
      refine ⟨acc, accn, ?_⟩
      rw [h]
      simp

theorem payloadBits_of_le {sc : Scratch} (h : sc.tbl ≤ sc.bits.length) :
    payloadBits sc = .ok (sc.bits.take sc.tbl) := by simp [payloadBits, h]

/-- BP_PACK appends the packed payload bits (R186). -/
theorem bpPack_eq {sc : Scratch} (h : sc.tbl ≤ sc.bits.length) :
    ∃ acc accn, bpPack sc = .ok { sc with
      stage := sc.stage ++ pack (sc.bits.take sc.tbl), acc := acc, accn := accn, bpos := sc.tbl } := by
  obtain ⟨acc, accn, he⟩ := pack_loop (sc.bits.take sc.tbl) [] { sc with acc := 0, accn := 0 } rfl rfl
  refine ⟨acc, accn, ?_⟩
  simp only [flush, List.nil_append] at he
  unfold bpPack
  rw [payloadBits_of_le h]
  simp only [bind, Except.bind]
  rw [he]

end Sys2Proof.Machine
end

