-- ==== Sys2Proof/Laws/PriorityQueue.lean ====
section
/-! SUPPORT. What the heap operations do (spec/40_priority_queue.md R131 to R138): they permute the
queue, and they keep or restore the heap order. -/

namespace Sys2Proof.Machine

/-! ### The order of keys (R131) -/

theorem less_iff (node : Vector Node 511) (a b : NodeIdx) :
    less node a b = true ↔ (nodeGet node a).weight < (nodeGet node b).weight ∨
      ((nodeGet node a).weight = (nodeGet node b).weight ∧ a.val < b.val) := by
  simp [less]

/-- `a` does not come after `b`. -/
def NotAfter (node : Vector Node 511) (a b : NodeIdx) : Prop := less node b a = false

theorem notAfter_iff (node : Vector Node 511) (a b : NodeIdx) :
    NotAfter node a b ↔ (nodeGet node a).weight < (nodeGet node b).weight ∨
      ((nodeGet node a).weight = (nodeGet node b).weight ∧ a.val ≤ b.val) := by
  rw [NotAfter, ← Bool.not_eq_true, less_iff]; omega

theorem notAfter_refl (node : Vector Node 511) (a : NodeIdx) : NotAfter node a a := by
  rw [notAfter_iff]; omega

theorem notAfter_trans {node : Vector Node 511} {a b c : NodeIdx} (h1 : NotAfter node a b)
    (h2 : NotAfter node b c) : NotAfter node a c := by
  rw [notAfter_iff] at *; omega

theorem notAfter_of_less {node : Vector Node 511} {a b : NodeIdx} (h : less node a b = true) :
    NotAfter node a b := by
  rw [notAfter_iff]; rw [less_iff] at h; omega

theorem less_of_notAfter {node : Vector Node 511} {a b : NodeIdx} (h : NotAfter node a b) (hne : a ≠ b) :
    less node a b = true := by
  have : a.val ≠ b.val := fun e => hne (Fin.ext e)
  rw [less_iff]; rw [notAfter_iff] at h; omega

theorem not_less {node : Vector Node 511} {a b : NodeIdx} (h : ¬ less node a b = true) :
    NotAfter node b a := by
  simpa [NotAfter] using h

/-! ### The queue as a list -/

theorem queue_length {sc : Scratch} (h : sc.hn ≤ 256) : sc.queue.length = sc.hn := by
  simp [Scratch.queue, h]

theorem take_getElem (h : Vector NodeIdx 256) {n i : Nat} (hi : i < (h.toList.take n).length) :
    (h.toList.take n)[i] = heapGet h i := by
  have hi' : i < n ∧ i < 256 := by simpa using hi
  rw [heapGet_eq h hi'.2]
  simp

theorem queue_getElem (sc : Scratch) {i : Nat} (hi : i < sc.queue.length) :
    sc.queue[i] = heapGet sc.heap i := take_getElem sc.heap hi

/-- Swapping two entries of the first `n` permutes the first `n`. -/
theorem heapSwap_perm (h : Vector NodeIdx 256) {n i j : Nat} (hi : i < n) (hj : j < n) (hn : n ≤ 256) :
    ((heapSwap h i j).toList.take n).Perm (h.toList.take n) := by
  have hi' : i < (h.toList.take n).length := by simp; omega
  have hj' : j < (h.toList.take n).length := by simp; omega
  have := List.set_set_perm hi' hj'
  rw [take_getElem, take_getElem] at this
  rwa [heapSwap, heapSet_toList, heapSet_toList, List.take_set, List.take_set]

/-! ### `siftDown` (R133) -/

/-- The least of a position and its children: what R133 calls `m`. -/
theorem siftTarget_spec (node : Vector Node 511) (hn : Nat) (h : Vector NodeIdx 256) (i : Nat) :
    let m := siftTarget node hn h i
    (m = i ∨ (m < hn ∧ (m = 2 * i + 1 ∨ m = 2 * i + 2) ∧ NotAfter node (heapGet h m) (heapGet h i))) ∧
      ∀ c, (c = 2 * i + 1 ∨ c = 2 * i + 2) → c < hn → NotAfter node (heapGet h m) (heapGet h c) := by
  simp only [siftTarget]
  by_cases hl : 2 * i + 1 < hn ∧ less node (heapGet h (2 * i + 1)) (heapGet h i) = true
  · rw [if_pos hl]
    by_cases hr : 2 * i + 2 < hn ∧ less node (heapGet h (2 * i + 2)) (heapGet h (2 * i + 1)) = true
    · rw [if_pos hr]
      refine ⟨.inr ⟨hr.1, by omega, notAfter_trans (notAfter_of_less hr.2) (notAfter_of_less hl.2)⟩, ?_⟩
      rintro c (rfl | rfl) _
      · exact notAfter_of_less hr.2
      · exact notAfter_refl _ _
    · rw [if_neg hr]
      refine ⟨.inr ⟨hl.1, by omega, notAfter_of_less hl.2⟩, ?_⟩
      rintro c (rfl | rfl) hc
      · exact notAfter_refl _ _
      · exact not_less fun e => hr ⟨hc, e⟩
  · rw [if_neg hl]
    have hli : 2 * i + 1 < hn → NotAfter node (heapGet h i) (heapGet h (2 * i + 1)) :=
      fun hc => not_less fun e => hl ⟨hc, e⟩
    by_cases hr : 2 * i + 2 < hn ∧ less node (heapGet h (2 * i + 2)) (heapGet h i) = true
    · rw [if_pos hr]
      refine ⟨.inr ⟨hr.1, by omega, notAfter_of_less hr.2⟩, ?_⟩
      rintro c (rfl | rfl) hc
      · exact notAfter_trans (notAfter_of_less hr.2) (hli hc)
      · exact notAfter_refl _ _
    · rw [if_neg hr]
      refine ⟨.inl rfl, ?_⟩
      rintro c (rfl | rfl) hc
      · exact hli hc
      · exact not_less fun e => hr ⟨hc, e⟩

theorem siftDown_perm (node : Vector Node 511) {hn : Nat} (hhn : hn ≤ 256) (fuel : Nat)
    (h : Vector NodeIdx 256) (i : Nat) :
    ((siftDown node hn fuel h i).toList.take hn).Perm (h.toList.take hn) := by
  induction fuel generalizing h i with
  | zero => rfl
  | succ fuel ih =>
    unfold siftDown
    simp only
    split
    · rfl
    · next hm =>
      obtain ⟨hspec, -⟩ := siftTarget_spec node hn h i
      obtain hspec | ⟨h1, h2, -⟩ := hspec
      · exact absurd hspec hm
      · exact (ih _ _).trans (heapSwap_perm h (by omega) h1 hhn)

/-- Every parent at position `k` or later comes before its children. -/
def OrderedFrom (node : Vector Node 511) (hn k : Nat) (h : Vector NodeIdx 256) : Prop :=
  ∀ c, 1 ≤ c → c < hn → k ≤ (c - 1) / 2 → NotAfter node (heapGet h ((c - 1) / 2)) (heapGet h c)

/-- What holds while `siftDown` is at position `i`: every parent from `k` on but `i` is in order, and the
parent of `i` comes before the children of `i`. -/
def SiftingAt (node : Vector Node 511) (hn k i : Nat) (h : Vector NodeIdx 256) : Prop :=
  (∀ c, 1 ≤ c → c < hn → k ≤ (c - 1) / 2 → (c - 1) / 2 ≠ i →
    NotAfter node (heapGet h ((c - 1) / 2)) (heapGet h c)) ∧
  ∀ c, 1 ≤ c → c < hn → (c - 1) / 2 = i → 1 ≤ i → k ≤ (i - 1) / 2 →
    NotAfter node (heapGet h ((i - 1) / 2)) (heapGet h c)

theorem siftDown_ordered (node : Vector Node 511) {hn : Nat} (hhn : hn ≤ 256) {k : Nat} (fuel : Nat)
    (h : Vector NodeIdx 256) (i : Nat) (hki : k ≤ i) (hfuel : hn ≤ i + fuel)
    (hs : SiftingAt node hn k i h) : OrderedFrom node hn k (siftDown node hn fuel h i) := by
  induction fuel generalizing h i with
  | zero => exact fun c h1 h2 h3 => hs.1 c h1 h2 h3 (by omega)
  | succ fuel ih =>
    obtain ⟨hspec, hmin⟩ := siftTarget_spec node hn h i
    unfold siftDown
    simp only
    split
    · next hm =>
      intro c h1 h2 h3
      by_cases hc : (c - 1) / 2 = i
      · rw [hc]; rw [hm] at hmin; exact hmin c (by omega) h2
      · exact hs.1 c h1 h2 h3 hc
    · next hm =>
      obtain hspec | ⟨hlt, hchild, hle⟩ := hspec
      · exact absurd hspec hm
      · generalize siftTarget node hn h i = m at *
        have sw : ∀ x, heapGet (heapSwap h i m) x =
            if x = m then heapGet h i else if x = i then heapGet h m else heapGet h x :=
          fun x => heapGet_heapSwap h (by omega) (by omega)
        refine ih _ _ (by omega) (by omega) ⟨?_, ?_⟩
        · intro c h1 h2 h3 h4
          rw [sw, sw, if_neg h4]
          by_cases hpi : (c - 1) / 2 = i
          · rw [if_pos hpi]
            by_cases hcm : c = m
            · rw [if_pos hcm]; exact hle
            · rw [if_neg hcm, if_neg (by omega)]; exact hmin c (by omega) h2
          · rw [if_neg hpi, if_neg (by omega)]
            by_cases hci : c = i
            · subst hci; rw [if_pos rfl]
              exact hs.2 m (by omega) hlt (by omega) h1 h3
            · rw [if_neg hci]; exact hs.1 c h1 h2 h3 hpi
        · intro c h1 h2 h3 h4 h5
          rw [sw, sw, if_neg (by omega), if_pos (by omega), if_neg (by omega), if_neg (by omega)]
          have := hs.1 c h1 h2 (by omega) (by omega)
          rwa [h3] at this

/-! ### `siftUp` (R134) -/

theorem siftUp_perm (node : Vector Node 511) {hn : Nat} (hhn : hn ≤ 256) (fuel : Nat)
    (h : Vector NodeIdx 256) {i : Nat} (hi : i < hn) :
    ((siftUp node fuel h i).toList.take hn).Perm (h.toList.take hn) := by
  induction fuel generalizing h i with
  | zero => rfl
  | succ fuel ih =>
    unfold siftUp
    split
    · exact (ih _ (by omega)).trans (heapSwap_perm h hi (by omega) hhn)
    · rfl

theorem siftUp_ordered (node : Vector Node 511) {hn : Nat} (hhn : hn ≤ 256) (fuel : Nat)
    (h : Vector NodeIdx 256) (i : Nat) (hi : i < hn) (hfuel : i ≤ fuel)
    (h1 : ∀ c, 1 ≤ c → c < hn → c ≠ i → NotAfter node (heapGet h ((c - 1) / 2)) (heapGet h c))
    (h2 : ∀ c, 1 ≤ c → c < hn → (c - 1) / 2 = i → 1 ≤ i →
      NotAfter node (heapGet h ((i - 1) / 2)) (heapGet h c)) :
    OrderedFrom node hn 0 (siftUp node fuel h i) := by
  induction fuel generalizing h i with
  | zero => exact fun c hc1 hc2 _ => h1 c hc1 hc2 (by omega)
  | succ fuel ih =>
    unfold siftUp
    split
    · next hcond =>
      have sw : ∀ x, heapGet (heapSwap h i ((i - 1) / 2)) x =
          if x = (i - 1) / 2 then heapGet h i else if x = i then heapGet h ((i - 1) / 2) else heapGet h x :=
        fun x => heapGet_heapSwap h (by omega) (by omega)
      refine ih _ _ (by omega) (by omega) ?_ ?_
      · intro c hc1 hc2 hc3
        rw [sw, sw]
        by_cases hci : c = i
        · subst hci
          rw [if_pos rfl, if_neg hc3, if_pos rfl]
          exact notAfter_of_less hcond.2
        · rw [if_neg hc3, if_neg hci]
          by_cases hpp : (c - 1) / 2 = (i - 1) / 2
          · rw [if_pos hpp]
            refine notAfter_trans (notAfter_of_less hcond.2) ?_
            have := h1 c hc1 hc2 hci
            rwa [hpp] at this
          · rw [if_neg hpp]
            by_cases hpi : (c - 1) / 2 = i
            · rw [if_pos hpi]; exact h2 c hc1 hc2 hpi hcond.1
            · rw [if_neg hpi]; exact h1 c hc1 hc2 hci
      · intro c hc1 hc2 hc3 hc4
        rw [sw, sw, if_neg (by omega), if_neg (by omega)]
        have hup := h1 ((i - 1) / 2) hc4 (by omega) (by omega)
        by_cases hci : c = i
        · subst hci; rw [if_neg (by omega), if_pos rfl]; exact hup
        · rw [if_neg (by omega), if_neg hci]
          refine notAfter_trans hup ?_
          have := h1 c hc1 hc2 hci
          rwa [hc3] at this
    · next hcond =>
      intro c hc1 hc2 _
      by_cases hci : c = i
      · subst hci
        exact not_less fun e => hcond ⟨hc1, e⟩
      · exact h1 c hc1 hc2 hci

/-! ### The second loop of PQ_BUILD (R135) -/

theorem heapify_perm (node : Vector Node 511) {hn : Nat} (hhn : hn ≤ 256) (k : Nat)
    (h : Vector NodeIdx 256) : ((heapify node hn k h).toList.take hn).Perm (h.toList.take hn) := by
  induction k generalizing h with
  | zero => rfl
  | succ k ih => exact (ih _).trans (siftDown_perm node hhn _ _ _)

theorem heapify_ordered (node : Vector Node 511) {hn : Nat} (hhn : hn ≤ 256) (k : Nat)
    (h : Vector NodeIdx 256) (ho : OrderedFrom node hn k h) :
    OrderedFrom node hn 0 (heapify node hn k h) := by
  induction k generalizing h with
  | zero => exact ho
  | succ k ih =>
    refine ih _ (siftDown_ordered node hhn _ _ _ (le_refl k) (by omega) ⟨?_, ?_⟩)
    · exact fun c h1 h2 h3 h4 => ho c h1 h2 (by omega)
    · intro c _ _ _ _ _; omega

/-! ### The heap invariant (R132) -/

theorem HeapInv_of_ordered {sc : Scratch} (hroom : sc.hn ≤ 256) (hnd : sc.queue.Nodup)
    (ho : OrderedFrom sc.node sc.hn 0 sc.heap) : sc.HeapInv where
  room := hroom
  distinct := hnd
  ordered i h1 h2 := by
    refine less_of_notAfter (ho i h1 h2 (Nat.zero_le _)) fun e => ?_
    have hq := queue_length hroom
    have := hnd.getElem_inj_iff (i := (i - 1) / 2) (j := i) (hi := by omega) (hj := by omega)
    rw [queue_getElem, queue_getElem] at this
    have := this.mp e
    omega

theorem Scratch.HeapInv.orderedFrom {sc : Scratch} (h : sc.HeapInv) :
    OrderedFrom sc.node sc.hn 0 sc.heap := fun c h1 h2 _ => notAfter_of_less (h.ordered c h1 h2)

/-- The root of a heap is the least of the queue (R132: its consequence). -/
theorem root_least {sc : Scratch} (ho : OrderedFrom sc.node sc.hn 0 sc.heap) (i : Nat) (hi : i < sc.hn) :
    NotAfter sc.node (heapGet sc.heap 0) (heapGet sc.heap i) := by
  induction i using Nat.strong_induction_on with
  | _ i ih =>
    rcases Nat.eq_zero_or_pos i with rfl | hpos
    · exact notAfter_refl _ _
    · exact notAfter_trans (ih ((i - 1) / 2) (by omega) (by omega)) (ho i hpos hi (Nat.zero_le _))

theorem root_least_mem {sc : Scratch} (hroom : sc.hn ≤ 256) (ho : OrderedFrom sc.node sc.hn 0 sc.heap) :
    ∀ j ∈ sc.queue, NotAfter sc.node (heapGet sc.heap 0) j := by
  intro j hj
  obtain ⟨i, hi, rfl⟩ := List.getElem_of_mem hj
  rw [queue_getElem]
  exact root_least ho i (by rwa [queue_length hroom] at hi)

/-! ### PQ_INSERT (R136) -/

theorem pqInsert_eq {sc : Scratch} (n : NodeIdx) (h : sc.hn < 256) :
    pqInsert n sc = .ok { sc with
      heap := siftUp sc.node sc.hn (heapSet sc.heap sc.hn n) sc.hn
      hn := sc.hn + 1 } := by simp [pqInsert, h]

/-- The queue after an insertion. -/
theorem pqInsert_perm (node : Vector Node 511) (h : Vector NodeIdx 256) {hn : Nat} (n : NodeIdx)
    (hhn : hn < 256) :
    ((siftUp node hn (heapSet h hn n) hn).toList.take (hn + 1)).Perm (n :: h.toList.take hn) := by
  refine (siftUp_perm node (by omega) _ _ (by omega)).trans ?_
  rw [heapSet_toList, List.take_succ_eq_append_getElem (by simp; omega)]
  rw [List.getElem_set_self, List.take_set_of_le (le_refl _)]
  exact List.perm_append_comm

theorem pqInsert_ordered (node : Vector Node 511) (h : Vector NodeIdx 256) {hn : Nat} (n : NodeIdx)
    (hhn : hn < 256) (ho : OrderedFrom node hn 0 h) :
    OrderedFrom node (hn + 1) 0 (siftUp node hn (heapSet h hn n) hn) := by
  refine siftUp_ordered node (by omega) _ _ _ (by omega) (le_refl _) ?_ ?_
  · intro c h1 h2 h3
    rw [heapGet_heapSet_ne _ _ (by omega), heapGet_heapSet_ne _ _ (by omega)]
    exact ho c h1 (by omega) (Nat.zero_le _)
  · intro c h1 h2 h3 h4; omega

/-! ### PQ_EXTRACT_MIN (R137) -/

/-- HEAP after an extraction that leaves `hn` nodes. -/
def extractHeap (node : Vector Node 511) (h : Vector NodeIdx 256) (hn : Nat) : Vector NodeIdx 256 :=
  if 0 < hn then siftDown node hn hn (heapSet h 0 (heapGet h hn)) 0 else h

theorem pqExtractMin_eq {sc : Scratch} (h : 0 < sc.hn) :
    pqExtractMin sc = .ok { sc with
      ret := heapGet sc.heap 0
      heap := extractHeap sc.node sc.heap (sc.hn - 1)
      hn := sc.hn - 1 } := by
  simp [pqExtractMin, extractHeap, show sc.hn ≠ 0 by omega]

/-- Taking the head out of the first `k + 2` elements and moving the last of them to its place. -/
theorem take_perm_moveLast {α : Type} (l : List α) {k : Nat} (hk : k + 1 < l.length) :
    (l.take (k + 2)).Perm (l[0] :: (l.set 0 l[k + 1]).take (k + 1)) := by
  cases l with
  | nil => simp at hk
  | cons x l =>
    simp only [List.take_succ_cons, List.getElem_cons_zero, List.getElem_cons_succ, List.set_cons_zero]
    refine List.Perm.cons _ ?_
    rw [List.take_succ_eq_append_getElem (by simp at hk; omega)]
    exact List.perm_append_comm

theorem extractHeap_perm (node : Vector Node 511) (h : Vector NodeIdx 256) {hn : Nat} (hhn : hn < 256) :
    (h.toList.take (hn + 1)).Perm (heapGet h 0 :: (extractHeap node h hn).toList.take hn) := by
  unfold extractHeap
  split
  · next hpos =>
    refine List.Perm.trans ?_ (List.Perm.cons _ (siftDown_perm node (by omega) _ _ _).symm)
    rw [heapSet_toList]
    obtain ⟨k, rfl⟩ : ∃ k, hn = k + 1 := ⟨hn - 1, by omega⟩
    have hl : h.toList.length = 256 := by simp
    have h0 : heapGet h 0 = h.toList[0] := by rw [heapGet_eq h (by omega)]; rfl
    have hk : heapGet h (k + 1) = h.toList[k + 1] := by rw [heapGet_eq h (by omega)]; rfl
    rw [h0, hk]
    exact take_perm_moveLast h.toList (by omega)
  · next hpos =>
    obtain rfl : hn = 0 := by omega
    rw [List.take_succ_eq_append_getElem (by simp), heapGet_eq h (by omega)]
    simp

theorem extractHeap_ordered (node : Vector Node 511) (h : Vector NodeIdx 256) {hn : Nat} (hhn : hn < 256)
    (ho : OrderedFrom node (hn + 1) 0 h) : OrderedFrom node hn 0 (extractHeap node h hn) := by
  unfold extractHeap
  split
  · refine siftDown_ordered node (by omega) _ _ _ (le_refl 0) (by omega) ⟨?_, ?_⟩
    · intro c h1 h2 h3 h4
      rw [heapGet_heapSet_ne _ _ (by omega), heapGet_heapSet_ne _ _ (by omega)]
      exact ho c h1 (by omega) (Nat.zero_le _)
    · intro c _ _ _ h4; omega
  · intro c h1 h2; omega

/-! ### HEAP at and beyond HN -/

/-- Two heaps that hold the same at position `n` and beyond: no operation of the queue reads or writes there
once `n` is past the entries it works on. -/
def SameFrom (n : Nat) (g h : Vector NodeIdx 256) : Prop := ∀ j, n ≤ j → heapGet g j = heapGet h j

theorem heapSwap_same (h : Vector NodeIdx 256) {n i j : Nat} (hi : i < n) (hj : j < n) (hn : n ≤ 256) :
    SameFrom n (heapSwap h i j) h := by
  intro k hk
  rw [heapGet_heapSwap _ (by omega) (by omega), if_neg (by omega), if_neg (by omega)]

theorem siftDown_same (node : Vector Node 511) {hn : Nat} (hhn : hn ≤ 256) (fuel : Nat)
    (h : Vector NodeIdx 256) (i : Nat) : SameFrom hn (siftDown node hn fuel h i) h := by
  induction fuel generalizing h i with
  | zero => exact fun _ _ => rfl
  | succ fuel ih =>
    unfold siftDown
    simp only
    split
    · exact fun _ _ => rfl
    · next hm =>
      obtain ⟨hspec | ⟨h1, h2, -⟩, -⟩ := siftTarget_spec node hn h i
      · exact absurd hspec hm
      · exact fun j hj => (ih _ _ j hj).trans (heapSwap_same h (by omega) h1 hhn j hj)

theorem siftUp_same (node : Vector Node 511) {n : Nat} (hn : n ≤ 256) (fuel : Nat) (h : Vector NodeIdx 256)
    {i : Nat} (hi : i < n) : SameFrom n (siftUp node fuel h i) h := by
  induction fuel generalizing h i with
  | zero => exact fun _ _ => rfl
  | succ fuel ih =>
    unfold siftUp
    split
    · exact fun j hj => (ih _ (by omega) j hj).trans (heapSwap_same h hi (by omega) hn j hj)
    · exact fun _ _ => rfl

theorem heapify_same (node : Vector Node 511) {hn : Nat} (hhn : hn ≤ 256) (k : Nat) (h : Vector NodeIdx 256) :
    SameFrom hn (heapify node hn k h) h := by
  induction k generalizing h with
  | zero => exact fun _ _ => rfl
  | succ k ih => exact fun j hj => (ih _ j hj).trans (siftDown_same node hhn _ _ _ j hj)

theorem insertHeap_same (node : Vector Node 511) (h : Vector NodeIdx 256) {hn : Nat} (n : NodeIdx)
    (hhn : hn < 256) : SameFrom (hn + 1) (siftUp node hn (heapSet h hn n) hn) h := by
  intro j hj
  rw [siftUp_same node (by omega) _ _ (by omega) j hj, heapGet_heapSet_ne _ _ (by omega)]

theorem extractHeap_same (node : Vector Node 511) (h : Vector NodeIdx 256) {hn : Nat} (hhn : hn < 256) :
    SameFrom hn (extractHeap node h hn) h := by
  intro j hj
  unfold extractHeap
  split
  · rw [siftDown_same node (by omega) _ _ _ j hj, heapGet_heapSet_ne _ _ (by omega)]
  · rfl

end Sys2Proof.Machine
end

