-- ==== Sys2Proof/Laws/TreeBuilder.lean ====
section
/-! SUPPORT. What FREQ_COUNT, PQ_BUILD, TB_MERGE and TB_BUILD do: the trees the node table stands for
(spec/40_priority_queue.md R135; spec/41_tree_builder.md R150 to R154). -/

namespace Sys2Proof.Machine

/-! ### FREQ_COUNT (R201) -/

theorem count_loop (buf : List Byte) (f : Vector Nat 256) (s : Byte) :
    symGet (buf.foldl (fun f b => symSet f b (symGet f b + 1)) f) s = symGet f s + buf.count s := by
  induction buf generalizing f with
  | nil => simp
  | cons b bs ih =>
    rw [List.foldl_cons, ih, symGet_symSet, List.count_cons]
    by_cases h : b = s
    · subst h; simp; omega
    · simp [h]

@[simp] theorem freqCount_freq (buf : List Byte) (sc : Scratch) (s : Byte) :
    symGet (freqCount buf sc).freq s = buf.count s := by
  simp [freqCount, count_loop]

/-! ### PQ_BUILD (R135) -/

/-- Scratch with the tables and counters of the tree builder replaced. -/
def Scratch.withTree (sc : Scratch) (node : Vector Node 511) (nn : Nat) (heap : Vector NodeIdx 256)
    (hn : Nat) : Scratch := { sc with node := node, nn := nn, heap := heap, hn := hn }

/-- The symbols of `ss` that FREQ counts at least once. -/
def presentIn (freq : Vector Nat 256) (ss : List Byte) : List Byte :=
  ss.filter fun s => decide (1 ≤ symGet freq s)

theorem presentIn_cons (freq : Vector Nat 256) (s : Byte) (ss : List Byte) :
    presentIn freq (s :: ss) = if 1 ≤ symGet freq s then s :: presentIn freq ss else presentIn freq ss := by
  simp [presentIn, List.filter_cons]

/-- The first loop of PQ_BUILD over the symbols `ss`. -/
theorem addLeaf_loop (ss : List Byte) (sc : Scratch) (hk : sc.hn = sc.nn)
    (hroom : sc.nn + (presentIn sc.freq ss).length ≤ 256) :
    ∃ node heap,
      ss.foldl addLeaf sc = sc.withTree node (sc.nn + (presentIn sc.freq ss).length) heap
        (sc.nn + (presentIn sc.freq ss).length) ∧
      (∀ i, (hi : i < (presentIn sc.freq ss).length) →
        nodeGet node (nodeIdx (sc.nn + i)) =
          ⟨true, (presentIn sc.freq ss)[i], symGet sc.freq (presentIn sc.freq ss)[i], 0, 0⟩ ∧
        heapGet heap (sc.nn + i) = nodeIdx (sc.nn + i)) ∧
      (∀ j : NodeIdx, j.val < sc.nn → nodeGet node j = nodeGet sc.node j) ∧
      (∀ j, j < sc.nn → heapGet heap j = heapGet sc.heap j) ∧
      (∀ j : NodeIdx, sc.nn + (presentIn sc.freq ss).length ≤ j.val → nodeGet node j = nodeGet sc.node j) ∧
      SameFrom (sc.nn + (presentIn sc.freq ss).length) heap sc.heap := by
  induction ss generalizing sc with
  | nil =>
    refine ⟨sc.node, sc.heap, ?_, ?_, fun _ _ => rfl, fun _ _ => rfl, fun _ _ => rfl, fun _ _ => rfl⟩
    · simp only [presentIn, List.filter_nil, List.length_nil, Nat.add_zero, List.foldl_nil, Scratch.withTree]
      conv_rhs => rw [← hk]
      cases sc; simp_all
    · intro i hi; simp [presentIn] at hi
  | cons s ss ih =>
    rw [List.foldl_cons]
    rw [presentIn_cons] at hroom ⊢
    by_cases hs : 1 ≤ symGet sc.freq s
    · simp only [if_pos hs] at hroom ⊢
      simp only [List.length_cons] at hroom ⊢
      have hstep : addLeaf sc s = sc.withTree
          (nodeSet sc.node (nodeIdx sc.nn) ⟨true, s, symGet sc.freq s, 0, 0⟩) (sc.nn + 1)
          (heapSet sc.heap sc.hn (nodeIdx sc.nn)) (sc.hn + 1) := by
        simp [addLeaf, hs, Scratch.withTree]
      obtain ⟨node, heap, h1, h2, h3, h4, h5, h6⟩ := ih (addLeaf sc s)
        (by rw [hstep]; simp [Scratch.withTree, hk]) (by rw [hstep]; simp only [Scratch.withTree]; omega)
      rw [hstep] at h1 h2 h3 h4 h5 h6
      simp only [Scratch.withTree] at h1 h2 h3 h4 h5 h6
      refine ⟨node, heap, ?_, ?_, ?_, ?_, ?_, ?_⟩
      · rw [hstep]; simp only [Scratch.withTree]; rw [h1]
        simp only [Nat.add_assoc, Nat.add_comm 1]
      · rintro (_ | i) hi
        · simp only [Nat.add_zero, List.getElem_cons_zero]
          constructor
          · rw [h3 _ (by rw [nodeIdx_val (by omega)]; omega), nodeGet_nodeSet_self]
          · rw [h4 _ (by omega), hk, heapGet_heapSet_self _ _ (by omega)]
        · obtain ⟨g1, g2⟩ := h2 i (by omega)
          rw [show sc.nn + 1 + i = sc.nn + (i + 1) by omega] at g1 g2
          exact ⟨by simpa using g1, g2⟩
      · intro j hj
        rw [h3 j (by omega), nodeGet_nodeSet_ne]
        intro e; rw [← e, nodeIdx_val (by omega)] at hj; omega
      · intro j hj
        rw [h4 j (by omega), heapGet_heapSet_ne _ _ (by omega)]
      · intro j hj
        rw [h5 j (by omega), nodeGet_nodeSet_ne]
        intro e; rw [← e, nodeIdx_val (by omega)] at hj; omega
      · intro j hj
        rw [h6 j (by omega), heapGet_heapSet_ne _ _ (by omega)]
    · simp only [if_neg hs] at hroom ⊢
      have hstep : addLeaf sc s = sc := by simp [addLeaf, hs]
      rw [hstep]
      exact ih sc hk hroom

theorem presentIn_length_le (freq : Vector Nat 256) : (presentIn freq symbols).length ≤ 256 := by
  rw [← symbols_length]; exact List.length_filter_le _ _

/-- What PQ_BUILD leaves (R135): one leaf per present symbol in ascending order, all of them queued, the
heap in order. -/
theorem pqBuild_spec (sc : Scratch) :
    ∃ node heap,
      pqBuild sc = sc.withTree node (presentIn sc.freq symbols).length heap
        (presentIn sc.freq symbols).length ∧
      (∀ i, (hi : i < (presentIn sc.freq symbols).length) →
        nodeGet node (nodeIdx i) =
          ⟨true, (presentIn sc.freq symbols)[i], symGet sc.freq (presentIn sc.freq symbols)[i], 0, 0⟩) ∧
      ((heap.toList.take (presentIn sc.freq symbols).length).Perm
        ((List.range (presentIn sc.freq symbols).length).map nodeIdx)) ∧
      OrderedFrom node (presentIn sc.freq symbols).length 0 heap ∧
      (∀ j : NodeIdx, (presentIn sc.freq symbols).length ≤ j.val → nodeGet node j = nodeGet sc.node j) ∧
      SameFrom (presentIn sc.freq symbols).length heap sc.heap := by
  have hle := presentIn_length_le sc.freq
  obtain ⟨node, heap, h1, h2, -, -, h5, h6⟩ := addLeaf_loop symbols { sc with nn := 0, hn := 0 } rfl
    (by simpa using hle)
  simp only [Nat.zero_add] at h1 h2 h5 h6
  generalize presentIn sc.freq symbols = ps at *
  have hq : heap.toList.take ps.length = (List.range ps.length).map nodeIdx := by
    apply List.ext_getElem (by simp [hle])
    intro i hi1 hi2
    rw [take_getElem, (h2 i (by simpa using hi2)).2]
    simp
  refine ⟨node, heapify node ps.length (ps.length / 2) heap, ?_, fun i hi => (h2 i (by omega)).1, ?_, ?_, h5,
    fun j hj => (heapify_same node hle _ _ j hj).trans (h6 j hj)⟩
  · simp only [pqBuild]; rw [h1]; rfl
  · rw [← hq]; exact heapify_perm node hle _ _
  · exact heapify_ordered node hle _ _ fun c h1 h2 h3 => by omega

/-! ### TB_MERGE (R151) -/

theorem mergeWeight_of_lt {c : Config} {a b : Nat} (h : a + b < c.limit) : mergeWeight c a b = a + b :=
  if_pos h

theorem mergeWeight_lt (c : Config) (a b : Nat) : mergeWeight c a b < c.limit := by
  unfold mergeWeight
  split
  · assumption
  · exact Nat.mod_lt _ (Nat.two_pow_pos _)

/-- What TB_MERGE does when its precondition holds and NODE has room (R151). -/
theorem tbMerge_eq (c : Config) (sc : Scratch) (h2 : 2 ≤ sc.hn) (hroom : sc.hn ≤ 256) (hnn : sc.nn < 511) :
    ∃ l r heap Q,
      sc.queue.Perm (l :: r :: Q) ∧
      (heap.toList.take (sc.hn - 1)).Perm (nodeIdx sc.nn :: Q) ∧
      l = heapGet sc.heap 0 ∧
      SameFrom (sc.hn - 1) heap sc.heap ∧
      (OrderedFrom sc.node sc.hn 0 sc.heap → (∀ j ∈ r :: Q, NotAfter sc.node l j) ∧
        (∀ j ∈ Q, NotAfter sc.node r j)) ∧
      (OrderedFrom sc.node sc.hn 0 sc.heap → (∀ i ∈ sc.queue, i.val < sc.nn) →
        OrderedFrom (nodeSet sc.node (nodeIdx sc.nn)
          ⟨false, 0, mergeWeight c (nodeGet sc.node l).weight (nodeGet sc.node r).weight, l, r⟩) (sc.hn - 1) 0 heap) ∧
      tbMerge c sc = .ok { sc.withTree
        (nodeSet sc.node (nodeIdx sc.nn)
          ⟨false, 0, mergeWeight c (nodeGet sc.node l).weight (nodeGet sc.node r).weight, l, r⟩)
        (sc.nn + 1) heap (sc.hn - 1) with ret := r } := by
  obtain ⟨k, hk⟩ : ∃ k, sc.hn = k + 2 := ⟨sc.hn - 2, by omega⟩
  let l := heapGet sc.heap 0
  let h1 := extractHeap sc.node sc.heap (k + 1)
  let r := heapGet h1 0
  let h2' := extractHeap sc.node h1 k
  let node := nodeSet sc.node (nodeIdx sc.nn)
    ⟨false, 0, mergeWeight c (nodeGet sc.node l).weight (nodeGet sc.node r).weight, l, r⟩
  have p1 : sc.queue.Perm (l :: h1.toList.take (k + 1)) := by
    rw [Scratch.queue, hk]; exact extractHeap_perm sc.node sc.heap (by omega)
  have p2 : (h1.toList.take (k + 1)).Perm (r :: h2'.toList.take k) :=
    extractHeap_perm sc.node h1 (by omega)
  have pq : sc.queue.Perm (l :: r :: h2'.toList.take k) := p1.trans (p2.cons _)
  refine ⟨l, r, siftUp node k (heapSet h2' k (nodeIdx sc.nn)) k, h2'.toList.take k, pq, ?_, rfl, ?_, ?_, ?_,
    ?_⟩
  · rw [hk]; exact pqInsert_perm node h2' _ (by omega)
  · intro j hj
    rw [insertHeap_same node h2' _ (by omega) j (by omega), extractHeap_same sc.node h1 (by omega) j (by omega),
      extractHeap_same sc.node sc.heap (by omega) j (by omega)]
  · intro ho
    rw [hk] at ho
    have o1 := extractHeap_ordered sc.node sc.heap (by omega) ho
    constructor
    · intro j hj
      refine root_least_mem (sc := sc) hroom (by rw [hk]; exact ho) j ?_
      exact pq.mem_iff.mpr (List.mem_cons_of_mem _ hj)
    · intro j hj
      have := root_least_mem (sc := { sc with heap := h1, hn := k + 1 }) (by simp only; omega) o1 j
      exact this (p2.mem_iff.mpr (List.mem_cons_of_mem _ hj))
  · intro ho hlt
    rw [hk] at ho
    have o2 := extractHeap_ordered sc.node h1 (by omega) (extractHeap_ordered sc.node sc.heap (by omega) ho)
    rw [hk]
    refine pqInsert_ordered node h2' _ (by omega) ?_
    intro c hc1 hc2 hc3
    have same : ∀ x, x < k → nodeGet node (heapGet h2' x) = nodeGet sc.node (heapGet h2' x) := by
      intro x hx
      refine nodeGet_nodeSet_ne _ _ fun e => ?_
      have hm : heapGet h2' x ∈ sc.queue := by
        refine pq.mem_iff.mpr (List.mem_cons_of_mem _ (List.mem_cons_of_mem _ ?_))
        have hx' : x < (h2'.toList.take k).length := by simp; omega
        rw [← take_getElem h2' hx']; exact List.getElem_mem _
      have := hlt _ hm
      rw [← e, nodeIdx_val hnn] at this
      omega
    have := o2 c hc1 hc2 hc3
    rw [notAfter_iff] at this ⊢
    rwa [same _ hc2, same _ (by omega)]
  · have e1 : pqExtractMin sc = .ok { sc with ret := l, heap := h1, hn := k + 1 } := by
      rw [pqExtractMin_eq (by omega), hk]; rfl
    have e2 : pqExtractMin { sc with ret := l, heap := h1, hn := k + 1 }
        = .ok { sc with ret := r, heap := h2', hn := k } := by
      rw [pqExtractMin_eq (by simp)]; rfl
    rw [tbMerge, e1]
    simp only [bind, Except.bind, e2, addInternal]
    rw [if_pos hnn]
    show pqInsert (nodeIdx sc.nn) { sc with node := node, nn := sc.nn + 1, heap := h2', hn := k, ret := r } = _
    rw [pqInsert_eq _ (by simp only; omega)]
    simp only [Scratch.withTree, hk]
    rfl

/-- TB_MERGE with fewer than two nodes queued raises EmptyQueue (R151, R137). -/
theorem tbMerge_empty (c : Config) (sc : Scratch) (h : sc.hn < 2) :
    tbMerge c sc = .error (.raised .emptyQueue) := by
  unfold tbMerge
  rcases Nat.eq_zero_or_pos sc.hn with h0 | h1
  · simp [pqExtractMin, h0, bind, Except.bind]
  · obtain h1 : sc.hn = 1 := by omega
    rw [pqExtractMin_eq (by omega), h1]
    simp [pqExtractMin, bind, Except.bind]

/-! ### Trees -/

theorem HTree.weight_eq (t : HTree) : t.weight = (t.leaves.map (·.2)).sum := by
  induction t with
  | leaf s w => simp [weight, leaves]
  | node l r ihl ihr => simp [weight, leaves, ihl, ihr]

theorem HTree.leaves_pos (t : HTree) : 1 ≤ t.leaves.length := by
  induction t with
  | leaf s w => simp [leaves]
  | node l r ihl ihr => simp [leaves]; omega

theorem HTree.depth_lt (t : HTree) : t.depth < t.leaves.length := by
  induction t with
  | leaf s w => simp [depth, leaves]
  | node l r ihl ihr =>
    have := l.leaves_pos
    have := r.leaves_pos
    simp only [depth, leaves, List.length_append]; omega

theorem Rep.lt {node : Vector Node 511} {nn : Nat} {i : NodeIdx} {t : HTree} (h : Rep node nn i t) :
    i.val < nn := by cases h <;> assumption

theorem Rep.weight {node : Vector Node 511} {nn : Nat} {i : NodeIdx} {t : HTree} (h : Rep node nn i t) :
    (nodeGet node i).weight = t.weight := by
  cases h with
  | leaf => rfl
  | node _ l r hi hl hw => exact hw

/-- Writing the next entry changes no tree. -/
theorem Rep.write {node : Vector Node 511} {nn : Nat} (hnn : nn < 511) (x : Node) {i : NodeIdx} {t : HTree}
    (h : Rep node nn i t) : Rep (nodeSet node (nodeIdx nn) x) (nn + 1) i t := by
  have same : ∀ i : NodeIdx, i.val < nn → nodeGet (nodeSet node (nodeIdx nn) x) i = nodeGet node i := by
    intro i hi
    refine nodeGet_nodeSet_ne _ _ fun e => ?_
    rw [← e, nodeIdx_val hnn] at hi
    omega
  induction h with
  | leaf i hi hl =>
    rw [← same i hi]
    exact .leaf i (by omega) (by rw [same i hi]; exact hl)
  | node i l r hi hl hw _ _ ihl ihr =>
    exact .node i l r (by omega) (by rw [same i hi]; exact hl) (by rw [same i hi]; exact hw)
      (by rw [same i hi]; exact ihl) (by rw [same i hi]; exact ihr)

/-! ### The queue as a forest -/

theorem forest_hn_le {sc : Scratch} {L : List (Byte × Nat)} (hf : Forest sc L) (h256 : sc.hn ≤ 256) :
    sc.hn ≤ L.length := by
  obtain ⟨ts, h1, h2⟩ := hf.trees
  rw [← h2.length_eq, ← queue_length h256, h1.length_eq]
  clear h1 h2
  induction ts with
  | nil => simp
  | cons t ts ih =>
    have := t.leaves_pos
    simp only [List.length_cons, List.flatMap_cons, List.length_append]; omega

/-- One merge keeps the forest and leaves the rest of scratch alone. -/
theorem tbMerge_forest (c : Config) {sc : Scratch} {L : List (Byte × Nat)} (hf : Forest sc L)
    (h2 : 2 ≤ sc.hn) (h256 : sc.hn ≤ 256) (hw : (L.map (·.2)).sum < c.limit) :
    ∃ node heap r, tbMerge c sc =
        .ok { sc.withTree node (sc.nn + 1) heap (sc.hn - 1) with ret := r } ∧
      Forest (sc.withTree node (sc.nn + 1) heap (sc.hn - 1)) L ∧
      (sc.hn = 2 → heapGet heap 0 = nodeIdx sc.nn) := by
  have hle := forest_hn_le hf h256
  have hc := hf.count
  have hr := hf.room
  have hnn : sc.nn < 511 := by omega
  obtain ⟨l, r, heap, Q, hp, hp', -, -, -, -, he⟩ := tbMerge_eq c sc h2 h256 hnn
  obtain ⟨ts, ht1, ht2⟩ := hf.trees
  obtain ⟨ts', ht', hperm⟩ := List.perm_comp_forall₂ hp.symm ht1
  rcases ts' with _ | ⟨tl, _ | ⟨tr, us⟩⟩
  · simp at ht'
  · simp at ht'
  obtain ⟨hl, ht''⟩ := List.forall₂_cons.mp ht'
  obtain ⟨hrr, hQ⟩ := List.forall₂_cons.mp ht''
  have hleaves : ((HTree.node tl tr :: us).flatMap HTree.leaves).Perm L := by
    refine List.Perm.trans ?_ ht2
    have := hperm.flatMap_right HTree.leaves
    simpa [HTree.leaves] using this
  have hwsum : (nodeGet sc.node l).weight + (nodeGet sc.node r).weight ≤ (L.map (·.2)).sum := by
    rw [hl.weight, hrr.weight, ← (hleaves.map (·.2)).sum_eq, List.flatMap_cons, List.map_append,
      List.sum_append, HTree.leaves, List.map_append, List.sum_append, ← HTree.weight_eq, ← HTree.weight_eq]
    omega
  rw [mergeWeight_of_lt (by omega)] at he
  refine ⟨_, heap, r, he, ⟨?_, ?_, hf.room, ?_⟩, ?_⟩
  · have hnew : List.Forall₂ (Rep (nodeSet sc.node (nodeIdx sc.nn)
        ⟨false, 0, (nodeGet sc.node l).weight + (nodeGet sc.node r).weight, l, r⟩) (sc.nn + 1))
        (nodeIdx sc.nn :: Q) (HTree.node tl tr :: us) := by
      refine .cons ?_ (hQ.imp fun _ _ h => h.write hnn _)
      refine .node _ tl tr ?_ ?_ ?_ ?_ ?_
      · rw [nodeIdx_val hnn]; omega
      all_goals rw [nodeGet_nodeSet_self]
      · simp only; rw [hl.weight, hrr.weight]
      · exact hl.write hnn _
      · exact hrr.write hnn _
    obtain ⟨vs, hv1, hv2⟩ := List.perm_comp_forall₂ hp' hnew
    exact ⟨vs, hv1, (hv2.flatMap_right HTree.leaves).trans hleaves⟩
  · simp only [Scratch.withTree]; omega
  · simp only [Scratch.withTree]; omega
  · intro h
    have hl := hp'.length_eq
    rw [h] at hl hp'
    obtain rfl : Q = [] := by
      cases Q with
      | nil => rfl
      | cons _ _ => simp at hl
    have hm := hp'.mem_iff (a := heapGet heap 0)
    have h1 : 0 < (heap.toList.take (2 - 1)).length := by simp
    rw [← take_getElem heap h1] at hm ⊢
    simpa using hm.mp (List.getElem_mem h1)

/-! ### TB_BUILD (R152) -/

/-- The loop of TB_BUILD ends with one tree in the queue. -/
theorem mergeAll_forest (c : Config) (fuel : Nat) {sc : Scratch} {L : List (Byte × Nat)} (hf : Forest sc L)
    (h256 : sc.hn ≤ 256) (hw : (L.map (·.2)).sum < c.limit) (hfuel : sc.hn ≤ fuel + 1) :
    ∃ node heap r, mergeAll c fuel sc =
        .ok { sc.withTree node (sc.nn + (sc.hn - 1)) heap 1 with ret := r } ∧
      Forest (sc.withTree node (sc.nn + (sc.hn - 1)) heap 1) L ∧
      (2 ≤ sc.hn → heapGet heap 0 = nodeIdx (sc.nn + (sc.hn - 2))) := by
  induction fuel generalizing sc with
  | zero =>
    have h1 : sc.hn = 1 := by have := hf.some; omega
    refine ⟨sc.node, sc.heap, sc.ret, ?_, ?_, by omega⟩
    · simp [mergeAll, Scratch.withTree, ← h1]
    · have : sc.withTree sc.node (sc.nn + (sc.hn - 1)) sc.heap 1 = sc := by
        simp [Scratch.withTree, ← h1]
      rw [this]; exact hf
  | succ fuel ih =>
    unfold mergeAll
    by_cases h : 1 < sc.hn
    · rw [if_pos h]
      obtain ⟨node, heap, r, he, hf', hlast⟩ := tbMerge_forest c hf h h256 hw
      rw [he]
      simp only [bind, Except.bind]
      have hf'' : Forest { sc.withTree node (sc.nn + 1) heap (sc.hn - 1) with ret := r } L :=
        ⟨hf'.trees, hf'.count, hf'.room, hf'.some⟩
      obtain ⟨node', heap', r', he', hf3, hroot⟩ := ih hf'' (by simp only [Scratch.withTree]; omega)
        (by simp only [Scratch.withTree]; omega)
      refine ⟨node', heap', r', ?_, ?_, ?_⟩
      · rw [he']
        simp only [Scratch.withTree]
        congr 2
        omega
      · have : sc.nn + 1 + (sc.hn - 1 - 1) = sc.nn + (sc.hn - 1) := by omega
        obtain ⟨g1, g2, g3, g4⟩ := hf3
        simp only [Scratch.withTree, Scratch.queue, this] at g1 g2 g4 ⊢
        exact ⟨g1, g2, g3, g4⟩
      · intro _
        by_cases h3 : sc.hn = 2
        · have hstop : mergeAll c fuel { sc.withTree node (sc.nn + 1) heap (sc.hn - 1) with ret := r } =
              .ok { sc.withTree node (sc.nn + 1) heap (sc.hn - 1) with ret := r } := by
            cases fuel with
            | zero => rfl
            | succ k => rw [mergeAll, if_neg (by simp [Scratch.withTree, h3])]
          have := hstop.symm.trans he'
          simp only [Except.ok.injEq, Scratch.withTree, Scratch.mk.injEq] at this
          rw [← this.2.2.2.1, hlast h3, h3]
          rfl
        · rw [hroot (by simp only [Scratch.withTree]; omega)]
          simp only [Scratch.withTree]
          congr 1
          omega
    · have h1 : sc.hn = 1 := by have := hf.some; omega
      rw [if_neg h]
      refine ⟨sc.node, sc.heap, sc.ret, ?_, ?_, by omega⟩
      · simp [Scratch.withTree, ← h1]
      · have : sc.withTree sc.node (sc.nn + (sc.hn - 1)) sc.heap 1 = sc := by
          simp [Scratch.withTree, ← h1]
        rw [this]; exact hf

/-- TB_BUILD on a forest: ROOT is the one tree (R152, R154). -/
theorem tbBuild_forest (c : Config) {sc : Scratch} {L : List (Byte × Nat)} (hf : Forest sc L)
    (h256 : sc.hn ≤ 256) (hw : (L.map (·.2)).sum < c.limit) :
    ∃ node heap r t, tbBuild c sc =
        .ok { sc.withTree node (sc.nn + (sc.hn - 1)) heap 1 with
          ret := r, root := heapGet heap 0, rootValid := true } ∧
      Rep node (sc.nn + (sc.hn - 1)) (heapGet heap 0) t ∧ t.leaves.Perm L ∧
      (2 ≤ sc.hn → heapGet heap 0 = nodeIdx (sc.nn + (sc.hn - 2))) := by
  obtain ⟨node, heap, r, he, hf', hroot⟩ := mergeAll_forest c sc.hn hf h256 hw (by omega)
  obtain ⟨ts, h1, h2⟩ := hf'.trees
  have hq : (sc.withTree node (sc.nn + (sc.hn - 1)) heap 1).queue = [heapGet heap 0] := by
    simp only [Scratch.queue, Scratch.withTree]
    apply List.ext_getElem (by simp)
    intro i hi1 hi2
    rw [take_getElem]
    simp at hi2
    subst hi2
    simp
  rw [hq] at h1
  rcases ts with _ | ⟨t, _ | ⟨u, us⟩⟩
  · simp at h1
  · refine ⟨node, heap, r, t, ?_, by simpa [Scratch.withTree] using h1, by simpa using h2, hroot⟩
    rw [tbBuild, he]
    rfl
  · simp at h1

theorem pqExtractMin_hn {sc sc' : Scratch} (h : pqExtractMin sc = .ok sc') : sc'.hn + 1 = sc.hn := by
  unfold pqExtractMin at h
  split at h <;> cases h
  simp only; omega

theorem pqInsert_hn {n : NodeIdx} {sc sc' : Scratch} (h : pqInsert n sc = .ok sc') : sc'.hn = sc.hn + 1 := by
  unfold pqInsert at h
  split at h <;> cases h
  rfl

theorem addInternal_hn {c : Config} {l r : NodeIdx} {sc sc' : Scratch} (h : addInternal c l r sc = .ok sc') :
    sc'.hn = sc.hn := by
  unfold addInternal at h
  split at h <;> cases h
  rfl

/-- One merge takes one node off the queue. -/
theorem tbMerge_hn {c : Config} {sc sc' : Scratch} (h : tbMerge c sc = .ok sc') : sc'.hn + 1 = sc.hn := by
  unfold tbMerge at h
  rcases h1 : pqExtractMin sc with _ | sc1 <;> simp only [h1, bind, Except.bind, reduceCtorEq] at h
  rcases h2 : pqExtractMin sc1 with _ | sc2 <;> simp only [h2, reduceCtorEq] at h
  rcases h3 : addInternal c sc1.ret sc2.ret sc2 with _ | sc3 <;> simp only [h3, reduceCtorEq] at h
  have e1 := pqExtractMin_hn h1
  have e2 := pqExtractMin_hn h2
  have e3 := addInternal_hn h3
  have e4 := pqInsert_hn h
  omega

/-- TB_BUILD with two nodes or more queued begins with a merge and goes on from there (R152). -/
theorem tbBuild_merge {c : Config} {sc sc' : Scratch} (h2 : 1 < sc.hn) (h : tbMerge c sc = .ok sc') :
    tbBuild c sc = tbBuild c sc' := by
  obtain ⟨k, hk⟩ : ∃ k, sc.hn = k + 1 := ⟨sc.hn - 1, by omega⟩
  have hk' : sc'.hn = k := by have := tbMerge_hn h; omega
  have : mergeAll c sc.hn sc = mergeAll c sc'.hn sc' := by
    rw [hk, hk', mergeAll, if_pos h2, h]; rfl
  rw [tbBuild, tbBuild, this]

/-- TB_BUILD with one node queued sets ROOT (R153). -/
theorem tbBuild_one {c : Config} {sc : Scratch} (h : sc.hn = 1) :
    tbBuild c sc = .ok { sc with root := heapGet sc.heap 0, rootValid := true } := by
  have key : ∀ n, mergeAll c n sc = .ok sc := fun n => by
    cases n with
    | zero => rfl
    | succ n => rw [mergeAll, if_neg (by omega)]
  rw [tbBuild, key]; rfl

/-- PQ_BUILD leaves the forest of single leaves (R135). -/
theorem pqBuild_forest (sc : Scratch) (hne : presentIn sc.freq symbols ≠ []) :
    Forest (pqBuild sc) ((presentIn sc.freq symbols).map fun s => (s, symGet sc.freq s)) := by
  have hle := presentIn_length_le sc.freq
  have hpos := List.length_pos_of_ne_nil hne
  obtain ⟨node, heap, h1, h2, h3, -, -, -⟩ := pqBuild_spec sc
  rw [h1]
  generalize hps : presentIn sc.freq symbols = ps at *
  refine ⟨?_, by simp [Scratch.withTree]; omega, by simpa using hle, hpos⟩
  have hrep : List.Forall₂ (Rep node ps.length) ((List.range ps.length).map nodeIdx)
      (ps.map fun s => HTree.leaf s (symGet sc.freq s)) := by
    refine List.forall₂_iff_get.mpr ⟨by simp, ?_⟩
    intro i hi1 hi2
    have hi : i < ps.length := by simpa using hi2
    have := Rep.leaf (node := node) (nn := ps.length) (nodeIdx i) (by rw [nodeIdx_val (by omega)]; exact hi)
      (by rw [h2 i hi])
    rw [h2 i hi] at this
    simpa using this
  obtain ⟨ts, ht1, ht2⟩ := List.perm_comp_forall₂ h3 hrep
  refine ⟨ts, ht1, (ht2.flatMap_right HTree.leaves).trans ?_⟩
  clear * -
  induction ps with
  | nil => rfl
  | cons p ps ih => simpa [HTree.leaves] using ih

end Sys2Proof.Machine
end

