-- ==== Sys2Proof/Laws/CodeAssigner.lean ====
section
/-! SUPPORT. What CA_ASSIGN does on any node table and on one that stands for a tree, and that the codes it
assigns to a tree are a prefix code (spec/42_code_assigner.md R170 to R175). -/

namespace Sys2Proof.Machine

theorem HTree.paths_symbols (t : HTree) (path : Bits) :
    (t.paths path).map (·.1) = t.leaves.map (·.1) := by
  induction t generalizing path with
  | leaf s w => rfl
  | node l r ihl ihr => simp [paths, leaves, ihl, ihr]

theorem HTree.codes_symbols (t : HTree) : t.codes.map (·.1) = t.leaves.map (·.1) := by
  cases t with
  | leaf s w => rfl
  | node l r => exact paths_symbols _ _

/-- A path below `path` extends it by at most the tree's depth. -/
theorem HTree.paths_extend (t : HTree) (path : Bits) :
    ∀ e ∈ t.paths path, ∃ b, e.2 = path ++ b ∧ b.length ≤ t.depth := by
  induction t generalizing path with
  | leaf s w => intro e he; simp [paths] at he; exact ⟨[], by simp [he], by simp⟩
  | node l r ihl ihr =>
    intro e he
    rcases List.mem_append.mp he with he | he
    · obtain ⟨b, hb, hl⟩ := ihl _ e he
      exact ⟨false :: b, by simp [hb], by simp [depth]; omega⟩
    · obtain ⟨b, hb, hl⟩ := ihr _ e he
      exact ⟨true :: b, by simp [hb], by simp [depth]; omega⟩

/-- Two bit strings of which neither is a prefix of the other. -/
def Apart (c d : Bits) : Prop := ¬ c <+: d ∧ ¬ d <+: c

theorem apart_of_split (p a b : Bits) : Apart (p ++ false :: a) (p ++ true :: b) := by
  constructor <;> rw [List.prefix_append_right_inj] <;> simp [List.cons_prefix_cons]

/-- The paths of a tree are a prefix code (R173). -/
theorem HTree.paths_apart (t : HTree) (path : Bits) :
    (t.paths path).Pairwise fun e f => Apart e.2 f.2 := by
  induction t generalizing path with
  | leaf s w => simp [paths]
  | node l r ihl ihr =>
    refine List.pairwise_append.mpr ⟨ihl _, ihr _, ?_⟩
    intro e he f hf
    obtain ⟨a, ha, -⟩ := l.paths_extend _ e he
    obtain ⟨b, hb, -⟩ := r.paths_extend _ f hf
    rw [ha, hb, List.append_assoc, List.append_assoc]
    exact apart_of_split path a b

theorem HTree.codes_apart (t : HTree) : t.codes.Pairwise fun e f => Apart e.2 f.2 := by
  cases t with
  | leaf s w => simp [codes]
  | node l r => exact paths_apart _ _

/-- Every code has at least one bit and at most `N - 1`, but the lone leaf's one bit (R9, R172). -/
theorem HTree.codes_length (t : HTree) :
    ∀ e ∈ t.codes, 1 ≤ e.2.length ∧ (e.2.length = 1 ∨ e.2.length < t.leaves.length) := by
  cases t with
  | leaf s w => simp [codes]
  | node l r =>
    intro e he
    have hd := (HTree.node l r).depth_lt
    rcases List.mem_append.mp he with he | he
    · obtain ⟨b, hb, hl⟩ := l.paths_extend _ e he
      rw [hb]; simp [depth] at hd ⊢; omega
    · obtain ⟨b, hb, hl⟩ := r.paths_extend _ e he
      rw [hb]; simp [depth] at hd ⊢; omega

/-- Write a list of codes into CODE. -/
def writeCodes (code : Vector CodeEntry 256) (es : List (Byte × Bits)) : Vector CodeEntry 256 :=
  es.foldl (fun v e => symSet v e.1 ⟨true, e.2⟩) code

theorem writeCodes_append (code : Vector CodeEntry 256) (es fs : List (Byte × Bits)) :
    writeCodes code (es ++ fs) = writeCodes (writeCodes code es) fs := List.foldl_append

theorem writeCodes_not_mem {s : Byte} {es : List (Byte × Bits)} (h : s ∉ es.map (·.1))
    (code : Vector CodeEntry 256) : symGet (writeCodes code es) s = symGet code s := by
  induction es generalizing code with
  | nil => rfl
  | cons e es ih =>
    simp only [List.map_cons, List.mem_cons, not_or] at h
    rw [writeCodes, List.foldl_cons]
    exact (ih h.2 _).trans (symGet_symSet_ne _ _ (Ne.symm h.1))

theorem writeCodes_mem {s : Byte} {b : Bits} {es : List (Byte × Bits)} (hnd : (es.map (·.1)).Nodup)
    (h : (s, b) ∈ es) (code : Vector CodeEntry 256) : symGet (writeCodes code es) s = ⟨true, b⟩ := by
  induction es generalizing code with
  | nil => simp at h
  | cons e es ih =>
    rw [List.map_cons, List.nodup_cons] at hnd
    rw [writeCodes, List.foldl_cons]
    rcases List.mem_cons.mp h with rfl | h
    · exact (writeCodes_not_mem hnd.1 _).trans (symGet_symSet_self _ _ _)
    · exact ih hnd.2 h _

theorem walk_succ (node : Vector Node 511) (room : Nat) (n : NodeIdx) (path : Bits)
    (code : Vector CodeEntry 256) (h : (nodeGet node n).leaf = false) :
    walk node (room + 1) n path code =
      (walk node room (nodeGet node n).left (path ++ [false]) code).bind
        (walk node room (nodeGet node n).right (path ++ [true])) := by
  rw [walk]; simp [h]

theorem walk_leaf (node : Vector Node 511) (room : Nat) (n : NodeIdx) (path : Bits)
    (code : Vector CodeEntry 256) (h : (nodeGet node n).leaf = true) :
    walk node room n path code = some (symSet code (nodeGet node n).sym ⟨true, path⟩) := by
  cases room <;> simp [walk, h]

/-- The walk of a tree writes its paths (R171). -/
theorem walk_rep {node : Vector Node 511} {nn : Nat} {n : NodeIdx} {t : HTree} (hr : Rep node nn n t) :
    ∀ (room : Nat) (path : Bits) (code : Vector CodeEntry 256), t.depth ≤ room →
      walk node room n path code = some (writeCodes code (t.paths path)) := by
  induction hr with
  | leaf i hi hl => intro room path code _; rw [walk_leaf _ _ _ _ _ hl]; rfl
  | node i l r hi hl hw _ _ ihl ihr =>
    intro room path code hd
    simp only [HTree.depth] at hd
    obtain ⟨k, rfl⟩ : ∃ k, room = k + 1 := ⟨room - 1, by omega⟩
    rw [walk_succ _ _ _ _ _ hl, ihl k _ _ (by omega), Option.bind_some, ihr k _ _ (by omega), HTree.paths,
      writeCodes_append]

/-- What CA_ASSIGN may leave of an entry of CODE: its bits, invalid, or a valid code of at most 255 bits. -/
def ClearedOrWritten (before after : CodeEntry) : Prop :=
  after = ⟨false, before.bits⟩ ∨ (after.valid = true ∧ after.len ≤ 255)

theorem ClearedOrWritten.len {before after : CodeEntry} (h : ClearedOrWritten before after)
    (hb : before.len ≤ 255) : after.len ≤ 255 := by
  obtain rfl | h := h
  · exact hb
  · exact h.2

theorem clearedOrWritten_symSet {code : Vector CodeEntry 256} {s : Byte} {before : CodeEntry}
    (h : ClearedOrWritten before (symGet code s)) (u : Byte) {path : Bits} (hp : path.length ≤ 255) :
    ClearedOrWritten before (symGet (symSet code u ⟨true, path⟩) s) := by
  rw [symGet_symSet]
  split
  · exact .inr ⟨rfl, hp⟩
  · exact h

/-- Whatever the nodes are, the walk writes codes that PATH can hold, and nothing else. -/
theorem walk_entry (node : Vector Node 511) (s : Byte) (before : CodeEntry) (room : Nat) :
    ∀ (n : NodeIdx) (path : Bits) (code code' : Vector CodeEntry 256), path.length + room ≤ 255 →
      ClearedOrWritten before (symGet code s) → walk node room n path code = some code' →
      ClearedOrWritten before (symGet code' s) := by
  induction room with
  | zero =>
    intro n path code code' hp hc he
    by_cases hl : (nodeGet node n).leaf = true
    · rw [walk_leaf _ _ _ _ _ hl] at he
      cases he
      exact clearedOrWritten_symSet hc _ (by omega)
    · simp [walk, hl] at he
  | succ room ih =>
    intro n path code code' hp hc he
    by_cases hl : (nodeGet node n).leaf = true
    · rw [walk_leaf _ _ _ _ _ hl] at he
      cases he
      exact clearedOrWritten_symSet hc _ (by omega)
    · rw [walk_succ _ _ _ _ _ (by simpa using hl)] at he
      obtain ⟨code1, h1, h2⟩ := Option.bind_eq_some_iff.mp he
      exact ih _ _ _ _ (by simp; omega) (ih _ _ _ _ (by simp; omega) hc h1) h2

/-- What CA_ASSIGN leaves of each entry of CODE, whatever NODE holds. -/
theorem codesFrom_entry (sc : Scratch) (root : NodeIdx) (s : Byte) :
    ClearedOrWritten (symGet sc.code s) (symGet (codesFrom sc root) s) := by
  have hclear : ClearedOrWritten (symGet sc.code s) (symGet (clearValid sc.code) s) := .inl (by simp [clearValid])
  unfold codesFrom
  split
  · exact clearedOrWritten_symSet hclear _ (by simp)
  · rcases h : walk sc.node 255 root [] (clearValid sc.code) with _ | code
    · rw [Option.getD_none, openCodes, symGet_tabulate, BitVec.ofNat_toNat, BitVec.setWidth_eq]
      split
      · exact .inr ⟨rfl, by simp [CodeEntry.len]⟩
      · exact .inl rfl
    · exact walk_entry _ _ _ _ _ _ _ _ (by simp) hclear h

/-- CODE after CA_ASSIGN has begun at the root of a tree of depth at most 255 (R171, R172). -/
theorem codesFrom_rep {sc : Scratch} {root : NodeIdx} {nn : Nat} {t : HTree} (hr : Rep sc.node nn root t)
    (hd : t.depth ≤ 255) : codesFrom sc root = writeCodes (clearValid sc.code) t.codes := by
  unfold codesFrom
  cases hr with
  | leaf _ hi hl => rw [if_pos hl]; rfl
  | node _ l r hi hl hw hleft hright =>
    rw [hl, if_neg (by simp), walk_rep (.node root l r hi hl hw hleft hright) _ _ _ hd]
    rfl

/-- CA_ASSIGN begins at ROOT where ROOT is valid, and at some node otherwise; it writes CODE and PATH alone. -/
theorem caAssign_spec (sc : Scratch) : ∃ root code, (sc.rootValid = true → root = sc.root) ∧
    caAssign sc = { sc with code := code, path := [] } ∧ ∀ s, symGet code s = symGet (codesFrom sc root) s := by
  by_cases hv : sc.rootValid = true
  · exact ⟨_, _, fun _ => rfl, by rw [caAssign, if_pos hv], fun _ => rfl⟩
  · exact ⟨_, _, fun h => absurd h hv, by rw [caAssign, if_neg hv], fun s => symGet_writtenOut _ s⟩

/-- CA_ASSIGN with a valid ROOT on a tree of depth at most 255 (R171, R172). -/
theorem caAssign_rep {sc : Scratch} {nn : Nat} {t : HTree} (hv : sc.rootValid = true)
    (hr : Rep sc.node nn sc.root t) (hd : t.depth ≤ 255) :
    caAssign sc = { sc with code := writeCodes (clearValid sc.code) t.codes, path := [] } := by
  rw [caAssign, if_pos hv, codesFrom_rep hr hd]

end Sys2Proof.Machine
end

