-- ==== Sys2Proof/Laws/CodebookSerializer.lean ====
section
/-! SUPPORT. What SYM_ENCODE, CB_WRITE, CB_PARSE, CB_CHECK and CODE_WALK do
(spec/44_codebook_serializer.md R202 to R209). -/

namespace Sys2Proof.Machine

/-! ### SYM_ENCODE (R202) -/

/-- The concatenation of the codes of the input bytes, in input order (R202). -/
def encodeBytes (code : Vector CodeEntry 256) (x : List Byte) : Bits :=
  x.flatMap fun b => (symGet code b).bits

theorem symEncode_eq (c : Config) (buf : List Byte) (sc : Scratch) :
    symEncode c buf sc =
      if (encodeBytes sc.code buf).length < c.limit then
        .ok { sc with
          bits := encodeBytes sc.code buf
          tbl := (encodeBytes sc.code buf).length
          ipos := buf.length }
      else .error (.raised .capacityExceeded) := rfl

theorem encodeBytes_length (code : Vector CodeEntry 256) (x : List Byte) :
    (encodeBytes code x).length = (x.map fun b => (symGet code b).len).sum := by
  induction x with
  | nil => rfl
  | cons b x ih => simp [encodeBytes, CodeEntry.len] at ih ⊢

/-! ### CB_WRITE (R203) -/

theorem writeEntry_loop (c : Config) (ss : List Byte) (sc : Scratch) :
    ss.foldl (writeEntry c) sc = sc.append
      ((ss.filter fun s => (symGet sc.code s).valid).flatMap fun s => entryBytes c ⟨s, (symGet sc.code s).bits⟩)
    := by
  induction ss generalizing sc with
  | nil => simp
  | cons s ss ih =>
    rw [List.foldl_cons, ih]
    by_cases h : (symGet sc.code s).valid = true
    · have : writeEntry c sc s = sc.append (entryBytes c ⟨s, (symGet sc.code s).bits⟩) := by
        simp [writeEntry, h, entryBytes, Scratch.emit, Scratch.writeSize, CodeEntry.len]
      rw [this, Scratch.append_append]
      simp [h]
    · have : writeEntry c sc s = sc := by simp [writeEntry, h]
      rw [this]
      simp [h]

/-- CB_WRITE appends header and codebook (R203). -/
theorem cbWrite_eq (c : Config) (sc : Scratch) :
    cbWrite c sc = sc.append
      (leBytes c.sz (bookOf sc.code).length ++ leBytes c.sz sc.tbl ++ (bookOf sc.code).flatMap (entryBytes c)) := by
  simp only [cbWrite]
  rw [writeEntry_loop]
  simp [Scratch.writeSize, bookOf, List.flatMap_map]

/-! ### CB_PARSE (R204) -/

theorem entryBytes_length (c : Config) (e : DecodeEntry) :
    (entryBytes c e).length = 1 + c.sz + ceil8 e.code.length := by
  simp [entryBytes]; omega

/-- One entry of a codebook at address `p` that fits the buffer (checks P2 and P3 of R204). -/
theorem parseEntries_step {c : Config} {buf : List Byte} {k p cl : Nat} {dtab : List DecodeEntry}
    (h2 : p + 1 + c.sz ≤ buf.length) (hcl : memRead buf (p + 1) c.sz = cl)
    (h3 : p + 1 + c.sz + ceil8 cl ≤ buf.length) :
    parseEntries c buf (k + 1) p dtab = parseEntries c buf k (p + 1 + c.sz + ceil8 cl)
      (dtab ++ [⟨BitVec.ofNat 8 (memRead buf p 1), unpack (memReadBytes buf (p + 1 + c.sz) (ceil8 cl)) cl⟩]) := by
  rw [parseEntries, if_neg (by omega)]
  simp only [hcl]
  rw [if_neg (by omega)]

/-- CB_PARSE reads back the entries of a codebook (R97, R99, R204). -/
theorem parseEntries_book (c : Config) (book : List DecodeEntry) (pre post : List Byte)
    (dtab : List DecodeEntry) (hlim : ∀ e ∈ book, e.code.length < c.limit) :
    parseEntries c (pre ++ book.flatMap (entryBytes c) ++ post) book.length pre.length dtab =
      .ok (dtab ++ book, pre.length + (book.flatMap (entryBytes c)).length) := by
  induction book generalizing pre dtab with
  | nil => simp [parseEntries]
  | cons e book ih =>
    rw [List.flatMap_cons, List.length_cons]
    generalize hB : pre ++ (entryBytes c e ++ book.flatMap (entryBytes c)) ++ post = B
    have hlen : B.length = pre.length + (1 + c.sz + ceil8 e.code.length) +
        ((book.flatMap (entryBytes c)).length + post.length) := by
      rw [← hB]; simp [entryBytes_length]; omega
    have hsplit0 : B = pre ++ [e.sym] ++ (leBytes c.sz e.code.length ++ pack e.code ++
        book.flatMap (entryBytes c) ++ post) := by rw [← hB]; simp [entryBytes]
    have hsplit1 : B = pre ++ [e.sym] ++ leBytes c.sz e.code.length ++ (pack e.code ++
        book.flatMap (entryBytes c) ++ post) := by rw [← hB]; simp [entryBytes]
    have hsplit2 : B = pre ++ [e.sym] ++ leBytes c.sz e.code.length ++ pack e.code ++
        (book.flatMap (entryBytes c) ++ post) := by rw [← hB]; simp [entryBytes]
    have hsym : BitVec.ofNat 8 (memRead B pre.length 1) = e.sym := by
      rw [memRead_one (by rw [hlen]; omega)]; simp only [hsplit0]; simp
    have hcl : memRead B (pre.length + 1) c.sz = e.code.length := by
      rw [hsplit1]
      refine memRead_append_leBytes (by simp) ?_
      rw [← Config.limit_eq]; exact hlim e (by simp)
    have hcode : memReadBytes B (pre.length + 1 + c.sz) (ceil8 e.code.length) = pack e.code := by
      rw [hsplit2]; exact memReadBytes_append_of_eq (by simp; omega) (by simp)
    rw [parseEntries_step (by rw [hlen]; omega) hcl (by rw [hlen]; omega), hsym, hcode, unpack_pack]
    have hnext := ih (pre ++ entryBytes c e) (dtab ++ [e]) fun e' he' => hlim e' (List.mem_cons_of_mem _ he')
    rw [show pre ++ entryBytes c e ++ book.flatMap (entryBytes c) ++ post = B by rw [← hB]; simp] at hnext
    rw [List.length_append, entryBytes_length] at hnext
    rw [show pre.length + 1 + c.sz + ceil8 e.code.length = pre.length + (1 + c.sz + ceil8 e.code.length) by omega,
      hnext]
    simp [entryBytes_length]
    omega

/-- The loop of CB_PARSE gives what `ParsesTo` relates (R204). -/
theorem parseEntries_of_parsesTo {c : Config} {buf : List Byte} {k p q : Nat} {book : List DecodeEntry}
    (h : ParsesTo c buf k p book q) (dtab : List DecodeEntry) :
    parseEntries c buf k p dtab = .ok (dtab ++ book, q) := by
  induction h generalizing dtab with
  | done p => simp [parseEntries]
  | entry k p cl book q header length bits _ ih =>
    rw [parseEntries_step header length bits, ih]
    simp

/-- Where nothing is related the loop raises MalformedContainer (R204). -/
theorem parseEntries_of_not {c : Config} {buf : List Byte} (k p : Nat) (dtab : List DecodeEntry)
    (h : ∀ book q, ¬ ParsesTo c buf k p book q) :
    parseEntries c buf k p dtab = .error (.raised .malformedContainer) := by
  induction k generalizing p dtab with
  | zero => exact absurd (.done p) (h [] p)
  | succ k ih =>
    by_cases h2 : p + 1 + c.sz ≤ buf.length
    · by_cases h3 : p + 1 + c.sz + ceil8 (memRead buf (p + 1) c.sz) ≤ buf.length
      · rw [parseEntries_step h2 rfl h3]
        exact ih _ _ fun book q hb => h _ q (.entry k p _ book q h2 rfl h3 hb)
      · rw [parseEntries, if_neg (by omega)]
        simp only
        rw [if_pos (by omega)]
    · rw [parseEntries, if_pos (by omega)]

theorem container_eq (c : Config) (book : List DecodeEntry) (payload : Bits) (rest : List Byte) :
    container c book payload ++ rest =
      (leBytes c.sz book.length ++ leBytes c.sz payload.length) ++ book.flatMap (entryBytes c) ++
        (pack payload ++ rest) := by simp [container]

/-- CB_PARSE of a container, with or without surplus bytes (R97, R108, R204). -/
theorem cbParse_container (c : Config) (book : List DecodeEntry) (payload : Bits) (rest : List Byte)
    (sc : Scratch) (hbook : book.length < c.limit) (hpay : payload.length < c.limit)
    (hlim : ∀ e ∈ book, e.code.length < c.limit) :
    cbParse c (container c book payload ++ rest) sc =
      .ok { sc with
        tbl := payload.length
        dtab := book
        ppos := 2 * c.sz + (book.flatMap (entryBytes c)).length
        ipos := 2 * c.sz + (book.flatMap (entryBytes c)).length } := by
  have hl := c.limit_eq
  have h0 : memRead (container c book payload ++ rest) 0 c.sz = book.length := by
    have := memRead_append_leBytes (xs := []) (a := 0) (n := c.sz) (v := book.length) rfl
      (zs := leBytes c.sz payload.length ++ book.flatMap (entryBytes c) ++ (pack payload ++ rest)) (by omega)
    rw [container_eq]; simpa using this
  have h1 : memRead (container c book payload ++ rest) c.sz c.sz = payload.length := by
    have := memRead_append_leBytes (xs := leBytes c.sz book.length) (a := c.sz) (n := c.sz)
      (v := payload.length) (by simp) (zs := book.flatMap (entryBytes c) ++ (pack payload ++ rest)) (by omega)
    rw [container_eq]; simpa using this
  have hlen : (container c book payload ++ rest).length =
      2 * c.sz + (book.flatMap (entryBytes c)).length + (ceil8 payload.length + rest.length) := by
    rw [container_eq]; simp only [List.length_append, leBytes_length, pack_length]; omega
  have hp := parseEntries_book c book (leBytes c.sz book.length ++ leBytes c.sz payload.length)
    (pack payload ++ rest) [] hlim
  rw [← container_eq, List.length_append, leBytes_length, leBytes_length, ← Nat.two_mul] at hp
  rw [cbParse, if_neg (by rw [hlen]; omega), h0, h1, hp]
  simp only [bind, Except.bind, List.nil_append]
  rw [if_neg (by rw [hlen]; omega)]

/-! ### CB_CHECK (R205) -/

theorem anyPrefixPair_false (codes : List Bits) :
    anyPrefixPair codes = false ↔ codes.Pairwise fun c d => ¬ c <+: d ∧ ¬ d <+: c := by
  induction codes with
  | nil => simp [anyPrefixPair]
  | cons c cs ih =>
    rw [anyPrefixPair, Bool.or_eq_false_iff, ih, List.pairwise_cons, List.any_eq_false]
    refine and_congr_left fun _ => forall₂_congr fun d _ => ?_
    rw [← isPrefix_iff, ← isPrefix_iff]
    simp

/-- `PrefixFree` compares positions, `Pairwise` the earlier with the later. -/
theorem prefixFree_iff_pairwise (codes : List Bits) :
    PrefixFree codes ↔ codes.Pairwise fun c d => ¬ c <+: d ∧ ¬ d <+: c := by
  rw [List.pairwise_iff_getElem]
  constructor
  · intro h i j hi hj hij
    rw [← isPrefix_iff, ← isPrefix_iff, h i j hi hj (by omega), h j i hj hi (by omega)]
    simp
  · intro h i j hi hj hne
    rw [← Bool.not_eq_true, isPrefix_iff]
    rcases Nat.lt_or_gt_of_ne hne with hlt | hlt
    · exact (h i j hi hj hlt).1
    · exact (h j i hj hi hlt).2

theorem cbCheck_ok {sc : Scratch} (h : Decodable sc.dtab) : cbCheck sc = .ok sc := by
  have h1 : (sc.dtab.any fun e => e.code.isEmpty) = false := by
    rw [List.any_eq_false]
    intro e he
    simpa using h.nonempty e he
  have h2 : anyPrefixPair (sc.dtab.map (·.code)) = false :=
    (anyPrefixPair_false _).mpr ((prefixFree_iff_pairwise _).mp h.prefixFree)
  simp [cbCheck, h1, h2]

theorem cbCheck_bad {sc : Scratch} (h : ¬ Decodable sc.dtab) :
    cbCheck sc = .error (.raised .inconsistentCodebook) := by
  unfold cbCheck
  split
  · rfl
  · next h1 =>
    rw [if_pos]
    by_contra h2
    refine h ⟨?_, ?_⟩
    · intro e he hc
      exact h1 (List.any_eq_true.mpr ⟨e, he, by simp [hc]⟩)
    · exact (prefixFree_iff_pairwise _).mpr ((anyPrefixPair_false _).mp (by simpa using h2))

/-! ### CODE_WALK (R206) -/

/-- In a decodable codebook at most one entry has a given code. -/
theorem Decodable.filter_code {book : List DecodeEntry} (h : Decodable book) {e : DecodeEntry}
    (he : e ∈ book) : (book.filter fun f => f.code == e.code) = [e] := by
  have hp := (prefixFree_iff_pairwise _).mp h.prefixFree
  rw [List.pairwise_map] at hp
  clear h
  induction book with
  | nil => simp at he
  | cons f book ih =>
    obtain ⟨hf, hp⟩ := List.pairwise_cons.mp hp
    rcases List.mem_cons.mp he with rfl | he
    · have : (book.filter fun f => f.code == e.code) = [] := by
        rw [List.filter_eq_nil_iff]
        intro g hg hc
        exact (hf g hg).1 (by rw [← (beq_iff_eq.mp hc)])
      rw [List.filter_cons, if_pos (by simp), this]
    · have hne : ¬ (f.code == e.code) = true := fun hc => (hf e he).1 (by rw [beq_iff_eq.mp hc])
      rw [List.filter_cons, if_neg hne, ih he hp]

theorem walkStep_none {sc : Scratch} {b : Bit}
    (h : (sc.dtab.filter fun e => e.code == sc.cand ++ [b]) = []) :
    walkStep sc b = { sc with cand := sc.cand ++ [b] } := by
  unfold walkStep; rw [h]

@[simp] theorem chooseMatch_one (e : DecodeEntry) : chooseMatch e [] = e := rfl

theorem walkStep_one {sc : Scratch} {b : Bit} {e : DecodeEntry}
    (h : (sc.dtab.filter fun e => e.code == sc.cand ++ [b]) = [e]) :
    walkStep sc b = { sc.emit e.sym with cand := [] } := by
  unfold walkStep; rw [h]; simp

/-- One turn of the walk writes CAND and appends to STAGE, nothing else (R206). -/
theorem walkStep_frame (sc : Scratch) (b : Bit) :
    ∃ cand bs, walkStep sc b = { sc with cand := cand, stage := sc.stage ++ bs } := by
  unfold walkStep
  split
  · exact ⟨sc.cand ++ [b], [], by simp⟩
  · exact ⟨[], _, rfl⟩

theorem walkBits_frame (bs : Bits) (sc : Scratch) :
    ∃ cand ys, bs.foldl walkStep sc = { sc with cand := cand, stage := sc.stage ++ ys } := by
  induction bs generalizing sc with
  | nil => exact ⟨sc.cand, [], by simp⟩
  | cons b bs ih =>
    obtain ⟨cand, ys, h1⟩ := walkStep_frame sc b
    obtain ⟨cand', ys', h2⟩ := ih { sc with cand := cand, stage := sc.stage ++ ys }
    exact ⟨cand', ys ++ ys', by rw [List.foldl_cons, h1, h2]; simp⟩

/-- Bits that complete no code are collected in CAND. -/
theorem walkBits_pending (bs : Bits) {sc : Scratch}
    (h : ∀ e ∈ sc.dtab, ∀ p, p <+: bs → p ≠ [] → e.code ≠ sc.cand ++ p) :
    bs.foldl walkStep sc = { sc with cand := sc.cand ++ bs } := by
  induction bs generalizing sc with
  | nil => simp
  | cons b bs ih =>
    have hstep : walkStep sc b = { sc with cand := sc.cand ++ [b] } := by
      refine walkStep_none ?_
      rw [List.filter_eq_nil_iff]
      intro e he hc
      exact h e he [b] (by simp [List.cons_prefix_cons]) (by simp) (beq_iff_eq.mp hc)
    rw [List.foldl_cons, hstep, ih]
    · simp
    · intro e he p hp hne
      have := h e he (b :: p) (by simpa [List.cons_prefix_cons] using hp) (by simp)
      simpa using this

/-- The bits of one code, from an empty candidate, emit its symbol (R206). -/
theorem walkBits_code {sc : Scratch} (h : Decodable sc.dtab) (hcand : sc.cand = []) {e : DecodeEntry}
    (he : e ∈ sc.dtab) (bs : Bits) : (e.code ++ bs).foldl walkStep sc = bs.foldl walkStep (sc.emit e.sym) := by
  have hp := (prefixFree_iff_pairwise _).mp h.prefixFree
  have main : ∀ (q p : Bits), q ≠ [] → p ++ q = e.code →
      (q ++ bs).foldl walkStep { sc with cand := p } = bs.foldl walkStep (sc.emit e.sym) := by
    intro q
    induction q with
    | nil => intro p hq; exact absurd rfl hq
    | cons b q ih =>
      intro p _ hpq
      rw [List.cons_append, List.foldl_cons]
      rcases q with _ | ⟨b', q⟩
      · have : walkStep { sc with cand := p } b = sc.emit e.sym := by
          rw [walkStep_one (e := e) (by simp only; rw [hpq]; exact h.filter_code he)]
          simp [Scratch.emit, Scratch.append, ← hcand]
        rw [this]
        rfl
      · have : walkStep { sc with cand := p } b = { sc with cand := p ++ [b] } := by
          refine walkStep_none ?_
          · rw [List.filter_eq_nil_iff]
            intro f hf hc
            have hc := beq_iff_eq.mp hc
            have hpre : f.code <+: e.code := by rw [hc, ← hpq]; exact ⟨b' :: q, by simp⟩
            have hfe : f.code = e.code := by
              obtain ⟨i, hi, rfl⟩ := List.getElem_of_mem hf
              obtain ⟨j, hj, rfl⟩ := List.getElem_of_mem he
              by_cases hij : i = j
              · subst hij; rfl
              · have := h.prefixFree i j (by simpa using hi) (by simpa using hj) hij
                rw [← Bool.not_eq_true, isPrefix_iff] at this
                simp only [List.getElem_map] at this
                exact absurd hpre this
            rw [hc, ← hpq] at hfe
            simp at hfe
        rw [this]
        exact ih (p ++ [b]) (by simp) (by simp [hpq])
  have := main e.code [] (h.nonempty e he) rfl
  rwa [← hcand] at this

/-- The codes of a sequence of entries emit their symbols (R206, R209). -/
theorem walkBits_codes {sc : Scratch} (h : Decodable sc.dtab) (hcand : sc.cand = []) (es : List DecodeEntry)
    (hes : ∀ e ∈ es, e ∈ sc.dtab) (bs : Bits) :
    (es.flatMap (·.code) ++ bs).foldl walkStep sc = bs.foldl walkStep (sc.append (es.map (·.sym))) := by
  induction es generalizing sc with
  | nil => simp
  | cons e es ih =>
    rw [List.flatMap_cons, List.append_assoc, walkBits_code h hcand (hes e (by simp)),
      ih (sc := sc.emit e.sym) h hcand (fun e' he' => hes e' (List.mem_cons_of_mem _ he'))]
    simp [Scratch.emit]

/-- CODE_WALK on a payload that spells entries of the codebook and then bits no code begins (R206). -/
theorem codeWalk_eq {sc : Scratch} (h : Decodable sc.dtab) (es : List DecodeEntry) (rem : Bits)
    (hes : ∀ e ∈ es, e ∈ sc.dtab) (hrem : ∀ e ∈ sc.dtab, ¬ e.code <+: rem)
    (htbl : sc.tbl ≤ sc.bits.length) (hbits : sc.bits.take sc.tbl = es.flatMap (·.code) ++ rem) :
    codeWalk sc =
      if rem = [] then
        .ok { sc with stage := sc.stage ++ es.map (·.sym), cand := [], bpos := sc.tbl }
      else .error (.raised .malformedContainer) := by
  rw [codeWalk, payloadBits_of_le htbl, hbits]
  simp only [bind, Except.bind]
  rw [walkBits_codes (sc := { sc with cand := [] }) h rfl es hes, walkBits_pending]
  · simp only [Scratch.append, List.nil_append]
    split <;> simp_all
  · intro e he p hp hne hc
    simp [Scratch.append] at hc
    exact hrem e he (hc ▸ hp)

/-- Every bit string splits into codes of a decodable book and a rest that no code begins. -/
theorem exists_split (book : List DecodeEntry) (hne : ∀ e ∈ book, e.code ≠ []) (bs : Bits) :
    ∃ (es : List DecodeEntry) (rem : Bits), (∀ e ∈ es, e ∈ book) ∧ (∀ e ∈ book, ¬ e.code <+: rem) ∧
      bs = es.flatMap (·.code) ++ rem := by
  induction hn : bs.length using Nat.strong_induction_on generalizing bs with
  | _ n ih =>
    by_cases h : ∃ e ∈ book, e.code <+: bs
    · obtain ⟨e, he, q, hq⟩ := h
      have hpos := List.length_pos_of_ne_nil (hne e he)
      have hlen := congrArg List.length hq
      rw [List.length_append] at hlen
      obtain ⟨es, rem, h1, h2, h3⟩ := ih q.length (by omega) q rfl
      refine ⟨e :: es, rem, ?_, h2, ?_⟩
      · rintro e' (_ | ⟨_, he'⟩)
        · exact he
        · exact h1 e' he'
      · rw [List.flatMap_cons, List.append_assoc, ← h3, hq]
    · exact ⟨[], bs, by simp, fun e he hp => h ⟨e, he, hp⟩, by simp⟩

end Sys2Proof.Machine
end

