-- ==== Sys2Proof/Laws/Decode.lean ====
section
/-! SUPPORT. What the decoder answers on every command byte and every select value
(spec/30_encoding.md R91, R92, R96, R100). -/

namespace Sys2Proof

/-- Every command byte: the four of R92, or reserved. -/
theorem decodeCommand_cases : ∀ c : Byte,
    (c = 0 ∧ decodeCommand c = .ok .hufEnc) ∨ (c = 1 ∧ decodeCommand c = .ok .hufDec) ∨
    (c = 2 ∧ decodeCommand c = .ok .rleEnc) ∨ (c = 3 ∧ decodeCommand c = .ok .rleDec) ∨
    (4 ≤ c.toNat ∧ decodeCommand c = .error (.reservedCommand c)) := by decide +kernel

theorem decodeCommand_ok {c : Byte} {i : Instr} (h : decodeCommand c = .ok i) :
    i.isCommand = true ∧ encode i = .cmd c ∧ c.toNat < 4 := by
  rcases decodeCommand_cases c with ⟨rfl, e⟩ | ⟨rfl, e⟩ | ⟨rfl, e⟩ | ⟨rfl, e⟩ | ⟨-, e⟩ <;> rw [e] at h <;>
    cases h <;> exact ⟨rfl, rfl, by decide⟩

theorem decodeCommand_reserved {c : Byte} (h : 4 ≤ c.toNat) :
    decodeCommand c = .error (.reservedCommand c) := by
  rcases decodeCommand_cases c with ⟨rfl, -⟩ | ⟨rfl, -⟩ | ⟨rfl, -⟩ | ⟨rfl, -⟩ | ⟨-, e⟩
  · exact absurd h (by decide)
  · exact absurd h (by decide)
  · exact absurd h (by decide)
  · exact absurd h (by decide)
  · exact e

/-- What a select value decodes to: a well-formed unit operation of that id; PQ_INSERT reads the operand. -/
theorem decodeUop_ok {id : BitVec 4} {n : BitVec 9} {i : Instr} (h : decodeUop id n = .ok i) :
    i.wf = true ∧ i.isCommand = false ∧ (∃ m, encode i = .uop id m) ∧ ∀ m, i = .pqInsert m → m = n := by
  have hk : id.toNat < 16 := id.isLt
  obtain ⟨k, hid⟩ : ∃ k, id = BitVec.ofNat 4 k ∧ k < 16 := ⟨id.toNat, by simp, hk⟩
  obtain ⟨rfl, hk'⟩ := hid
  by_cases h1 : k = 1
  · subst h1
    by_cases hn : n.toNat < 511
    · rw [show decodeUop _ n = .ok (.pqInsert n) by simp [decodeUop, hn]] at h
      cases h
      exact ⟨by simpa [Instr.wf] using hn, rfl, ⟨n, rfl⟩, fun m hm => by cases hm; rfl⟩
    · rw [show decodeUop _ n = .error (.noSuchNode n) by simp [decodeUop, hn]] at h
      cases h
  · interval_cases k <;> first
      | exact absurd rfl h1
      | (cases h; exact ⟨rfl, rfl, ⟨0, rfl⟩, fun m hm => by cases hm⟩)

end Sys2Proof
end

