-- ==== Sys2Proof/Laws/Dispatch.lean ====
section
/-! SUPPORT. What the meaning of an operation is to the rest of the machine: a unit operation run on its own, or a
command's microprogram run from initialised scratch; and everything a step can be. -/

namespace Sys2Proof.Machine

/-- The unit operation on the scratch state that an operation's meaning runs; for a command its microprogram. -/
def opOf : Instr → UnitOp
  | .hufEnc => hufEncProgram
  | .hufDec => hufDecProgram
  | .rleEnc => fun c buf sc => .ok (rleScan c buf sc)
  | .rleDec => rleExpand
  | .pqBuild => fun _ _ sc => .ok (pqBuild sc)
  | .pqInsert n => fun _ _ sc => pqInsert (Fin.ofNat 511 n.toNat) sc
  | .pqExtractMin => fun _ _ sc => pqExtractMin sc
  | .tbMerge => fun c _ sc => tbMerge c sc
  | .tbBuild => fun c _ sc => tbBuild c sc
  | .caAssign => fun _ _ sc => .ok (caAssign sc)
  | .bpPack => fun _ _ sc => bpPack sc
  | .bpUnpack => fun _ buf sc => bpUnpack buf sc
  | .freqCount => fun _ buf sc => .ok (freqCount buf sc)
  | .symEncode => symEncode
  | .cbWrite => fun c _ sc => .ok (cbWrite c sc)
  | .cbParse => cbParse
  | .cbCheck => fun _ _ sc => cbCheck sc
  | .codeWalk => fun _ _ sc => codeWalk sc
  | .rleScan => fun c buf sc => .ok (rleScan c buf sc)
  | .rleExpand => rleExpand

theorem exec_command {i : Instr} (h : i.isCommand = true) (s : State) : exec i s = runCommand (opOf i) s := by
  cases i <;> first | (simp [Instr.isCommand] at h; done) | rfl

theorem exec_unit {i : Instr} (h : i.isCommand = false) (hwf : i.wf = true) (s : State) :
    exec i s = runUop (opOf i) s := by
  cases i <;> first | (simp [Instr.isCommand] at h; done) | rfl | skip
  next n =>
    have hn : n.toNat < 511 := by simpa [Instr.wf] using hwf
    have e : (⟨n.toNat, hn⟩ : NodeIdx) = Fin.ofNat 511 n.toNat := Fin.ext (Nat.mod_eq_of_lt hn).symm
    simp only [exec, execPqInsert, dif_pos hn, e, opOf]

/-- An ill-formed operation is PQ_INSERT with the operand 511, and refused (R40). -/
theorem exec_ill_formed {i : Instr} (hwf : i.wf = false) (s : State) : exec i s = .refused .noSuchNode := by
  cases i <;> first | (simp [Instr.wf] at hwf; done) | skip
  next n =>
    have hn : ¬ n.toNat < 511 := by simpa [Instr.wf] using hwf
    simp only [exec, execPqInsert, dif_neg hn]

theorem exec_unit_ok {i : Instr} (h : i.isCommand = false) (hwf : i.wf = true) {s : State} {sc : Scratch}
    (he : opOf i s.config s.buf s.scratch = .ok sc) : exec i s = .next { s with scratch := sc } := by
  rw [exec_unit h hwf, runUop_ok he]

theorem exec_unit_raised {i : Instr} (h : i.isCommand = false) (hwf : i.wf = true) {s : State} {e : Err}
    (he : opOf i s.config s.buf s.scratch = .error (.raised e)) : exec i s = .next (s.raise e) := by
  rw [exec_unit h hwf, runUop_raised he]

theorem exec_unit_stuck {i : Instr} (h : i.isCommand = false) (hwf : i.wf = true) {s : State} {r : Fault}
    (he : opOf i s.config s.buf s.scratch = .error (.stuck r)) : exec i s = .fault r := by
  rw [exec_unit h hwf, runUop_stuck he]

/-- A command whose microprogram ends without an error leaves its output (R286). -/
theorem exec_command_ok {i : Instr} (h : i.isCommand = true) {s : State} {sc : Scratch}
    (he : opOf i s.config s.buf s.scratch.init = .ok sc) : exec i s = .next (s.output sc.stage) := by
  rw [exec_command h, runCommand_ok he]
  unfold State.commit State.output Scratch.slen
  by_cases hc : sc.stage.length ≤ s.config.cap
  · rw [if_pos hc, if_neg (by omega)]
  · rw [if_neg hc, if_pos (by omega)]

theorem exec_command_raised {i : Instr} (h : i.isCommand = true) {s : State} {e : Err}
    (he : opOf i s.config s.buf s.scratch.init = .error (.raised e)) : exec i s = .next (s.raise e) := by
  rw [exec_command h, runCommand_raised he]

/-- A step that goes on runs the selected operation, or nothing, or the next transaction. -/
theorem step_cases {s t : State} (ht : step s = .next t) :
    (∃ id n i, s.sel = some (id, n) ∧ decodeUop id n = .ok i ∧ exec i { s with sel := none } = .next t) ∨
    (s.sel = none ∧ s.script = [] ∧ t = s) ∨
    (s.sel = none ∧ ∃ op rest, s.script = op :: rest ∧ hostStep op { s with script := rest } = .next t) := by
  unfold step at ht
  split at ht
  · next id n hs =>
    unfold runSelect at ht
    split at ht
    · next i hd => exact .inl ⟨id, n, i, hs, hd, ht⟩
    · cases ht
  · next hs =>
    split at ht
    · next hsc => cases ht; exact .inr (.inl ⟨hs, hsc, rfl⟩)
    · next op rest hsc => exact .inr (.inr ⟨hs, op, rest, hsc, ht⟩)

/-- An issue that goes on is the command the byte decodes to, or IllegalCommand, and the reply. -/
theorem hIssue_cases {c : Byte} {s t : State} (ht : hIssue c s = .next t) :
    ∃ u, t = u.reply .done ∧
      ((∃ i, decodeCommand c = .ok i ∧ exec i s = .next u) ∨
        (4 ≤ c.toNat ∧ u = s.raise .illegalCommand)) := by
  unfold hIssue at ht
  split at ht <;> cases ht
  next u hu =>
  refine ⟨u, rfl, ?_⟩
  unfold dispatchCommand at hu
  split at hu
  · next i hd => exact .inl ⟨i, hd, hu⟩
  · next e hd =>
    cases hu
    refine .inr ⟨?_, rfl⟩
    rcases decodeCommand_cases c with ⟨-, e'⟩ | ⟨-, e'⟩ | ⟨-, e'⟩ | ⟨-, e'⟩ | ⟨h4, -⟩
    · rw [e'] at hd; cases hd
    · rw [e'] at hd; cases hd
    · rw [e'] at hd; cases hd
    · rw [e'] at hd; cases hd
    · exact h4

/-- A register write that goes on is an issue (R29). -/
theorem hWriteReg_next {r : BitVec 2} {v : Nat} {s t : State} (ht : hWriteReg r v s = .next t) :
    ∃ c : Byte, r = 0 ∧ v = c.toNat ∧ hIssue c s = .next t := by
  unfold hWriteReg at ht
  split at ht
  · next h0 =>
    split at ht
    · next hv => exact ⟨BitVec.ofNat 8 v, BitVec.eq_of_toNat_eq h0, by simp; omega, ht⟩
    · cases ht
  · cases ht

end Sys2Proof.Machine
end

