-- ==== Sys2Proof/Laws/Independence.lean ====
section
/-! SUPPORT. The tree builder reads no entry of NODE at or beyond NN and none of HEAP at or beyond HN: two
scratch states that agree below those counts are treated alike (spec/10_state.md R30; spec/40_priority_queue.md
R139; spec/41_tree_builder.md R155). -/

namespace Sys2Proof.Machine

/-- Two node tables with the same first `nn` entries. -/
def NodesAgree (nn : Nat) (v w : Vector Node 511) : Prop :=
  ∀ i : NodeIdx, i.val < nn → nodeGet v i = nodeGet w i

/-- Two heaps with the same first `hn` entries, all of them below `nn`. -/
def HeapsAgree (nn hn : Nat) (g h : Vector NodeIdx 256) : Prop :=
  ∀ k, k < hn → heapGet g k = heapGet h k ∧ (heapGet g k).val < nn

theorem less_agree {nn : Nat} {v w : Vector Node 511} (hv : NodesAgree nn v w) {a b : NodeIdx}
    (ha : a.val < nn) (hb : b.val < nn) : less v a b = less w a b := by
  simp [less, hv a ha, hv b hb]

theorem siftTarget_agree {nn hn : Nat} {v w : Vector Node 511} {g h : Vector NodeIdx 256}
    (hv : NodesAgree nn v w) (hh : HeapsAgree nn hn g h) {i : Nat} (hi : i < hn) :
    siftTarget v hn g i = siftTarget w hn h i := by
  have key : ∀ a b, a < hn → b < hn → less v (heapGet g a) (heapGet g b) = less w (heapGet h a) (heapGet h b) := by
    intro a b ha hb
    rw [less_agree hv (hh a ha).2 (hh b hb).2, (hh a ha).1, (hh b hb).1]
  simp only [siftTarget]
  by_cases h1 : 2 * i + 1 < hn
  · rw [key _ _ h1 hi]
    by_cases h2 : 2 * i + 2 < hn
    · split <;> rw [key _ _ h2 (by omega)]
    · simp [h2]
  · simp [h1, show ¬ 2 * i + 2 < hn by omega]

theorem heapSwap_agree {nn hn : Nat} {g h : Vector NodeIdx 256} (hh : HeapsAgree nn hn g h)
    {i j : Nat} (hi : i < hn) (hj : j < hn) (hhn : hn ≤ 256) :
    HeapsAgree nn hn (heapSwap g i j) (heapSwap h i j) := by
  intro k hk
  rw [heapGet_heapSwap _ (by omega) (by omega), heapGet_heapSwap _ (by omega) (by omega)]
  split
  · exact hh i hi
  · split
    · exact hh j hj
    · exact hh k hk

theorem siftDown_agree {nn hn : Nat} {v w : Vector Node 511} (hv : NodesAgree nn v w) (hhn : hn ≤ 256)
    (fuel : Nat) {g h : Vector NodeIdx 256} (hh : HeapsAgree nn hn g h) {i : Nat} (hi : i < hn) :
    HeapsAgree nn hn (siftDown v hn fuel g i) (siftDown w hn fuel h i) := by
  induction fuel generalizing g h i with
  | zero => exact hh
  | succ fuel ih =>
    unfold siftDown
    simp only [siftTarget_agree hv hh hi]
    split
    · exact hh
    · next hm =>
      obtain ⟨hspec | ⟨hlt, -⟩, -⟩ := siftTarget_spec w hn h i
      · exact absurd hspec hm
      · exact ih (heapSwap_agree hh hi hlt hhn) hlt

theorem siftUp_agree {nn hn : Nat} {v w : Vector Node 511} (hv : NodesAgree nn v w) (hhn : hn ≤ 256)
    (fuel : Nat) {g h : Vector NodeIdx 256} (hh : HeapsAgree nn hn g h) {i : Nat} (hi : i < hn) :
    HeapsAgree nn hn (siftUp v fuel g i) (siftUp w fuel h i) := by
  induction fuel generalizing g h i with
  | zero => exact hh
  | succ fuel ih =>
    have e : less v (heapGet g i) (heapGet g ((i - 1) / 2)) = less w (heapGet h i) (heapGet h ((i - 1) / 2)) := by
      rw [less_agree hv (hh _ hi).2 (hh _ (by omega)).2, (hh _ hi).1, (hh _ (by omega)).1]
    unfold siftUp
    rw [e]
    split
    · exact ih (heapSwap_agree hh hi (by omega) hhn) (by omega)
    · exact hh

theorem heapify_agree {nn hn : Nat} {v w : Vector Node 511} (hv : NodesAgree nn v w) (hhn : hn ≤ 256)
    (k : Nat) (hk : k ≤ hn) {g h : Vector NodeIdx 256} (hh : HeapsAgree nn hn g h) :
    HeapsAgree nn hn (heapify v hn k g) (heapify w hn k h) := by
  induction k generalizing g h with
  | zero => exact hh
  | succ k ih => exact ih (by omega) (siftDown_agree hv hhn _ hh (by omega))

/-- Two scratch states the tree builder treats alike. -/
structure TreesAgree (a b : Scratch) : Prop where
  nn : a.nn = b.nn
  hn : a.hn = b.hn
  room : a.hn ≤ 256
  nodes : NodesAgree a.nn a.node b.node
  heaps : HeapsAgree a.nn a.hn a.heap b.heap

theorem pqBuild_agree {a b : Scratch} (h : a.freq = b.freq) : TreesAgree (pqBuild a) (pqBuild b) := by
  have hle := presentIn_length_le b.freq
  obtain ⟨v, g, h1, h2, -⟩ := addLeaf_loop symbols { a with nn := 0, hn := 0 } rfl
    (by simpa [h] using hle)
  obtain ⟨w, g', h1', h2', -⟩ := addLeaf_loop symbols { b with nn := 0, hn := 0 } rfl
    (by simpa using hle)
  simp only [Nat.zero_add] at h1 h2 h1' h2'
  have hp : presentIn a.freq symbols = presentIn b.freq symbols := by rw [h]
  rw [hp] at h1
  have e2 : ∀ i, (hi : i < (presentIn b.freq symbols).length) →
      nodeGet v (nodeIdx i) = nodeGet w (nodeIdx i) ∧ heapGet g i = heapGet g' i ∧ heapGet g i = nodeIdx i := by
    intro i hi
    obtain ⟨p1, p2⟩ := h2 i (by rw [hp]; exact hi)
    obtain ⟨q1, q2⟩ := h2' i hi
    refine ⟨?_, by rw [p2, q2], p2⟩
    rw [p1, q1]
    simp only [h]
  have hv : NodesAgree (presentIn b.freq symbols).length v w := by
    intro i hi
    have := (e2 i.val hi).1
    rwa [nodeIdx_self] at this
  have hh : HeapsAgree (presentIn b.freq symbols).length (presentIn b.freq symbols).length g g' := by
    intro k hk
    refine ⟨(e2 k hk).2.1, ?_⟩
    rw [(e2 k hk).2.2, nodeIdx_val (by omega)]
    exact hk
  simp only [pqBuild]
  rw [h1, h1']
  exact ⟨rfl, rfl, hle, hv, heapify_agree hv hle _ (Nat.div_le_self _ _) hh⟩

theorem nodesAgree_write {nn : Nat} (hnn : nn < 511) {v w : Vector Node 511} (hv : NodesAgree nn v w)
    (x : Node) : NodesAgree (nn + 1) (nodeSet v (nodeIdx nn) x) (nodeSet w (nodeIdx nn) x) := by
  intro i hi
  by_cases e : nodeIdx nn = i
  · rw [← e, nodeGet_nodeSet_self, nodeGet_nodeSet_self]
  · rw [nodeGet_nodeSet_ne _ _ e, nodeGet_nodeSet_ne _ _ e]
    refine hv i ?_
    have : i.val ≠ nn := fun h => e (Fin.ext (by rw [nodeIdx_val hnn, h]))
    omega

theorem extractHeap_agree {nn hn : Nat} {v w : Vector Node 511} (hv : NodesAgree nn v w) (hhn : hn < 256)
    {g h : Vector NodeIdx 256} (hh : HeapsAgree nn (hn + 1) g h) :
    HeapsAgree nn hn (extractHeap v g hn) (extractHeap w h hn) := by
  unfold extractHeap
  split
  · refine siftDown_agree hv (by omega) _ ?_ (by omega)
    intro k hk
    rcases Nat.eq_zero_or_pos k with rfl | hpos
    · rw [heapGet_heapSet_self _ _ (by omega), heapGet_heapSet_self _ _ (by omega)]
      exact hh hn (by omega)
    · rw [heapGet_heapSet_ne _ _ (by omega), heapGet_heapSet_ne _ _ (by omega)]
      exact hh k (by omega)
  · exact fun k hk => hh k (by omega)

theorem insertHeap_agree {nn hn : Nat} {v w : Vector Node 511} (hv : NodesAgree nn v w) (hhn : hn < 256)
    {g h : Vector NodeIdx 256} (hh : HeapsAgree nn hn g h) {n : NodeIdx} (hn' : n.val < nn) :
    HeapsAgree nn (hn + 1) (siftUp v hn (heapSet g hn n) hn) (siftUp w hn (heapSet h hn n) hn) := by
  refine siftUp_agree hv (by omega) _ ?_ (by omega)
  intro k hk
  by_cases e : k = hn
  · rw [e, heapGet_heapSet_self _ _ (by omega), heapGet_heapSet_self _ _ (by omega)]
    exact ⟨rfl, hn'⟩
  · rw [heapGet_heapSet_ne _ _ (Ne.symm e), heapGet_heapSet_ne _ _ (Ne.symm e)]
    exact hh k (by omega)

/-- Both succeed and agree, or both stop for the same reason. -/
def ResultsAgree : Except Stop Scratch → Except Stop Scratch → Prop
  | .ok a, .ok b => TreesAgree a b
  | .error e, .error f => e = f
  | _, _ => False

theorem tbMerge_agree (c : Config) {a b : Scratch} (h : TreesAgree a b) :
    ResultsAgree (tbMerge c a) (tbMerge c b) := by
  obtain ⟨hnn, hhn, hroom, hv, hh⟩ := h
  by_cases h2 : a.hn < 2
  · rw [tbMerge_empty c a h2, tbMerge_empty c b (by omega)]; rfl
  obtain ⟨k, hk⟩ : ∃ k, a.hn = k + 2 := ⟨a.hn - 2, by omega⟩
  rw [hk] at hh
  have hh1 := extractHeap_agree hv (by omega) hh
  have hh2 := extractHeap_agree hv (by omega) hh1
  have ea1 : pqExtractMin a = .ok { a with
      ret := heapGet a.heap 0, heap := extractHeap a.node a.heap (k + 1), hn := k + 1 } := by
    rw [pqExtractMin_eq (by omega), hk]; rfl
  have eb1 : pqExtractMin b = .ok { b with
      ret := heapGet b.heap 0, heap := extractHeap b.node b.heap (k + 1), hn := k + 1 } := by
    rw [pqExtractMin_eq (by omega), ← hhn, hk]; rfl
  unfold tbMerge
  rw [ea1, eb1]
  simp only [bind, Except.bind]
  rw [pqExtractMin_eq (by simp only; omega), pqExtractMin_eq (by simp only; omega)]
  simp only [Nat.add_sub_cancel, addInternal]
  rw [← hnn]
  have hl := hh 0 (by omega)
  have hr := hh1 0 (by omega)
  rw [← hl.1, ← hr.1, ← hv _ hl.2, ← hv _ hr.2]
  by_cases hn5 : a.nn < 511
  · rw [if_pos hn5, if_pos hn5]
    simp only
    rw [pqInsert_eq _ (by simp only; omega), pqInsert_eq _ (by simp only; omega)]
    have hw := nodesAgree_write hn5 hv ⟨false, 0, mergeWeight c (nodeGet a.node (heapGet a.heap 0)).weight
      (nodeGet a.node (heapGet (extractHeap a.node a.heap (k + 1)) 0)).weight, heapGet a.heap 0,
      heapGet (extractHeap a.node a.heap (k + 1)) 0⟩
    refine ⟨rfl, rfl, by simp only; omega, hw, ?_⟩
    refine insertHeap_agree (nn := a.nn + 1) (hn := k) hw (by omega) ?_ (by rw [nodeIdx_val hn5]; omega)
    exact fun j hj => ⟨(hh2 j hj).1, Nat.lt_succ_of_lt (hh2 j hj).2⟩
  · rw [if_neg hn5, if_neg hn5]; rfl

theorem mergeAll_agree (c : Config) (fuel : Nat) {a b : Scratch} (h : TreesAgree a b) :
    ResultsAgree (mergeAll c fuel a) (mergeAll c fuel b) := by
  induction fuel generalizing a b with
  | zero => exact h
  | succ fuel ih =>
    unfold mergeAll
    rw [← h.hn]
    split
    · have := tbMerge_agree c h
      revert this
      rcases tbMerge c a with e | a' <;> rcases tbMerge c b with f | b' <;> intro this
      · exact this
      · exact this.elim
      · exact this.elim
      · exact ih this
    · exact h

/-- A tree is the same in two node tables that agree. -/
theorem Rep.agree {nn : Nat} {v w : Vector Node 511} (hv : NodesAgree nn v w) {i : NodeIdx} {t : HTree}
    (h : Rep v nn i t) : Rep w nn i t := by
  induction h with
  | leaf i hi hl =>
    rw [hv i hi] at hl ⊢
    exact .leaf i hi hl
  | node i l r hi hl hw _ _ ihl ihr =>
    rw [hv i hi] at hl hw ihl ihr
    exact .node i l r hi hl hw ihl ihr

/-- The tree TB_BUILD builds after PQ_BUILD is a function of FREQ (R155). -/
theorem tree_of_freq (c : Config) (freq : Vector Nat 256) (hne : presentIn freq symbols ≠ [])
    (hw : ((presentIn freq symbols).map (symGet freq ·)).sum < c.limit) :
    ∃ t : HTree, t.leaves.Perm ((presentIn freq symbols).map fun s => (s, symGet freq s)) ∧
      ∀ sc : Scratch, sc.freq = freq → ∃ node nn heap r root, tbBuild c (pqBuild sc) =
        .ok { sc.withTree node nn heap 1 with ret := r, root := root, rootValid := true } ∧
        Rep node nn root t := by
  have hw' : (((presentIn freq symbols).map fun s => (s, symGet freq s)).map (·.2)).sum < c.limit := by
    rwa [List.map_map]
  have build : ∀ sc : Scratch, sc.freq = freq → ∃ node heap r t,
      mergeAll c (pqBuild sc).hn (pqBuild sc) =
        .ok { (pqBuild sc).withTree node ((pqBuild sc).nn + ((pqBuild sc).hn - 1)) heap 1 with ret := r } ∧
      tbBuild c (pqBuild sc) = .ok { (pqBuild sc).withTree node ((pqBuild sc).nn + ((pqBuild sc).hn - 1))
        heap 1 with ret := r, root := heapGet heap 0, rootValid := true } ∧
      Rep node ((pqBuild sc).nn + ((pqBuild sc).hn - 1)) (heapGet heap 0) t ∧
      t.leaves.Perm ((presentIn freq symbols).map fun s => (s, symGet freq s)) := by
    intro sc hsc
    have hf := pqBuild_forest sc (by rwa [hsc])
    rw [hsc] at hf
    have h256 : (pqBuild sc).hn ≤ 256 := (pqBuild_agree (a := sc) (b := sc) rfl).room
    obtain ⟨node, heap, r, t, he, hr, hl, -⟩ := tbBuild_forest c hf h256 hw'
    obtain ⟨node', heap', r', he', -⟩ := mergeAll_forest c (pqBuild sc).hn hf h256 hw' (by omega)
    have : tbBuild c (pqBuild sc) = .ok { (pqBuild sc).withTree node' ((pqBuild sc).nn + ((pqBuild sc).hn - 1))
        heap' 1 with ret := r', root := heapGet heap' 0, rootValid := true } := by
      rw [tbBuild, he']
      simp only [bind, Except.bind, Scratch.withTree]
    have heq := he.symm.trans this
    simp only [Except.ok.injEq, Scratch.withTree, Scratch.mk.injEq] at heq
    obtain ⟨-, rfl, -, rfl, -⟩ := heq
    exact ⟨node, heap, r', t, he', this, hr, hl⟩
  obtain ⟨sc₀, h₀⟩ : ∃ sc₀ : Scratch, sc₀.freq = freq := ⟨{ Scratch.zero with freq := freq }, rfl⟩
  obtain ⟨node₀, heap₀, r₀, t, hm₀, -, hrep₀, hl₀⟩ := build sc₀ h₀
  refine ⟨t, hl₀, fun sc hsc => ?_⟩
  obtain ⟨node, heap, r, t', hm, hb, -, -⟩ := build sc hsc
  have hag := pqBuild_agree (a := sc₀) (b := sc) (h₀.trans hsc.symm)
  obtain ⟨v, g, hpq, -⟩ := pqBuild_spec sc
  generalize pqBuild sc₀ = p₀ at *
  generalize pqBuild sc = p at *
  have hres := mergeAll_agree c p.hn hag
  rw [hag.hn] at hm₀ hrep₀
  rw [hm, hm₀] at hres
  obtain ⟨g1, g2, g3, g4, g5⟩ := hres
  simp only [Scratch.withTree] at g1 g4 g5
  refine ⟨node, p.nn + (p.hn - 1), heap, r, heapGet heap 0, ?_, ?_⟩
  · rw [hb]
    simp only [hpq, Scratch.withTree]
  · have hroot := (g5 0 (by omega)).1
    rw [← hroot, ← g1]
    exact hrep₀.agree g4

end Sys2Proof.Machine
end

