-- ==== Sys2Proof/Laws/HuffmanCodec.lean ====
section
/-! SUPPORT. What the microprograms of HUF_ENC and HUF_DEC do (spec/45_huffman_codec.md R231, R232): the
code table is a function of the input, the output is a container, and decoding it gives the input back. -/

namespace Sys2Proof.Machine

/-! ### Symbols and counts -/

theorem mem_present {x : List Byte} {s : Byte} : s ∈ present x ↔ s ∈ x := by
  simp [present, mem_symbols]

theorem present_nodup (x : List Byte) : (present x).Nodup := symbols_nodup.filter _

theorem presentIn_count {freq : Vector Nat 256} {x : List Byte} (h : ∀ s, symGet freq s = x.count s) :
    presentIn freq symbols = present x := by
  unfold presentIn present
  refine List.filter_congr fun s _ => ?_
  rw [h]
  exact decide_eq_decide.mpr List.one_le_count_iff

/-- The counts of the distinct bytes add up to the length (R31). -/
theorem sum_count_present (x : List Byte) : ((present x).map fun s => x.count s).sum = x.length := by
  have hp : (present x).Perm x.dedup :=
    (List.perm_ext_iff_of_nodup (present_nodup x) (List.nodup_dedup x)).mpr fun s => by
      rw [mem_present, List.mem_dedup]
  rw [(hp.map _).sum_eq, List.sum_map_count_dedup_eq_length]

/-! ### Code tables that name the same codes -/

/-- CODE holds a valid entry for exactly the bytes of `x`, and their codes are `code`. -/
def Assigns (table : Vector CodeEntry 256) (x : List Byte) (code : Byte → Bits) : Prop :=
  ∀ s, (symGet table s).valid = decide (s ∈ x) ∧ (s ∈ x → (symGet table s).bits = code s)

theorem Assigns.bookOf {table : Vector CodeEntry 256} {x : List Byte} {code : Byte → Bits}
    (h : Assigns table x code) : bookOf table = bookFor code (present x) := by
  have hf : (symbols.filter fun s => (symGet table s).valid) = present x :=
    List.filter_congr fun s _ => (h s).1
  rw [Machine.bookOf, hf]
  exact List.map_congr_left fun s hs => by rw [(h s).2 (mem_present.mp hs)]

theorem Assigns.encodeBytes {table : Vector CodeEntry 256} {x : List Byte} {code : Byte → Bits}
    (h : Assigns table x code) : encodeBytes table x = x.flatMap code := by
  unfold Machine.encodeBytes
  rw [List.flatMap_def, List.flatMap_def]
  congr 1
  exact List.map_congr_left fun s hs => (h s).2 hs

/-! ### HUF_ENC (R231) -/

/-- What HUF_ENC's sequence does from CA_ASSIGN's table on (R202, R203, R186). -/
theorem encodeTail_eq (c : Config) {x : List Byte} {code : Byte → Bits} {sc : Scratch}
    (h : Assigns sc.code x code) :
    if (x.flatMap code).length < c.limit then
      ∃ sc', (do let sc ← symEncode c x sc; bpPack (cbWrite c sc)) = .ok sc' ∧
        sc'.stage = sc.stage ++ container c (bookFor code (present x)) (x.flatMap code)
    else (do let sc ← symEncode c x sc; bpPack (cbWrite c sc)) = .error (.raised .capacityExceeded) := by
  rw [symEncode_eq, h.encodeBytes]
  by_cases hlim : (x.flatMap code).length < c.limit
  · rw [if_pos hlim, if_pos hlim]
    simp only [bind, Except.bind]
    rw [cbWrite_eq]
    obtain ⟨acc, accn, he⟩ := bpPack_eq (sc := Scratch.append
      { sc with bits := x.flatMap code, tbl := (x.flatMap code).length, ipos := x.length }
      (leBytes c.sz (bookOf sc.code).length ++ leBytes c.sz (x.flatMap code).length ++
        (bookOf sc.code).flatMap (entryBytes c))) (by simp)
    refine ⟨_, he, ?_⟩
    simp only [Scratch.append, h.bookOf, container, List.take_length, List.append_assoc]
  · rw [if_neg hlim, if_neg hlim]
    rfl

/-- The codes HUF_ENC assigns are a function of its input (R139, R155). -/
theorem exists_code (c : Config) (x : List Byte) (hx : x.length < c.limit) :
    ∃ code, IsCode x code ∧ ∀ sc : Scratch, (∀ s, (symGet sc.code s).valid = false) → ∃ sc',
      buildCodes c x (freqCount x sc) = .ok sc' ∧ sc'.stage = sc.stage ∧ Assigns sc'.code x code := by
  by_cases hne : x = []
  · subst hne
    refine ⟨fun _ => [], ⟨⟨by simp [bookFor, present], ?_⟩, by simp, by simp [present]⟩, fun sc hsc => ?_⟩
    · intro i j hi; simp [bookFor, present] at hi
    · exact ⟨freqCount [] sc, rfl, rfl, fun s => ⟨by simpa [freqCount] using hsc s, by simp⟩⟩
  have hpos : 1 ≤ x.length := List.length_pos_of_ne_nil hne
  let freq : Vector Nat 256 := (freqCount x Scratch.zero).freq
  have hfreq : ∀ s, symGet freq s = x.count s := freqCount_freq x _
  have hpres := presentIn_count hfreq
  have hpne : present x ≠ [] := by
    obtain ⟨b, hb⟩ := List.exists_mem_of_ne_nil x hne
    exact List.ne_nil_of_mem (mem_present.mpr hb)
  have hsum : ((present x).map (symGet freq ·)).sum = x.length := by
    rw [← sum_count_present x]
    congr 1
    exact List.map_congr_left fun s _ => hfreq s
  obtain ⟨t, hl, hbuild⟩ := tree_of_freq c freq (by rwa [hpres]) (by rw [hpres, hsum]; exact hx)
  rw [hpres] at hl
  have hsym : (t.codes.map (·.1)).Perm (present x) := by
    rw [t.codes_symbols]
    have := hl.map (·.1)
    rwa [List.map_map, show ((fun p : Byte × Nat => p.1) ∘ fun s => (s, symGet freq s)) = id from rfl,
      List.map_id] at this
  have hnd : (t.codes.map (·.1)).Nodup := hsym.nodup_iff.mpr (present_nodup x)
  have hlen : t.leaves.length ≤ 256 := by
    rw [hl.length_eq, List.length_map, ← symbols_length]
    exact List.length_filter_le _ _
  let code : Byte → Bits := fun s => (symGet (writeCodes (Vector.replicate 256 ⟨false, []⟩) t.codes) s).bits
  have hcode : ∀ e ∈ t.codes, code e.1 = e.2 := fun e he => by
    show (symGet (writeCodes _ t.codes) e.1).bits = e.2
    rw [writeCodes_mem hnd (b := e.2) he]
  have hmem : ∀ s ∈ x, (s, code s) ∈ t.codes := fun s hs => by
    obtain ⟨e, he, rfl⟩ := List.mem_map.mp (hsym.mem_iff.mpr (mem_present.mpr hs))
    rw [hcode e he]
    exact he
  refine ⟨code, ⟨⟨?_, ?_⟩, ?_, ?_⟩, ?_⟩
  · intro e he
    obtain ⟨s, hs, rfl⟩ := List.mem_map.mp he
    have := (t.codes_length _ (hmem s (mem_present.mp hs))).1
    exact List.ne_nil_of_length_pos this
  · rw [prefixFree_iff_pairwise, bookFor, List.map_map, List.pairwise_map]
    refine (present_nodup x).imp_of_mem fun {s u} hs hu hsu => ?_
    have hpw := t.codes_apart
    have hsymm : Std.Symm fun e f : Byte × Bits => Apart e.2 f.2 := ⟨fun _ _ h => ⟨h.2, h.1⟩⟩
    have := hpw.forall (hmem s (mem_present.mp hs)) (hmem u (mem_present.mp hu))
      (fun e => hsu (Prod.ext_iff.mp e).1)
    exact this
  · intro s hs
    have := (t.codes_length _ (hmem s hs)).2
    simp only at this
    omega
  · intro s hs
    have hm := hmem s (mem_present.mp (by rw [hs]; simp))
    have h1 : t.leaves.length = 1 := by rw [hl.length_eq, List.length_map, hs]; rfl
    have := t.codes_length _ hm
    cases t with
    | leaf _ _ =>
      simp only [HTree.codes, List.mem_singleton, Prod.mk.injEq] at hm
      exact hm.2
    | node l r =>
      have := l.leaves_pos
      have := r.leaves_pos
      simp only [HTree.leaves, List.length_append] at h1
      omega
  · intro sc hsc
    have hf : (freqCount x sc).freq = freq := symTable_ext fun s => by rw [freqCount_freq, hfreq]
    obtain ⟨node, nn, heap, r, root, hb, hrep⟩ := hbuild (freqCount x sc) hf
    have hca := caAssign_rep (sc := { (freqCount x sc).withTree node nn heap 1 with
      ret := r, root := root, rootValid := true }) rfl hrep (by have := t.depth_lt; omega)
    have hrun : buildCodes c x (freqCount x sc) = .ok (caAssign { (freqCount x sc).withTree node nn heap 1 with
        ret := r, root := root, rootValid := true }) := by
      rw [buildCodes, if_pos hpos, hb]
      rfl
    refine ⟨_, hrun.trans (congrArg _ hca), rfl, ?_⟩
    intro s
    simp only [Scratch.withTree, freqCount]
    by_cases hs : s ∈ x
    · rw [writeCodes_mem hnd (hmem s hs)]
      simp [hs]
    · rw [writeCodes_not_mem (fun hm => hs (mem_present.mp (hsym.mem_iff.mp hm)))]
      simp [hs, clearValid]

/-- HUF_ENC's microprogram: a container, or CapacityExceeded where the payload is too long
(R231, R202, R237). -/
theorem hufEncProgram_eq (c : Config) (x : List Byte) (hx : x.length < c.limit) :
    ∃ code, IsCode x code ∧ ∀ sc : Scratch, (∀ s, (symGet sc.code s).valid = false) →
      if (x.flatMap code).length < c.limit then
        ∃ sc', hufEncProgram c x sc = .ok sc' ∧
          sc'.stage = sc.stage ++ container c (bookFor code (present x)) (x.flatMap code)
      else hufEncProgram c x sc = .error (.raised .capacityExceeded) := by
  obtain ⟨code, hcode, h⟩ := exists_code c x hx
  refine ⟨code, hcode, fun sc hsc => ?_⟩
  obtain ⟨sc', he, hst, ha⟩ := h sc hsc
  have := encodeTail_eq c ha
  have hprog : hufEncProgram c x sc = (do let sc ← symEncode c x sc'; bpPack (cbWrite c sc)) := by
    rw [hufEncProgram, he]
    rfl
  rw [hprog, ← hst]
  exact this

theorem init_invalid (sc : Scratch) (s : Byte) : (symGet sc.init.code s).valid = false := by
  simp [Scratch.init]

/-! ### HUF_DEC (R232) -/

/-- HUF_DEC's microprogram on a container, with or without surplus bytes: the symbols its payload spells
(R97, R108, R209). -/
theorem hufDecProgram_container (c : Config) (book : List DecodeEntry) (es : List DecodeEntry)
    (rest : List Byte) (sc : Scratch) (hd : Decodable book) (hes : ∀ e ∈ es, e ∈ book)
    (hbook : book.length < c.limit) (hlim : ∀ e ∈ book, e.code.length < c.limit)
    (hpay : (es.flatMap (·.code)).length < c.limit) :
    ∃ sc', hufDecProgram c (container c book (es.flatMap (·.code)) ++ rest) sc = .ok sc' ∧
      sc'.stage = sc.stage ++ es.map (·.sym) := by
  unfold hufDecProgram
  rw [cbParse_container c book _ rest sc hbook hpay hlim]
  simp only [bind, Except.bind]
  rw [cbCheck_ok (by exact hd)]
  simp only
  have hlen : (container c book (es.flatMap (·.code)) ++ rest).length =
      2 * c.sz + (book.flatMap (entryBytes c)).length + (ceil8 (es.flatMap (·.code)).length + rest.length) := by
    rw [container_eq]; simp only [List.length_append, leBytes_length, pack_length]; omega
  simp only [bpUnpack]
  rw [if_pos (by rw [hlen]; omega)]
  simp only
  have hread : memReadBytes (container c book (es.flatMap (·.code)) ++ rest)
      (2 * c.sz + (book.flatMap (entryBytes c)).length) (ceil8 (es.flatMap (·.code)).length) =
      pack (es.flatMap (·.code)) := by
    rw [container_eq, ← List.append_assoc]
    refine memReadBytes_append_of_eq ?_ (by simp)
    simp only [List.length_append, leBytes_length]; omega
  rw [hread, unpack_pack]
  refine ⟨_, codeWalk_eq (by exact hd) es [] hes ?_ ?_ ?_, rfl⟩
  · intro e he hp
    exact hd.nonempty e he (List.prefix_nil.mp hp)
  · simp
  · simp

/-- HUF_DEC's microprogram answers or raises an error, never stops, and does so as BUF alone decides
(R30, R238, R239). -/
theorem hufDecProgram_total (c : Config) (buf : List Byte) :
    (∃ y, ∀ sc, ∃ sc', hufDecProgram c buf sc = .ok sc' ∧ sc'.stage = sc.stage ++ y) ∨
      (∀ sc, hufDecProgram c buf sc = .error (.raised .malformedContainer)) ∨
      (∀ sc, hufDecProgram c buf sc = .error (.raised .inconsistentCodebook)) := by
  by_cases h1 : buf.length < 2 * c.sz
  · refine .inr (.inl fun sc => ?_)
    rw [hufDecProgram, cbParse, if_pos h1]; rfl
  by_cases hp : ∃ dtab p, ParsesTo c buf (memRead buf 0 c.sz) (2 * c.sz) dtab p
  swap
  · refine .inr (.inl fun sc => ?_)
    rw [hufDecProgram, cbParse, if_neg h1, parseEntries_of_not _ _ _ fun dtab p h => hp ⟨dtab, p, h⟩]; rfl
  obtain ⟨dtab, p, hp⟩ := hp
  have hparse : ∀ sc, cbParse c buf sc = if p + ceil8 (memRead buf c.sz c.sz) > buf.length then
      .error (.raised .malformedContainer)
      else .ok { sc with tbl := memRead buf c.sz c.sz, dtab := dtab, ppos := p, ipos := p } := fun sc => by
    rw [cbParse, if_neg h1, parseEntries_of_parsesTo hp]; rfl
  by_cases h2 : p + ceil8 (memRead buf c.sz c.sz) > buf.length
  · refine .inr (.inl fun sc => ?_)
    rw [hufDecProgram, hparse, if_pos h2]; rfl
  by_cases hd : Decodable dtab
  swap
  · refine .inr (.inr fun sc => ?_)
    rw [hufDecProgram, hparse, if_neg h2]
    simp only [bind, Except.bind]
    rw [cbCheck_bad (by exact hd)]
  obtain ⟨es, rem, he, hr, hs⟩ := exists_split dtab hd.nonempty
    (unpack (memReadBytes buf p (ceil8 (memRead buf c.sz c.sz))) (memRead buf c.sz c.sz))
  have hrun : ∀ sc, hufDecProgram c buf sc = codeWalk { sc with
      tbl := memRead buf c.sz c.sz, dtab := dtab, ppos := p, ipos := p
      bits := unpack (memReadBytes buf p (ceil8 (memRead buf c.sz c.sz))) (memRead buf c.sz c.sz) } := fun sc => by
    rw [hufDecProgram, hparse, if_neg h2]
    simp only [bind, Except.bind]
    rw [cbCheck_ok (by exact hd)]
    simp only [bpUnpack]
    rw [if_pos (by omega)]
  have hwalk := fun sc => (hrun sc).trans (codeWalk_eq (by exact hd) es rem he hr (by simp)
    (by rw [List.take_of_length_le (by simp)]; exact hs))
  by_cases hrem : rem = []
  · refine .inl ⟨es.map (·.sym), fun sc => ?_⟩
    rw [hwalk, if_pos hrem]
    exact ⟨_, rfl, rfl⟩
  · refine .inr (.inl fun sc => ?_)
    rw [hwalk, if_neg hrem]

/-- A codebook for a message's bytes spells the message (R209). -/
theorem flatMap_codes (code : Byte → Bits) (x : List Byte) :
    (x.map fun s => (⟨s, code s⟩ : DecodeEntry)).flatMap (·.code) = x.flatMap code := by
  rw [List.flatMap_map]

theorem bookFor_length_lt (c : Config) (code : Byte → Bits) (x : List Byte) :
    (bookFor code (present x)).length < c.limit := by
  have h1 : (present x).length ≤ 256 := by rw [← symbols_length]; exact List.length_filter_le _ _
  have := c.limit_big
  rw [bookFor, List.length_map]
  omega

/-- HUF_DEC's microprogram on what HUF_ENC wrote (R235). -/
theorem hufDecProgram_encoded (c : Config) {x : List Byte} {code : Byte → Bits} (hc : IsCode x code)
    (hpay : (x.flatMap code).length < c.limit) (sc : Scratch) :
    ∃ sc', hufDecProgram c (container c (bookFor code (present x)) (x.flatMap code)) sc = .ok sc' ∧
      sc'.stage = sc.stage ++ x := by
  have hbig := c.limit_big
  have := hufDecProgram_container c (bookFor code (present x)) (x.map fun s => ⟨s, code s⟩) [] sc
    hc.decodable ?_ (bookFor_length_lt c code x) ?_ (by rw [flatMap_codes]; exact hpay)
  · rw [flatMap_codes, List.append_nil, List.map_map] at this
    simpa [Function.comp_def] using this
  · intro e he
    obtain ⟨s, hs, rfl⟩ := List.mem_map.mp he
    exact List.mem_map.mpr ⟨s, mem_present.mpr hs, rfl⟩
  · intro e he
    obtain ⟨s, hs, rfl⟩ := List.mem_map.mp he
    have := hc.short s (mem_present.mp hs)
    simp only
    omega

end Sys2Proof.Machine
end

