-- ==== Sys2Proof/Laws/Memory.lean ====
section
/-! SUPPORT. BUF as memory: its cells are the bytes it holds, and every operation that writes BUF keeps the
canonical form (spec/10_state.md R21, R22; spec/20_memory.md R60, R70; log entry 9). -/

namespace Sys2Proof.Machine

theorem risingFrom_zipIdx (m : List Byte) (a : Nat) :
    Memory.risingFrom a ((m.zipIdx a).map fun x => (x.2, x.1)) = true := by
  induction m generalizing a with
  | nil => rfl
  | cons b m ih => simp [Memory.risingFrom, ih]

/-- A buffer of at most `cap` bytes is in canonical form. -/
theorem Memory.wf_of_length {cap : Nat} {m : List Byte} (h : m.length ≤ cap) : Memory.wf cap m = true := by
  simp [Memory.wf, Memory.cells, risingFrom_zipIdx, h]

/-- The cells of a buffer are its bytes at their addresses, and no others (R60, R70). -/
theorem Memory.mem_cells {m : List Byte} {a : Nat} {b : Byte} : (a, b) ∈ Memory.cells m ↔ m[a]? = some b := by
  simp [Memory.cells, List.mem_iff_getElem?, List.getElem?_zipIdx]

/-- Buffers with the same cells are the same buffer. -/
theorem Memory.cells_injective {m n : List Byte} (h : Memory.cells m = Memory.cells n) : m = n := by
  refine List.ext_getElem? fun a => ?_
  have key : ∀ b, m[a]? = some b ↔ n[a]? = some b := fun b => by
    rw [← Memory.mem_cells, ← Memory.mem_cells, h]
  rcases hm : m[a]? with _ | b
  · rcases hn : n[a]? with _ | b
    · rfl
    · exact absurd ((key b).mpr hn) (by simp [hm])
  · exact ((key b).mp hm).symm

theorem Memory.wf_reset : Memory.wf State.reset.config.cap State.reset.buf = true :=
  Memory.wf_of_length (by decide)

/-- Commit keeps the canonical form (R286). -/
theorem Memory.wf_commit (sc : Scratch) {s : State} (h : Memory.wf s.config.cap s.buf = true) :
    Memory.wf (s.commit sc).config.cap (s.commit sc).buf = true := by
  by_cases hc : sc.slen ≤ s.config.cap
  · rw [State.commit_of_fits hc]; exact Memory.wf_of_length hc
  · rw [State.commit_of_exceeds (by omega)]; exact h

/-- H_LOAD keeps the canonical form (R281). -/
theorem Memory.wf_load {x : List Byte} {s : State} (h : x.length ≤ s.config.cap) :
    Memory.wf s.config.cap ({ s with buf := x } : State).buf = true := Memory.wf_of_length h

end Sys2Proof.Machine
end

