-- ==== Sys2Proof/Laws/RleCodec.lean ====
section
/-! SUPPORT. What RLE_SCAN and RLE_EXPAND do, once (spec/46_rle_codec.md). -/

namespace Sys2Proof.Machine

/-! ### RLE_SCAN -/

/-- The runs of `bs` when a run of `n` bytes `b` is pending. -/
def runsFrom : Byte → Nat → List Byte → List (Nat × Byte)
  | b, n, [] => [(n, b)]
  | b, n, x :: xs => if x = b then runsFrom b (n + 1) xs else (n, b) :: runsFrom x 1 xs

theorem runsFrom_ne_nil (b : Byte) (n : Nat) (xs : List Byte) : runsFrom b n xs ≠ [] := by
  induction xs generalizing b n with
  | nil => simp [runsFrom]
  | cons x xs ih => unfold runsFrom; split <;> simp [ih]

@[simp] theorem expansion_nil : expansion [] = [] := rfl

@[simp] theorem expansion_cons (p : Nat × Byte) (ps : List (Nat × Byte)) :
    expansion (p :: ps) = List.replicate p.1 p.2 ++ expansion ps := rfl

theorem expansion_length (ps : List (Nat × Byte)) :
    (expansion ps).length = (ps.map (·.1)).sum := by
  induction ps with
  | nil => rfl
  | cons p ps ih => simp [ih]

theorem expansion_runsFrom (b : Byte) (n : Nat) (xs : List Byte) :
    expansion (runsFrom b n xs) = List.replicate n b ++ xs := by
  induction xs generalizing b n with
  | nil => simp [runsFrom]
  | cons x xs ih =>
    unfold runsFrom
    split
    · next h => subst h; rw [ih, List.replicate_succ', List.append_assoc]; rfl
    · rw [expansion_cons, ih]; rfl

theorem runsFrom_positive (b : Byte) {n : Nat} (hn : 1 ≤ n) (xs : List Byte) :
    ∀ p ∈ runsFrom b n xs, 1 ≤ p.1 := by
  induction xs generalizing b n with
  | nil => simpa [runsFrom] using hn
  | cons x xs ih =>
    unfold runsFrom
    split
    · exact ih b (by omega)
    · rintro p (_ | ⟨_, hp⟩)
      · exact hn
      · exact ih x (le_refl 1) p hp

theorem runsFrom_head (b : Byte) (n : Nat) (xs : List Byte) :
    ((runsFrom b n xs).head (runsFrom_ne_nil b n xs)).2 = b := by
  induction xs generalizing b n with
  | nil => simp [runsFrom]
  | cons x xs ih =>
    by_cases h : x = b
    · simpa [runsFrom, h] using ih b (n + 1)
    · simp [runsFrom, h]

theorem runsFrom_chain (b : Byte) (n : Nat) (xs : List Byte) :
    (runsFrom b n xs).IsChain fun p q => p.2 ≠ q.2 := by
  induction xs generalizing b n with
  | nil => simp [runsFrom]
  | cons x xs ih =>
    unfold runsFrom
    split
    · exact ih b (n + 1)
    · next h =>
      have hh := runsFrom_head x 1 xs
      have ht := ih x 1
      rcases hr : runsFrom x 1 xs with _ | ⟨q, qs⟩
      · exact absurd hr (runsFrom_ne_nil _ _ _)
      · rw [hr] at ht
        simp only [hr, List.head_cons] at hh
        exact List.IsChain.cons_cons (by rw [hh]; exact Ne.symm h) ht

/-- The runs RLE_SCAN finds in a buffer that begins with `b`. -/
theorem isRuns_runsFrom (b : Byte) (bs : List Byte) : IsRuns (b :: bs) (runsFrom b 1 bs) where
  positive := runsFrom_positive b (le_refl 1) bs
  maximal := runsFrom_chain b 1 bs
  spells := expansion_runsFrom b 1 bs

theorem isRuns_nil : IsRuns [] [] := ⟨by simp, by simp, rfl⟩

theorem runsFrom_replicate (b : Byte) (d n : Nat) (xs : List Byte) :
    runsFrom b n (List.replicate d b ++ xs) = runsFrom b (n + d) xs := by
  induction d generalizing n with
  | zero => rfl
  | succ d ih =>
    rw [List.replicate_succ, List.cons_append, runsFrom, if_pos rfl, ih]
    congr 1; omega

/-- The scan of the rest of an expansion finds its pairs again. -/
theorem runsFrom_expansion (ps : List (Nat × Byte)) (b : Byte) (n : Nat)
    (hc : ((n, b) :: ps).IsChain fun p q => p.2 ≠ q.2) (hpos : ∀ p ∈ ps, 1 ≤ p.1) :
    runsFrom b n (expansion ps) = (n, b) :: ps := by
  induction ps generalizing b n with
  | nil => rfl
  | cons q qs ih =>
    obtain ⟨hne, hc'⟩ := List.isChain_cons_cons.mp hc
    obtain ⟨k, hk⟩ : ∃ k, q.1 = k + 1 := ⟨q.1 - 1, by have := hpos q (by simp); omega⟩
    rw [expansion_cons, hk, List.replicate_succ, List.cons_append, runsFrom, if_neg (Ne.symm hne),
      runsFrom_replicate, Nat.add_comm, ← hk, ih q.2 q.1 hc' fun p hp => hpos p (List.mem_cons_of_mem _ hp)]

/-- The maximal runs of a sequence are what the scan finds, and nothing else is. -/
theorem IsRuns.unique {b : Byte} {bs : List Byte} {ps : List (Nat × Byte)} (h : IsRuns (b :: bs) ps) :
    ps = runsFrom b 1 bs := by
  have hsp := h.spells
  rcases ps with _ | ⟨p, ps⟩
  · simp at hsp
  obtain ⟨k, hk⟩ : ∃ k, p.1 = k + 1 := ⟨p.1 - 1, by have := h.positive p (by simp); omega⟩
  rw [expansion_cons, hk, List.replicate_succ, List.cons_append, List.cons.injEq] at hsp
  obtain ⟨rfl, rfl⟩ := hsp
  rw [runsFrom_replicate, Nat.add_comm, ← hk,
    runsFrom_expansion ps p.2 p.1 h.maximal fun q hq => h.positive q (List.mem_cons_of_mem _ hq)]

theorem IsRuns.nil_unique {ps : List (Nat × Byte)} (h : IsRuns [] ps) : ps = [] := by
  rcases ps with _ | ⟨p, ps⟩
  · rfl
  · have h1 := h.positive p (by simp)
    have := congrArg List.length h.spells
    rw [expansion_length] at this
    simp at this; omega

@[simp] theorem rleStream_nil (c : Config) : rleStream c [] = [] := rfl

@[simp] theorem rleStream_cons (c : Config) (p : Nat × Byte) (ps : List (Nat × Byte)) :
    rleStream c (p :: ps) = leBytes c.sz p.1 ++ [p.2] ++ rleStream c ps := rfl

theorem rleStream_length (c : Config) (ps : List (Nat × Byte)) :
    (rleStream c ps).length = (c.sz + 1) * ps.length := by
  induction ps with
  | nil => rfl
  | cons p ps ih =>
    rw [rleStream_cons, List.length_append, ih, List.length_append, leBytes_length, List.length_cons,
      List.length_cons, Nat.mul_succ]
    simp only [List.length_nil]; omega

theorem emitRun_eq (c : Config) (sc : Scratch) :
    emitRun c sc = sc.append (leBytes c.sz sc.runCnt ++ [sc.runByte]) := by
  simp [emitRun, Scratch.writeSize, Scratch.emit, Scratch.append]

/-- The loop of RLE_SCAN and the write of the last run. -/
theorem scan_loop (c : Config) (bs : List Byte) (sc : Scratch) :
    emitRun c (bs.foldl (scanStep c) sc) =
      { sc with
        stage := sc.stage ++ rleStream c (runsFrom sc.runByte sc.runCnt bs)
        runByte := ((runsFrom sc.runByte sc.runCnt bs).getLast (runsFrom_ne_nil _ _ _)).2
        runCnt := ((runsFrom sc.runByte sc.runCnt bs).getLast (runsFrom_ne_nil _ _ _)).1 } := by
  induction bs generalizing sc with
  | nil => simp [emitRun_eq, runsFrom, Scratch.append]
  | cons x xs ih =>
    rw [List.foldl_cons, ih]
    by_cases h : x = sc.runByte
    · simp [scanStep, runsFrom, h]
    · simp [scanStep, runsFrom, h, emitRun_eq, Scratch.append, List.getLast_cons (runsFrom_ne_nil _ _ _)]

/-- RLE_SCAN of a buffer that is not empty (R261). -/
theorem rleScan_cons (c : Config) (b : Byte) (bs : List Byte) (sc : Scratch) :
    rleScan c (b :: bs) sc =
      { sc with
        stage := sc.stage ++ rleStream c (runsFrom b 1 bs)
        runByte := ((runsFrom b 1 bs).getLast (runsFrom_ne_nil _ _ _)).2
        runCnt := ((runsFrom b 1 bs).getLast (runsFrom_ne_nil _ _ _)).1
        ipos := bs.length + 1 } := by
  simp [rleScan, scan_loop]

@[simp] theorem rleScan_nil (c : Config) (sc : Scratch) : rleScan c [] sc = sc := rfl

/-! ### RLE_EXPAND -/

theorem ofNat_memRead_one (buf : List Byte) (a : Nat) :
    BitVec.ofNat 8 (memRead buf a 1) = buf.getD a 0 := by
  by_cases h : a < buf.length
  · rw [memRead_one h, List.getD_eq_getElem?_getD, List.getElem?_eq_getElem h]; rfl
  · have : buf.drop a = [] := List.drop_eq_nil_of_le (by omega)
    simp [memRead, memReadBytes, this, leValue, List.getElem?_eq_none (by omega : buf.length ≤ a)]

/-- The loop of RLE_EXPAND over the pairs number `j` to `j + k - 1` (R262). -/
theorem expand_loop (c : Config) (buf : List Byte) (k j : Nat) (sc : Scratch) (ht : sc.total ≤ c.cap) :
    expandPairs c buf k (j * (c.sz + 1)) sc =
      if sc.total + (((List.range' j k).map (pairAt c buf)).map (·.1)).sum ≤ c.cap then
        .ok { sc with
          stage := sc.stage ++ expansion ((List.range' j k).map (pairAt c buf))
          total := sc.total + (((List.range' j k).map (pairAt c buf)).map (·.1)).sum }
      else .error (.raised .capacityExceeded) := by
  induction k generalizing j sc with
  | zero => simp [expandPairs, ht]
  | succ k ih =>
    unfold expandPairs
    simp only [List.range'_succ, List.map_cons, List.sum_cons, expansion_cons]
    have hp : pairAt c buf j = (memRead buf (j * (c.sz + 1)) c.sz, buf.getD (j * (c.sz + 1) + c.sz) 0) := rfl
    by_cases hx : sc.total + memRead buf (j * (c.sz + 1)) c.sz > c.cap
    · rw [if_pos hx, if_neg]
      rw [hp]; simp only; omega
    · rw [if_neg hx, show j * (c.sz + 1) + (c.sz + 1) = (j + 1) * (c.sz + 1) by rw [Nat.succ_mul],
        ih (j + 1) _ (by simp; omega), ofNat_memRead_one]
      simp only [Scratch.append]
      rw [hp]
      simp only [Nat.add_assoc, List.append_assoc]

theorem pairsOf_eq (c : Config) (buf : List Byte) :
    pairsOf c buf = (List.range' 0 (buf.length / (c.sz + 1))).map (pairAt c buf) := by
  rw [pairsOf, List.range_eq_range']

/-- RLE_EXPAND (R262): X1, X2, and what it appends. -/
theorem rleExpand_eq (c : Config) (buf : List Byte) (sc : Scratch) :
    rleExpand c buf sc =
      if buf.length % (c.sz + 1) ≠ 0 then .error (.raised .malformedContainer)
      else if ((pairsOf c buf).map (·.1)).sum ≤ c.cap then
        .ok { sc with
          stage := sc.stage ++ expansion (pairsOf c buf)
          total := ((pairsOf c buf).map (·.1)).sum
          ipos := buf.length }
      else .error (.raised .capacityExceeded) := by
  unfold rleExpand
  split
  · rfl
  · have := expand_loop c buf (buf.length / (c.sz + 1)) 0 { sc with total := 0 } (Nat.zero_le _)
    rw [Nat.zero_mul] at this
    rw [this, ← pairsOf_eq]
    simp only [Nat.zero_add]
    split <;> rfl

/-- The pairs of a stream of pairs whose counts fit a size field. -/
theorem pairsOf_rleStream (c : Config) (ps : List (Nat × Byte)) (h : ∀ p ∈ ps, p.1 < c.limit) :
    pairsOf c (rleStream c ps) = ps := by
  have hl : (rleStream c ps).length / (c.sz + 1) = ps.length := by
    rw [rleStream_length]; exact Nat.mul_div_cancel_left _ (by omega)
  rw [pairsOf, hl]
  apply List.ext_getElem (by simp)
  intro i h1 h2
  rw [List.getElem_map, List.getElem_range]
  have hsplit : rleStream c ps = rleStream c (ps.take i) ++ leBytes c.sz ps[i].1 ++
      ([ps[i].2] ++ rleStream c (ps.drop (i + 1))) := by
    have happ : ∀ a b, rleStream c (a ++ b) = rleStream c a ++ rleStream c b := fun a b => by
      simp [rleStream, List.flatMap_append]
    conv_lhs => rw [← List.take_append_drop i ps]
    rw [happ, List.drop_eq_getElem_cons h2, rleStream_cons]
    simp only [List.append_assoc]
  have hlen : (rleStream c (ps.take i)).length = i * (c.sz + 1) := by
    rw [rleStream_length, List.length_take, Nat.min_eq_left (by omega), Nat.mul_comm]
  have hlim : ps[i].1 < 256 ^ c.sz := by rw [← Config.limit_eq]; exact h _ (List.getElem_mem h2)
  unfold pairAt
  rw [hsplit, memRead_append_leBytes hlen.symm hlim]
  have : (rleStream c (ps.take i) ++ leBytes c.sz ps[i].1).length = i * (c.sz + 1) + c.sz := by
    rw [List.length_append, hlen, leBytes_length]
  rw [List.getD_append_right _ _ _ _ (by omega), this]
  simp

end Sys2Proof.Machine
end

