-- ==== Sys2Proof/Laws/Invariant.lean ====
section
/-! SUPPORT. Every unit operation keeps the widths of the registers (spec/20_memory.md R75), and the shared
operations of Machine/Ops.lean keep the machine's invariant. -/

namespace Sys2Proof.Machine

/-- A unit operation that leaves every register within its width, whatever the buffer. -/
def KeepsFits (f : UnitOp) : Prop :=
  ∀ (c : Config) (buf : List Byte) (sc sc' : Scratch), buf.length < c.limit → sc.Fits c →
    f c buf sc = .ok sc' → sc'.Fits c

/-! ### The priority queue and the tree builder -/

theorem addLeaf_fits {c : Config} {sc : Scratch} (h : ∀ s, symGet sc.freq s < c.limit)
    (hw : ∀ i, (nodeGet sc.node i).weight < c.limit) (s : Byte) :
    ∀ i, (nodeGet (addLeaf sc s).node i).weight < c.limit := by
  intro i
  unfold addLeaf
  split
  · by_cases e : nodeIdx sc.nn = i
    · subst e; simp only [nodeGet_nodeSet_self]; exact h s
    · simp only [nodeGet_nodeSet_ne _ _ e]; exact hw i
  · exact hw i

theorem addLeaf_freq (sc : Scratch) (s : Byte) : (addLeaf sc s).freq = sc.freq := by
  unfold addLeaf; split <;> rfl

theorem addLeaves_fits {c : Config} (ss : List Byte) {sc : Scratch} (h : ∀ s, symGet sc.freq s < c.limit)
    (hw : ∀ i, (nodeGet sc.node i).weight < c.limit) :
    ∀ i, (nodeGet (ss.foldl addLeaf sc).node i).weight < c.limit := by
  induction ss generalizing sc with
  | nil => exact hw
  | cons s ss ih => exact ih (by rw [addLeaf_freq]; exact h) (addLeaf_fits h hw s)

theorem pqBuild_fits {c : Config} {sc : Scratch} (h : sc.Fits c) : (pqBuild sc).Fits c := by
  have hw : ∀ i, (nodeGet (pqBuild sc).node i).weight < c.limit := by
    simp only [pqBuild]
    exact addLeaves_fits _ (sc := { sc with nn := 0, hn := 0 }) h.freq h.weight
  have hle := presentIn_length_le sc.freq
  obtain ⟨node, heap, he, -⟩ := pqBuild_spec sc
  rw [he] at hw ⊢
  exact ⟨h.freq, hw, by simp only [Scratch.withTree]; omega, hle, h.code, h.tbl, h.ipos, h.bpos, h.runCnt, h.path⟩

theorem pqInsert_fits {c : Config} {n : NodeIdx} {sc sc' : Scratch} (h : sc.Fits c)
    (he : pqInsert n sc = .ok sc') : sc'.Fits c := by
  unfold pqInsert at he
  split at he <;> cases he
  exact ⟨h.freq, h.weight, h.nn, by simp only; omega, h.code, h.tbl, h.ipos, h.bpos, h.runCnt, h.path⟩

theorem pqExtractMin_fits {c : Config} {sc sc' : Scratch} (h : sc.Fits c) (he : pqExtractMin sc = .ok sc') :
    sc'.Fits c := by
  unfold pqExtractMin at he
  split at he <;> cases he
  exact ⟨h.freq, h.weight, h.nn, by have := h.hn; simp only; omega, h.code, h.tbl, h.ipos, h.bpos, h.runCnt,
    h.path⟩

theorem addInternal_fits {c : Config} {l r : NodeIdx} {sc sc' : Scratch} (h : sc.Fits c)
    (he : addInternal c l r sc = .ok sc') : sc'.Fits c := by
  unfold addInternal at he
  split at he <;> cases he
  refine ⟨h.freq, fun i => ?_, by simp only; omega, h.hn, h.code, h.tbl, h.ipos, h.bpos, h.runCnt, h.path⟩
  by_cases e : nodeIdx sc.nn = i
  · subst e; simp only [nodeGet_nodeSet_self]; exact mergeWeight_lt c _ _
  · simp only [nodeGet_nodeSet_ne _ _ e]; exact h.weight i

theorem tbMerge_fits {c : Config} {sc sc' : Scratch} (h : sc.Fits c) (he : tbMerge c sc = .ok sc') :
    sc'.Fits c := by
  unfold tbMerge at he
  rcases h1 : pqExtractMin sc with _ | sc1 <;> simp only [h1, bind, Except.bind, reduceCtorEq] at he
  rcases h2 : pqExtractMin sc1 with _ | sc2 <;> simp only [h2, reduceCtorEq] at he
  rcases h3 : addInternal c sc1.ret sc2.ret sc2 with _ | sc3 <;> simp only [h3, reduceCtorEq] at he
  exact pqInsert_fits (addInternal_fits (pqExtractMin_fits (pqExtractMin_fits h h1) h2) h3) he

theorem mergeAll_fits {c : Config} (fuel : Nat) {sc sc' : Scratch} (h : sc.Fits c)
    (he : mergeAll c fuel sc = .ok sc') : sc'.Fits c := by
  induction fuel generalizing sc with
  | zero => cases he; exact h
  | succ fuel ih =>
    unfold mergeAll at he
    split at he
    · rcases h1 : tbMerge c sc with _ | sc1 <;> simp only [h1, bind, Except.bind, reduceCtorEq] at he
      exact ih (tbMerge_fits h h1) he
    · cases he; exact h

theorem tbBuild_fits {c : Config} {sc sc' : Scratch} (h : sc.Fits c) (he : tbBuild c sc = .ok sc') :
    sc'.Fits c := by
  unfold tbBuild at he
  rcases h1 : mergeAll c sc.hn sc with _ | sc1 <;> simp only [h1, bind, Except.bind, reduceCtorEq] at he
  cases he
  have h := mergeAll_fits _ h h1
  exact ⟨h.freq, h.weight, h.nn, h.hn, h.code, h.tbl, h.ipos, h.bpos, h.runCnt, h.path⟩

/-! ### The code table -/

theorem caAssign_fits {c : Config} {sc : Scratch} (h : sc.Fits c) : (caAssign sc).Fits c := by
  obtain ⟨root, code, -, he, hcode⟩ := caAssign_spec sc
  rw [he]
  refine ⟨h.freq, h.weight, h.nn, h.hn, fun s => ?_, h.tbl, h.ipos, h.bpos, h.runCnt, by simp⟩
  rw [hcode]
  exact (codesFrom_entry sc root s).len (h.code s)

/-! ### The packer, the serializer and the codec's data path -/

theorem payloadBits_ok {sc : Scratch} {b : Bits} (h : payloadBits sc = .ok b) : sc.tbl ≤ sc.bits.length := by
  unfold payloadBits at h
  split at h
  · assumption
  · cases h

theorem bpPack_fits {c : Config} {sc sc' : Scratch} (h : sc.Fits c) (he : bpPack sc = .ok sc') :
    sc'.Fits c := by
  rcases hp : payloadBits sc with e | b
  · simp [bpPack, hp, bind, Except.bind] at he
  obtain ⟨acc, accn, h1⟩ := bpPack_eq (payloadBits_ok hp)
  rw [h1] at he
  cases he
  exact ⟨h.freq, h.weight, h.nn, h.hn, h.code, h.tbl, h.ipos, h.tbl, h.runCnt, h.path⟩

theorem bpUnpack_fits {c : Config} {buf : List Byte} {sc sc' : Scratch} (h : sc.Fits c)
    (he : bpUnpack buf sc = .ok sc') : sc'.Fits c := by
  unfold bpUnpack at he
  split at he <;> cases he
  exact ⟨h.freq, h.weight, h.nn, h.hn, h.code, h.tbl, h.ipos, h.bpos, h.runCnt, h.path⟩

theorem freqCount_fits {c : Config} {buf : List Byte} {sc : Scratch} (hb : buf.length < c.limit)
    (h : sc.Fits c) : (freqCount buf sc).Fits c :=
  ⟨fun s => by rw [freqCount_freq]; exact lt_of_le_of_lt List.count_le_length hb, h.weight, h.nn, h.hn, h.code,
    h.tbl, hb, h.bpos, h.runCnt, h.path⟩

theorem symEncode_fits {c : Config} {buf : List Byte} {sc sc' : Scratch} (hb : buf.length < c.limit)
    (h : sc.Fits c) (he : symEncode c buf sc = .ok sc') : sc'.Fits c := by
  rw [symEncode_eq] at he
  split at he <;> cases he
  exact ⟨h.freq, h.weight, h.nn, h.hn, h.code, by assumption, hb, h.bpos, h.runCnt, h.path⟩

theorem append_fits {c : Config} {sc : Scratch} (h : sc.Fits c) (bs : List Byte) : (sc.append bs).Fits c :=
  ⟨h.freq, h.weight, h.nn, h.hn, h.code, h.tbl, h.ipos, h.bpos, h.runCnt, h.path⟩

theorem cbWrite_fits {c : Config} {sc : Scratch} (h : sc.Fits c) : (cbWrite c sc).Fits c := by
  rw [cbWrite_eq]; exact append_fits h _

theorem cbParse_fits {c : Config} {buf : List Byte} {sc sc' : Scratch} (hb : buf.length < c.limit)
    (h : sc.Fits c) (he : cbParse c buf sc = .ok sc') : sc'.Fits c := by
  unfold cbParse at he
  split at he
  · cases he
  rcases h1 : parseEntries c buf (memRead buf 0 c.sz) (2 * c.sz) [] with _ | ⟨dtab, p⟩ <;>
    simp only [h1, bind, Except.bind, reduceCtorEq] at he
  split at he <;> cases he
  refine ⟨h.freq, h.weight, h.nn, h.hn, h.code, ?_, by simp only; omega, h.bpos, h.runCnt, h.path⟩
  rw [c.limit_eq]
  exact memRead_lt _ _

theorem cbCheck_fits {c : Config} {sc sc' : Scratch} (h : sc.Fits c) (he : cbCheck sc = .ok sc') :
    sc'.Fits c := by
  unfold cbCheck at he
  split at he
  · cases he
  · split at he <;> cases he
    exact h

theorem codeWalk_fits {c : Config} {sc sc' : Scratch} (h : sc.Fits c) (he : codeWalk sc = .ok sc') :
    sc'.Fits c := by
  unfold codeWalk at he
  rcases h1 : payloadBits sc with _ | b <;> simp only [h1, bind, Except.bind, reduceCtorEq] at he
  obtain ⟨cand, ys, h2⟩ := walkBits_frame b { sc with cand := [] }
  rw [h2] at he
  split at he <;> cases he
  exact ⟨h.freq, h.weight, h.nn, h.hn, h.code, h.tbl, h.ipos, h.tbl, h.runCnt, h.path⟩

/-! ### The run-length codec -/

theorem runs_le (x : List Byte) (ps : List (Nat × Byte)) (h : expansion ps = x) :
    ∀ p ∈ ps, p.1 ≤ x.length := by
  intro p hp
  rw [← h, expansion_length]
  exact List.le_sum_of_mem (List.mem_map_of_mem hp)

theorem rleScan_fits {c : Config} {buf : List Byte} {sc : Scratch} (hb : buf.length < c.limit)
    (h : sc.Fits c) : (rleScan c buf sc).Fits c := by
  rcases buf with _ | ⟨b, bs⟩
  · exact h
  rw [rleScan_cons]
  refine ⟨h.freq, h.weight, h.nn, h.hn, h.code, h.tbl, by simpa using hb, h.bpos, ?_, h.path⟩
  have := runs_le _ _ (isRuns_runsFrom b bs).spells _ (List.getLast_mem (runsFrom_ne_nil b 1 bs))
  exact lt_of_le_of_lt this hb

theorem rleExpand_fits {c : Config} {buf : List Byte} {sc sc' : Scratch} (hb : buf.length < c.limit)
    (h : sc.Fits c) (he : rleExpand c buf sc = .ok sc') : sc'.Fits c := by
  rw [rleExpand_eq] at he
  split at he
  · cases he
  · split at he <;> cases he
    exact ⟨h.freq, h.weight, h.nn, h.hn, h.code, h.tbl, hb, h.bpos, h.runCnt, h.path⟩

/-! ### The shared operations -/

theorem State.Inv.buf_lt {s : State} (h : s.Inv) : s.buf.length < s.config.limit :=
  lt_of_le_of_lt h.buf h.config.2

theorem State.Inv.release {s : State} (h : s.Inv) : s.release.Inv :=
  ⟨h.config, h.buf, h.status, Scratch.clamp_fits _ _⟩

theorem State.Inv.raise {s : State} (h : s.Inv) (e : Err) : (s.raise e).Inv :=
  ⟨h.config, h.buf, .inr (.inr ⟨e, rfl⟩), Scratch.clamp_fits _ _⟩

theorem State.Inv.commit {s : State} (h : s.Inv) (sc : Scratch) : (s.commit sc).Inv := by
  by_cases hc : sc.slen ≤ s.config.cap
  · rw [State.commit_of_fits hc]
    exact ⟨h.config, hc, .inr (.inl rfl), Scratch.clamp_fits _ _⟩
  · rw [State.commit_of_exceeds (by omega)]
    exact h.raise _

theorem State.Inv.reply {s : State} (h : s.Inv) (r : Reply) : (s.reply r).Inv :=
  ⟨h.config, h.buf, h.status, h.scratch⟩

/-- A unit operation that keeps the widths keeps the invariant. -/
theorem runUop_inv {f : UnitOp} (hf : KeepsFits f) {s t : State} (h : s.Inv) (ht : runUop f s = .next t) :
    t.Inv := by
  obtain ⟨sc, h1, h2⟩ | ⟨e, -, h2⟩ | ⟨r, -, h2⟩ := runUop_cases f s <;> rw [h2] at ht <;> cases ht
  · exact ⟨h.config, h.buf, h.status, hf _ _ _ _ h.buf_lt h.scratch h1⟩
  · exact h.raise e

/-- A command keeps the invariant, whatever its microprogram does to scratch (R30, R306). -/
theorem runCommand_inv {f : UnitOp} {s t : State} (h : s.Inv) (ht : runCommand f s = .next t) : t.Inv := by
  obtain ⟨sc, -, h2⟩ | ⟨e, -, h2⟩ | ⟨r, -, h2⟩ := runCommand_cases f s <;> rw [h2] at ht <;> cases ht
  · exact h.commit sc
  · exact h.raise e

end Sys2Proof.Machine
end

