-- ==== Sys2Proof/Laws/PerInstr.lean ====
section
/-! SUPPORT. The statements made per operation: the family `CommandByte`, what the kind of an operation says of
its encoding (spec/30_encoding.md R92, R96). -/

/-- A well-formed operation is encoded as a command byte below 4 if it is a command (R92), and else as a select
value, with no command byte (R96). -/
def Sys2Proof.Laws.CommandByte.Statement (i : Sys2Proof.Instr) : Prop :=
  (i.isCommand = true → ∃ c : Sys2Proof.Byte, Sys2Proof.encode i = .cmd c ∧ c.toNat < 4) ∧
  (i.isCommand = false → ∃ id n, Sys2Proof.encode i = .uop id n)

namespace Sys2Proof.Laws.CommandByte

theorem hufEnc : Statement .hufEnc := ⟨fun _ => ⟨_, rfl, by decide⟩, by simp [Instr.isCommand]⟩
theorem hufDec : Statement .hufDec := ⟨fun _ => ⟨_, rfl, by decide⟩, by simp [Instr.isCommand]⟩
theorem rleEnc : Statement .rleEnc := ⟨fun _ => ⟨_, rfl, by decide⟩, by simp [Instr.isCommand]⟩
theorem rleDec : Statement .rleDec := ⟨fun _ => ⟨_, rfl, by decide⟩, by simp [Instr.isCommand]⟩
theorem pqBuild : Statement .pqBuild := ⟨by simp [Instr.isCommand], fun _ => ⟨_, _, rfl⟩⟩
theorem pqInsert (n : BitVec 9) : Statement (.pqInsert n) := ⟨by simp [Instr.isCommand], fun _ => ⟨_, _, rfl⟩⟩
theorem pqExtractMin : Statement .pqExtractMin := ⟨by simp [Instr.isCommand], fun _ => ⟨_, _, rfl⟩⟩
theorem tbMerge : Statement .tbMerge := ⟨by simp [Instr.isCommand], fun _ => ⟨_, _, rfl⟩⟩
theorem tbBuild : Statement .tbBuild := ⟨by simp [Instr.isCommand], fun _ => ⟨_, _, rfl⟩⟩
theorem caAssign : Statement .caAssign := ⟨by simp [Instr.isCommand], fun _ => ⟨_, _, rfl⟩⟩
theorem bpPack : Statement .bpPack := ⟨by simp [Instr.isCommand], fun _ => ⟨_, _, rfl⟩⟩
theorem bpUnpack : Statement .bpUnpack := ⟨by simp [Instr.isCommand], fun _ => ⟨_, _, rfl⟩⟩
theorem freqCount : Statement .freqCount := ⟨by simp [Instr.isCommand], fun _ => ⟨_, _, rfl⟩⟩
theorem symEncode : Statement .symEncode := ⟨by simp [Instr.isCommand], fun _ => ⟨_, _, rfl⟩⟩
theorem cbWrite : Statement .cbWrite := ⟨by simp [Instr.isCommand], fun _ => ⟨_, _, rfl⟩⟩
theorem cbParse : Statement .cbParse := ⟨by simp [Instr.isCommand], fun _ => ⟨_, _, rfl⟩⟩
theorem cbCheck : Statement .cbCheck := ⟨by simp [Instr.isCommand], fun _ => ⟨_, _, rfl⟩⟩
theorem codeWalk : Statement .codeWalk := ⟨by simp [Instr.isCommand], fun _ => ⟨_, _, rfl⟩⟩
theorem rleScan : Statement .rleScan := ⟨by simp [Instr.isCommand], fun _ => ⟨_, _, rfl⟩⟩
theorem rleExpand : Statement .rleExpand := ⟨by simp [Instr.isCommand], fun _ => ⟨_, _, rfl⟩⟩

end Sys2Proof.Laws.CommandByte
end

