-- ==== Sys2Proof/Tests/Slice0.lean ====
section
/-! SUPPORT. The model's own tests: encodings written out from spec/30_encoding.md, the examples of the rules and
vectors of spec/95_test_vectors.md, and one witness per statement that has hypotheses. -/

namespace Sys2Proof.Tests

open Sys2Proof.Machine

set_option maxRecDepth 100000
set_option Elab.async false

/-! ### Helpers -/

/-- The state after reset with `x` in BUF. -/
def holding (x : List Byte) : State := { State.reset with buf := x }

/-- The state after reset with the scratch state `sc`. -/
def scratching (sc : Scratch) : State := { State.reset with scratch := sc }

/-- Whether an outcome is a next state of which `p` holds. -/
def nextWith (o : Host.Outcome State Fault Refusal) (p : State → Bool) : Bool :=
  match o with
  | .next t => p t
  | .fault _ => false
  | .refused _ => false

theorem exists_next {o : Host.Outcome State Fault Refusal} {p : State → Bool} (h : nextWith o p = true) :
    ∃ t, o = .next t ∧ p t = true := by
  cases o with
  | next t => exact ⟨t, rfl, h⟩
  | fault _ => cases h
  | refused _ => cases h

/-- Whether an outcome is a next state with this STATUS and this BUF. -/
def ends (o : Host.Outcome State Fault Refusal) (status : BitVec 8) (x : List Byte) : Bool :=
  nextWith o fun t => t.status == status && t.buf == x

/-- Whether an outcome is the fault `f`. -/
def faults (o : Host.Outcome State Fault Refusal) (f : Fault) : Bool :=
  match o with
  | .next _ => false
  | .fault g => g == f
  | .refused _ => false

/-- An 8-byte size field of a small value. -/
def size8 (b : Byte) : List Byte := [b, 0, 0, 0, 0, 0, 0, 0]

/-- The three leaves of the examples of R135, R151 and R171. -/
def leaves3 : Vector Node 511 :=
  nodeSet (nodeSet (nodeSet Scratch.zero.node 0 ⟨true, 0x41, 3, 0, 0⟩) 1 ⟨true, 0x42, 2, 0, 0⟩) 2
    ⟨true, 0x43, 1, 0, 0⟩

/-- The heap of three entries. -/
def heap3 (a b c : NodeIdx) : Vector NodeIdx 256 :=
  heapSet (heapSet (heapSet Scratch.zero.heap 0 a) 1 b) 2 c

/-- The queue of the example of R151. -/
def queue3 : Scratch := { Scratch.zero with node := leaves3, nn := 3, heap := heap3 2 1 0, hn := 3 }

/-- The codes of the example of R202. -/
def codes3 : Vector CodeEntry 256 :=
  symSet (symSet (symSet Scratch.zero.code 0x41 ⟨true, [false]⟩) 0x42 ⟨true, [true, true]⟩) 0x43
    ⟨true, [true, false]⟩

/-- The codebook of the same example (R204). -/
def book3 : List DecodeEntry :=
  [⟨0x41, [false]⟩, ⟨0x42, [true, true]⟩, ⟨0x43, [true, false]⟩]

/-- "000111110" (R202). -/
def bits9 : Bits := [false, false, false, true, true, true, true, true, false]

/-- 41 41 41 42 42 43. -/
def aaabbc : List Byte := [0x41, 0x41, 0x41, 0x42, 0x42, 0x43]

/-- The container of `aaabbc`, vector HE1 (R231's example). -/
def he1 : List Byte :=
  size8 3 ++ size8 9 ++ [0x41] ++ size8 1 ++ [0x00] ++ [0x42] ++ size8 2 ++ [0xC0] ++ [0x43] ++ size8 2 ++ [0x80]
    ++ [0x1F, 0x00]

/-! ### Encodings (spec/30_encoding.md R91, R92, R96, R100) -/

theorem test_decode_huf_enc : decode (.cmd 0b00000000) = .ok .hufEnc := by decide
theorem test_decode_huf_dec : decode (.cmd 0b00000001) = .ok .hufDec := by decide
theorem test_decode_rle_enc : decode (.cmd 0b00000010) = .ok .rleEnc := by decide
theorem test_decode_rle_dec : decode (.cmd 0b00000011) = .ok .rleDec := by decide
theorem test_decode_pq_build : decode (.uop 0b0000 0) = .ok .pqBuild := by decide
theorem test_decode_pq_insert : decode (.uop 0b0001 0b111111110) = .ok (.pqInsert 510) := by decide
theorem test_decode_pq_extract_min : decode (.uop 0b0010 0) = .ok .pqExtractMin := by decide
theorem test_decode_tb_merge : decode (.uop 0b0011 0) = .ok .tbMerge := by decide
theorem test_decode_tb_build : decode (.uop 0b0100 0) = .ok .tbBuild := by decide
theorem test_decode_ca_assign : decode (.uop 0b0101 0) = .ok .caAssign := by decide
theorem test_decode_bp_pack : decode (.uop 0b0110 0) = .ok .bpPack := by decide
theorem test_decode_bp_unpack : decode (.uop 0b0111 0) = .ok .bpUnpack := by decide
theorem test_decode_freq_count : decode (.uop 0b1000 0) = .ok .freqCount := by decide
theorem test_decode_sym_encode : decode (.uop 0b1001 0) = .ok .symEncode := by decide
theorem test_decode_cb_write : decode (.uop 0b1010 0) = .ok .cbWrite := by decide
theorem test_decode_cb_parse : decode (.uop 0b1011 0) = .ok .cbParse := by decide
theorem test_decode_cb_check : decode (.uop 0b1100 0) = .ok .cbCheck := by decide
theorem test_decode_code_walk : decode (.uop 0b1101 0) = .ok .codeWalk := by decide
theorem test_decode_rle_scan : decode (.uop 0b1110 0) = .ok .rleScan := by decide
theorem test_decode_rle_expand : decode (.uop 0b1111 0) = .ok .rleExpand := by decide

theorem test_decode_refuses_reserved :
    decode (.cmd 0x04) = .error (.reservedCommand 0x04) ∧ decode (.cmd 0x80) = .error (.reservedCommand 0x80) ∧
    decode (.cmd 0xFF) = .error (.reservedCommand 0xFF) := by decide

theorem test_decode_refuses_node_511 : decode (.uop 1 511) = .error (.noSuchNode 511) := by decide

theorem test_table_words : decodeTableWord 8 0x00 = some .hufEnc ∧ decodeTableWord 8 0x03 = some .rleDec ∧
    decodeTableWord 8 0x0E = some .rleScan ∧ decodeTableWord 4 0x3 = some .tbMerge ∧
    decodeTableWord 8 0x10 = none ∧ decodeTableWord 16 0x100 = none := by decide

/-- Smoke of `Instr.wf`: the one ill-formed operand is refused, its neighbour is not (R40). -/
theorem test_wf_refuses_node_511 :
    (Instr.pqInsert 511).wf = false ∧ (Instr.pqInsert 510).wf = true ∧ Instr.hufEnc.wf = true := by decide

/-! ### Commands (spec/95_test_vectors.md) -/

theorem test_huf_enc_he1 : ends (exec .hufEnc (holding aaabbc)) 0x08 he1 = true := by decide +kernel
theorem test_huf_dec_hd1_hd2 : ends (exec .hufDec (holding he1)) 0x08 aaabbc = true ∧
    ends (exec .hufDec (holding (he1.take 47))) 0x09 (he1.take 47) = true := by decide +kernel
theorem test_huf_dec_hd13 :
    ends (exec .hufDec (holding (List.replicate 8 0xFF ++ size8 0))) 0x09 (List.replicate 8 0xFF ++ size8 0) = true
    := by decide +kernel
theorem test_rle_enc_re3 : ends (exec .rleEnc (holding [0x41, 0x41, 0x41, 0x42])) 0x08
    (size8 3 ++ [0x41] ++ size8 1 ++ [0x42]) = true := by decide +kernel
theorem test_rle_enc_re3_sz4 :
    ends (exec .rleEnc { holding [0x41, 0x41, 0x41, 0x42] with config := ⟨.four, 100⟩ }) 0x08
      [3, 0, 0, 0, 0x41, 1, 0, 0, 0, 0x42] = true := by decide +kernel
theorem test_rle_dec_rd2_rd3 :
    ends (exec .rleDec (holding (size8 3 ++ [0x41] ++ size8 1))) 0x09 (size8 3 ++ [0x41] ++ size8 1) = true ∧
    ends (exec .rleDec (holding (size8 0 ++ [0x41] ++ size8 2 ++ [0x42]))) 0x08 [0x42, 0x42] = true := by
  decide +kernel
/-- Vector RD9: the sum of the counts is compared as a natural number (R75). -/
theorem test_rle_dec_rd9 :
    nextWith (exec .rleDec (holding (List.replicate 8 0xFF ++ [0x41] ++ size8 1 ++ [0x42])))
      (fun t => t.status == 0x0D) = true := by decide +kernel

/-! ### Transactions and dispatch (vectors CM1 to CM6) -/

theorem test_cm2 : nextWith (step { holding [0x41] with script := [.issue 0x04] })
    (fun t => t.status == 0x0C && t.buf == [0x41]) = true := by decide +kernel
theorem test_cm6 : nextWith (step { State.reset with status := 0x09, script := [.load [1, 2]] })
    (fun t => t.status == 0x09 && t.buf == [1, 2]) = true := by decide +kernel
theorem test_cm1_cfg : nextWith (step { State.reset with script := [.readCfg] })
    (fun t => t.replies == [.reg 0x08]) = true := by decide +kernel
theorem test_fetch_word_runs_unit_operation : nextWith (step (State.reset.withFetchWord 8 0xC))
    (fun t => t.sel == none && t.script == []) = true := by decide +kernel

/-! ### Unit operations (the examples of their rules) -/

theorem test_freq_count : nextWith (exec .freqCount (holding aaabbc)) (fun t =>
    symGet t.scratch.freq 0x41 == 3 && symGet t.scratch.freq 0x43 == 1 && symGet t.scratch.freq 0x44 == 0) = true
    := by decide +kernel
theorem test_pq_build : nextWith (exec .pqBuild (scratching { Scratch.zero with
      freq := symSet (symSet (symSet Scratch.zero.freq 0x41 3) 0x42 2) 0x43 1 })) (fun t =>
    t.scratch.queue == [2, 1, 0] && t.scratch.nn == 3 && nodeGet t.scratch.node 0 == ⟨true, 0x41, 3, 0, 0⟩
      && nodeGet t.scratch.node 2 == ⟨true, 0x43, 1, 0, 0⟩) = true := by decide +kernel
theorem test_pq_insert : nextWith (exec (.pqInsert 3) (scratching { Scratch.zero with
      node := nodeSet leaves3 3 ⟨false, 0, 3, 2, 1⟩, nn := 4, hn := 1 })) (fun t =>
    t.scratch.queue == [0, 3]) = true := by decide +kernel
theorem test_pq_extract_min : nextWith (exec .pqExtractMin (scratching queue3)) (fun t =>
    t.scratch.ret == 2 && t.scratch.queue == [1, 0]) = true := by decide +kernel
theorem test_pq_extract_min_empty : nextWith (exec .pqExtractMin State.reset) (fun t => t.status == 0x0B) = true
    := by decide +kernel
theorem test_tb_merge : nextWith (exec .tbMerge (scratching queue3)) (fun t =>
    nodeGet t.scratch.node 3 == ⟨false, 0, 3, 2, 1⟩ && t.scratch.queue == [0, 3] && t.scratch.nn == 4) = true := by
  decide +kernel
theorem test_tb_build : nextWith (exec .tbBuild (scratching queue3)) (fun t =>
    nodeGet t.scratch.node 4 == ⟨false, 0, 6, 0, 3⟩ && t.scratch.root == 4 && t.scratch.rootValid
      && t.scratch.queue == [4]) = true := by decide +kernel
theorem test_ca_assign : nextWith (exec .caAssign (scratching { Scratch.zero with
      node := nodeSet (nodeSet leaves3 3 ⟨false, 0, 3, 2, 1⟩) 4 ⟨false, 0, 6, 0, 3⟩
      nn := 5, root := 4, rootValid := true })) (fun t =>
    symGet t.scratch.code 0x41 == ⟨true, [false]⟩ && symGet t.scratch.code 0x43 == ⟨true, [true, false]⟩
      && symGet t.scratch.code 0x42 == ⟨true, [true, true]⟩ && !(symGet t.scratch.code 0x44).valid) = true := by
  decide +kernel
/-- With ROOT invalid, as after reset, CA_ASSIGN runs to its end (R171, R347). -/
theorem test_ca_assign_root_invalid : nextWith (exec .caAssign State.reset) (fun t =>
    t.scratch.path == [] && t.status == 0x00 && !t.scratch.rootValid) = true := by decide +kernel
theorem test_sym_encode : nextWith (exec .symEncode { scratching { Scratch.zero with code := codes3 } with
      buf := aaabbc }) (fun t => t.scratch.bits == bits9 && t.scratch.tbl == 9) = true := by decide +kernel
theorem test_cb_write : nextWith (exec .cbWrite (scratching { Scratch.zero with code := codes3, tbl := 9 })) (fun t =>
    t.scratch.stage == he1.take 46) = true := by decide +kernel
theorem test_bp_pack : nextWith (exec .bpPack (scratching { Scratch.zero with bits := bits9, tbl := 9 })) (fun t =>
    t.scratch.stage == [0x1F, 0x00]) = true := by decide +kernel
theorem test_bp_unpack_bp10 : nextWith (exec .bpUnpack { scratching { Scratch.zero with tbl := 9 } with
      buf := [0x1F, 0x7F] }) (fun t => t.scratch.bits == bits9) = true := by decide +kernel
theorem test_cb_parse : nextWith (exec .cbParse (holding he1)) (fun t =>
    t.scratch.dtab == book3 && t.scratch.tbl == 9 && t.scratch.ppos == 46) = true := by decide +kernel
theorem test_cb_check : nextWith (exec .cbCheck (scratching { Scratch.zero with
      dtab := [⟨0x41, [false]⟩, ⟨0x42, [false, true]⟩] })) (fun t => t.status == 0x0A) = true := by decide +kernel
theorem test_code_walk : nextWith (exec .codeWalk (scratching { Scratch.zero with
      dtab := book3, bits := bits9, tbl := 9 })) (fun t => t.scratch.stage == aaabbc) = true := by decide +kernel
theorem test_code_walk_mid_code : nextWith (exec .codeWalk (scratching { Scratch.zero with
      dtab := book3, bits := [false, false, false, true, true, true, true, true], tbl := 8 })) (fun t =>
    t.status == 0x09) = true := by decide +kernel
theorem test_rle_scan : nextWith (exec .rleScan (holding [0x41, 0x41, 0x41, 0x42])) (fun t =>
    t.scratch.stage == size8 3 ++ [0x41] ++ size8 1 ++ [0x42]) = true := by decide +kernel
theorem test_rle_expand : nextWith (exec .rleExpand (holding (size8 3 ++ [0x41] ++ size8 1 ++ [0x42]))) (fun t =>
    t.scratch.stage == [0x41, 0x41, 0x41, 0x42]) = true := by decide +kernel

/-! ### Witnesses: states and operands that meet the hypotheses of each statement

The name after `witness_` is the statement's.  Clauses are met at a boundary of their range. -/

/-- The state after reset with the transactions `script` to come. -/
def asking (script : List HostOp) : State := { State.reset with script := script }

/-- A configuration with room for two bytes. -/
def small : Config := ⟨.four, 2⟩

/-- The container of the empty input (R233). -/
def zeros16 : List Byte := List.replicate 16 0

theorem inv_of_zero {s : State} (hsc : s.scratch = Scratch.zero) (hc : s.config.Legal) (hb : s.len ≤ s.config.cap)
    (hst : LegalStatus s.status) : s.Inv := ⟨hc, hb, hst, hsc ▸ Scratch.zero_fits _⟩

/-- The state a list of unit operations leads to, if none of them raises an error or stops. -/
def runAll : List Instr → State → Option State
  | [], s => some s
  | i :: is, s =>
    match exec i s with
    | .next t => if t.draws = s.draws then runAll is t else none
    | .fault _ => none
    | .refused _ => none

theorem chain_of_runAll (is : List Instr) (s u : State) (h : runAll is s = some u) : Chain is s u := by
  induction is generalizing s with
  | nil => exact (Option.some.inj h).symm
  | cons i is ih =>
    unfold runAll at h
    split at h
    · split at h
      · exact ⟨_, by assumption, by assumption, ih _ h⟩
      · cases h
    · cases h
    · cases h

theorem decodable_book3 : Decodable book3 :=
  ⟨by decide, (prefixFree_iff_pairwise _).mpr (by decide)⟩

theorem not_decodable_empty_code : ¬ Decodable [⟨0x41, []⟩] := fun h =>
  h.nonempty _ (List.mem_singleton.mpr rfl) rfl

theorem witness_DecodeOfEncode : (Instr.pqInsert 510).wf = true := by decide

theorem witness_EncodeOfDecode :
    decodeCommand 0x03 = .ok .rleDec ∧ decodeUop 0x1 510 = .ok (.pqInsert 510) ∧ decodeUop 0xF 0 = .ok .rleExpand := by
  decide

theorem witness_ReservedCommandRaisesIllegalCommand :
    (asking [.issue 0x04]).sel = none ∧ (asking [.issue 0x04]).script = .issue 0x04 :: [] ∧ 0x04 ≤ (0x04 : Byte).toNat ∧
    (asking [.issue 0xFF]).script = .issue 0xFF :: [] ∧ 0x04 ≤ (0xFF : Byte).toNat := ⟨rfl, rfl, by decide, rfl, by decide⟩

theorem witness_StepRunsIssuedCommand :
    (asking [.issue 0x03]).sel = none ∧ (asking [.issue 0x03]).script = .issue 0x03 :: [] ∧
    decodeCommand 0x03 = .ok .rleDec := ⟨rfl, rfl, by decide⟩

theorem witness_StepRunsSelectedOperation :
    ({ State.reset with sel := some (0x1, 510) } : State).sel = some (0x1, 510) ∧
    decodeUop 0x1 510 = .ok (.pqInsert 510) := ⟨rfl, by decide⟩

theorem witness_FetchWordRunsItsOperation :
    (decodeTableWord 4 0x1 = some (.pqInsert 0) ∧ (Instr.pqInsert 0).isCommand = false) ∧
    decodeTableWord 8 0x03 = some .rleDec ∧ Instr.rleDec.isCommand = true ∧
    ∃ t, exec .rleDec { State.reset with sel := none } = .next t ∧ (t.status == 0x08) = true :=
  ⟨by decide, by decide, by decide, exists_next (p := fun t => t.status == 0x08) (by decide +kernel)⟩

theorem witness_IdleStepChangesNothing : State.reset.sel = none ∧ State.reset.script = [] := ⟨rfl, rfl⟩

/-- Loads of `CAP` and of `CAP + 1` bytes. -/
theorem witness_LoadReplacesBuffer :
    (asking [.load [1, 2]]).sel = none ∧ (asking [.load [1, 2]]).script = .load [1, 2] :: [] ∧
    [1, 2].length ≤ ({ asking [.load [1, 2]] with config := small } : State).config.cap ∧
    ({ asking [.load [1, 2, 3]] with config := small } : State).config.cap < [1, 2, 3].length :=
  ⟨rfl, rfl, by decide, by decide⟩

theorem witness_HostReadsHaveNoSideEffect : (asking []).sel = none ∧ (asking [.read]).script = .read :: [] ∧
    (asking [.readStatus]).script = .readStatus :: [] ∧ (asking [.readCfg]).script = .readCfg :: [] :=
  ⟨rfl, rfl, rfl, rfl⟩

/-- The first byte, the last one, and the first address that does not exist. -/
theorem witness_ByteReadIsBoundedByLen : (asking [.readByte 0]).script = .readByte 0 :: [] ∧
    (holding [1, 2, 3]).sel = none ∧ 0 < (holding [1, 2, 3]).buf.length ∧ 2 < (holding [1, 2, 3]).buf.length ∧
    (holding [1, 2, 3]).buf.length ≤ 3 := ⟨rfl, rfl, by decide, by decide, by decide⟩

theorem witness_RegisterNumbersSelectRegisters :
    (asking []).sel = none ∧ (asking [.readReg 0]).script = .readReg 0 :: [] ∧
    (asking [.readReg 1]).script = .readReg 1 :: [] ∧ (asking [.readReg 2]).script = .readReg 2 :: [] ∧
    (asking [.readReg 3]).script = .readReg 3 :: [] ∧
    (asking [.writeReg 0 255]).script = .writeReg 0 (0xFF : Byte).toNat :: [] ∧
    ((asking [.writeReg 0 256]).script = .writeReg 0 256 :: [] ∧ 256 ≤ 256) ∧
    ((asking [.writeReg 1 0]).script = .writeReg 1 0 :: [] ∧ (1 : BitVec 2) ≠ 0) ∧
    ((asking [.writeReg 3 0]).script = .writeReg 3 0 :: [] ∧ (3 : BitVec 2) ≠ 0) :=
  ⟨rfl, rfl, rfl, rfl, rfl, rfl, ⟨rfl, by decide⟩, ⟨rfl, by decide⟩, ⟨rfl, by decide⟩⟩

theorem witness_ResetEventClears :
    ({ asking [.reset] with buf := [1], status := 0x0D } : State).sel = none ∧
    ({ asking [.reset] with buf := [1], status := 0x0D } : State).script = .reset :: [] := ⟨rfl, rfl⟩

/-- A full buffer of the smallest configuration, and a load that fills it. -/
theorem witness_StepKeepsInvariant :
    ({ asking [.load [2]] with config := ⟨.four, 1⟩, buf := [1], status := 0x0D } : State).Inv ∧
    ∃ t, step { asking [.load [2]] with config := ⟨.four, 1⟩, buf := [1], status := 0x0D } = .next t ∧
      (t.buf == [2]) = true :=
  ⟨inv_of_zero rfl (by decide) (by decide) (.inr (.inr ⟨.capacityExceeded, rfl⟩)),
    exists_next (p := fun t => t.buf == [2]) (by decide +kernel)⟩

theorem witness_StepKeepsMemoryCanonical : ({ holding [0x41] with script := [.issue 0x02] } : State).Inv ∧
    ∃ t, step { holding [0x41] with script := [.issue 0x02] } = .next t ∧ (t.len == 9) = true :=
  ⟨inv_of_zero rfl (by decide) (by decide) (.inl rfl), exists_next (p := fun t => t.len == 9) (by decide +kernel)⟩

theorem witness_BufferWriters :
    (∃ t, step (asking [.load [1]]) = .next t ∧ (t.buf != State.reset.buf) = true) ∧
    (∃ t, step { holding [1] with script := [.reset] } = .next t ∧ (t.buf != [1]) = true) ∧
    ∃ t, step { holding [1] with script := [.writeReg 0 2] } = .next t ∧ (t.buf != [1]) = true :=
  ⟨exists_next (p := fun t => t.buf != State.reset.buf) (by decide +kernel),
    exists_next (p := fun t => t.buf != [1]) (by decide +kernel),
    exists_next (p := fun t => t.buf != [1]) (by decide +kernel)⟩

theorem witness_StatusWriters :
    (∃ t, step { asking [.reset] with status := 0x09 } = .next t ∧ (t.status != 0x09) = true) ∧
    (∃ t, step (asking [.issue 0xFF]) = .next t ∧ (t.status != 0x00) = true) ∧
    ∃ t, step { State.reset with sel := some (0x2, 0) } = .next t ∧ (t.status != 0x00) = true :=
  ⟨exists_next (p := fun t => t.status != 0x09) (by decide +kernel),
    exists_next (p := fun t => t.status != 0x00) (by decide +kernel),
    exists_next (p := fun t => t.status != 0x00) (by decide +kernel)⟩

theorem witness_ParametersAreConstant :
    ∃ t, step { asking [.issue 0x03] with config := small } = .next t ∧ (t.status == 0x08) = true :=
  exists_next (p := fun t => t.status == 0x08) (by decide +kernel)

theorem witness_StatusFieldsAreLegal : State.reset.Inv ∧ ({ State.reset with status := 0x0D } : State).Inv :=
  ⟨inv_of_zero rfl (by decide) (by decide) (.inl rfl),
    inv_of_zero rfl (by decide) (by decide) (.inr (.inr ⟨.capacityExceeded, rfl⟩))⟩

theorem witness_FailedCommandChangesOnlyStatus : Instr.hufDec.isCommand = true ∧
    ∃ t, exec .hufDec State.reset = .next t ∧ (t.status != 0x08) = true :=
  ⟨rfl, exists_next (p := fun t => t.status != 0x08) (by decide +kernel)⟩

theorem witness_UnitOperationFrame : Instr.freqCount.isCommand = false ∧ Instr.pqExtractMin.isCommand = false ∧
    (∃ t, exec .freqCount (holding [1]) = .next t ∧ (t.scratch.ipos == 1) = true) ∧
    ∃ t, exec .pqExtractMin State.reset = .next t ∧ (t.status == 0x0B) = true :=
  ⟨rfl, rfl, exists_next (p := fun t => t.scratch.ipos == 1) (by decide +kernel),
    exists_next (p := fun t => t.status == 0x0B) (by decide +kernel)⟩

theorem witness_EveryCommandEnds : Instr.hufEnc.isCommand = true ∧
    ({ holding [1, 2] with config := small, status := 0x08 } : State).Inv :=
  ⟨rfl, inv_of_zero rfl (by decide) (by decide) (.inr (.inl rfl))⟩

/-- Two states that agree on BUF and the parameters alone. -/
theorem witness_CommandsIgnoreEverythingButBuffer :
    Instr.rleEnc.isCommand = true ∧ (holding [0x41]).Inv ∧
    ({ holding [0x41] with status := 0x0C, scratch := queue3.clamp Config.decided, draws := 7 } : State).Inv ∧
    (∃ t, exec .rleEnc (holding [0x41]) = .next t ∧ (t.status == 0x08) = true) ∧
    ∃ t, exec .rleEnc { holding [0x41] with
      status := 0x0C, scratch := queue3.clamp Config.decided, draws := 7 } = .next t ∧ (t.status == 0x08) = true :=
  ⟨rfl, inv_of_zero rfl (by decide) (by decide) (.inl rfl),
    ⟨show Config.decided.Legal by decide, by decide, .inr (.inr ⟨.illegalCommand, rfl⟩), Scratch.clamp_fits _ _⟩,
    exists_next (p := fun t => t.status == 0x08) (by decide +kernel),
    exists_next (p := fun t => t.status == 0x08) (by decide +kernel)⟩

/-- HUF_DEC of the container of the empty input runs to its end; on an empty buffer its first operation raises. -/
theorem witness_CommandsRunTheirMicroprograms :
    (∃ u, Chain (microprogram (holding zeros16).len .hufDec)
      { holding zeros16 with scratch := (holding zeros16).scratch.init } u) ∧
    microprogram State.reset.len .hufDec = [] ++ .cbParse :: [.cbCheck, .bpUnpack, .codeWalk] ∧
    Chain [] { State.reset with scratch := State.reset.scratch.init }
      { State.reset with scratch := State.reset.scratch.init } ∧
    ∃ v, exec .cbParse { State.reset with scratch := State.reset.scratch.init } = .next v ∧
      (v.draws != State.reset.draws) = true := by
  refine ⟨?_, rfl, rfl, exists_next (p := fun v => v.draws != State.reset.draws) (by decide +kernel)⟩
  have h : (runAll (microprogram (holding zeros16).len .hufDec)
      { holding zeros16 with scratch := (holding zeros16).scratch.init }).isSome = true := by decide +kernel
  obtain ⟨u, hu⟩ := Option.isSome_iff_exists.mp h
  exact ⟨u, chain_of_runAll _ _ _ hu⟩

theorem witness_RleEncWritesRuns : IsRuns [0x41, 0x41, 0x42] [(2, 0x41), (1, 0x42)] ∧ IsRuns [] [] :=
  ⟨⟨by decide, by simp, by decide⟩, ⟨by decide, by simp, by decide⟩⟩

theorem witness_RleRoundTrip : (holding [0x41, 0x41]).Inv ∧
    ∃ t, exec .rleEnc (holding [0x41, 0x41]) = .next t ∧ (t.status == 0x08) = true :=
  ⟨inv_of_zero rfl (by decide) (by decide) (.inl rfl),
    exists_next (p := fun t => t.status == 0x08) (by decide +kernel)⟩

/-- An empty buffer, and one that fills a `CAP` of one byte. -/
theorem witness_HufEncWritesContainer : State.reset.Inv ∧
    ({ holding [0x41] with config := ⟨.four, 1⟩ } : State).Inv :=
  ⟨inv_of_zero rfl (by decide) (by decide) (.inl rfl), inv_of_zero rfl (by decide) (by decide) (.inl rfl)⟩

theorem witness_HufEncOfOneSymbol : (holding [0x41]).Inv ∧ 1 ≤ 1 ∧ (holding [0x41]).buf = List.replicate 1 0x41 :=
  ⟨inv_of_zero rfl (by decide) (by decide) (.inl rfl), by decide, rfl⟩

theorem witness_HufDecReadsContainer :
    Decodable book3 ∧ (∀ e ∈ book3.take 2, e ∈ book3) ∧ book3.length < Config.decided.limit ∧
    (∀ e ∈ book3, e.code.length < Config.decided.limit) ∧
    ((book3.take 2).flatMap (·.code)).length < Config.decided.limit ∧
    (holding (container Config.decided book3 ((book3.take 2).flatMap (·.code)) ++ [0xFF])).buf =
      container (holding []).config book3 ((book3.take 2).flatMap (·.code)) ++ [0xFF] :=
  ⟨decodable_book3, by decide, by decide, by decide, by decide, rfl⟩

theorem witness_HufDecRejects :
    (holding (List.replicate 15 0)).len < 2 * (holding []).config.sz ∧
    (¬ Decodable [⟨0x41, []⟩] ∧ [(⟨0x41, []⟩ : DecodeEntry)].length < Config.decided.limit ∧
      (∀ e ∈ [(⟨0x41, []⟩ : DecodeEntry)], e.code.length < Config.decided.limit) ∧
      ([] : Bits).length < Config.decided.limit ∧
      (holding (container Config.decided [⟨0x41, []⟩] [] ++ [])).buf =
        container (holding []).config [⟨0x41, []⟩] [] ++ []) ∧
    (Decodable book3 ∧ (∀ e ∈ book3.take 1, e ∈ book3) ∧ [true] ≠ [] ∧
      (∀ e ∈ book3, isPrefix e.code [true] = false) ∧ book3.length < Config.decided.limit ∧
      (∀ e ∈ book3, e.code.length < Config.decided.limit) ∧
      ((book3.take 1).flatMap (·.code) ++ [true]).length < Config.decided.limit ∧
      (holding (container Config.decided book3 ((book3.take 1).flatMap (·.code) ++ [true]) ++ [])).buf =
        container (holding []).config book3 ((book3.take 1).flatMap (·.code) ++ [true]) ++ []) :=
  ⟨by decide, ⟨not_decodable_empty_code, by decide, by decide, by decide, rfl⟩,
    ⟨decodable_book3, by decide, by decide, by decide, by decide, by decide, by decide, rfl⟩⟩

theorem witness_HufRoundTrip : (holding [0x41, 0x42]).Inv ∧
    ∃ t, exec .hufEnc (holding [0x41, 0x42]) = .next t ∧ (t.status == 0x08) = true :=
  ⟨inv_of_zero rfl (by decide) (by decide) (.inl rfl),
    exists_next (p := fun t => t.status == 0x08) (by decide +kernel)⟩

theorem witness_EmptyInput : State.reset.Inv ∧ State.reset.buf = [] ∧ (holding zeros16).Inv ∧
    (holding zeros16).buf = List.replicate (2 * (holding zeros16).config.sz) 0 :=
  ⟨inv_of_zero rfl (by decide) (by decide) (.inl rfl), rfl,
    inv_of_zero rfl (by decide) (by decide) (.inl rfl), rfl⟩

/-- FREQ with 0 entries, and with all 256. -/
theorem witness_PqBuildMakesLeafHeap :
    [] = symbols.filter (fun b => decide (1 ≤ symGet Scratch.zero.freq b)) ∧
    symbols = symbols.filter (fun b => decide (1 ≤ symGet (Vector.replicate 256 1) b)) := by
  constructor <;> decide +kernel

theorem heapInv_zero : Scratch.zero.HeapInv := ⟨by decide, fun i h1 h2 => absurd h2 (Nat.not_lt_zero i), by decide⟩

theorem heapInv_queue3 : queue3.HeapInv where
  room := by decide
  ordered i h1 h2 := by
    have h : i = 1 ∨ i = 2 := by
      have : i < 3 := h2
      omega
    rcases h with rfl | rfl <;> decide +kernel
  distinct := by decide +kernel

theorem witness_PqInsertQueuesNode :
    ({ Scratch.zero with hn := 255 } : Scratch).hn < 256 ∧ (510 : BitVec 9).toNat < 511 ∧
    (Scratch.zero.hn < 256 ∧ Scratch.zero.HeapInv ∧ (510 : NodeIdx) ∉ Scratch.zero.queue) ∧
    (queue3.HeapInv ∧ (3 : NodeIdx) ∉ queue3.queue) ∧
    256 ≤ ({ Scratch.zero with hn := 256 } : Scratch).hn ∧ (511 : BitVec 9).toNat = 511 :=
  ⟨by decide, by decide, ⟨by decide, heapInv_zero, by decide⟩, ⟨heapInv_queue3, by decide +kernel⟩, by decide, by decide⟩

theorem witness_PqExtractMinTakesLeast : Scratch.zero.hn = 0 ∧
    (1 ≤ ({ Scratch.zero with hn := 1 } : Scratch).hn ∧ ({ Scratch.zero with hn := 256 } : Scratch).hn ≤ 256) ∧
    (1 ≤ queue3.hn ∧ queue3.hn ≤ 256 ∧ queue3.HeapInv) :=
  ⟨by decide, ⟨by decide, by decide⟩, ⟨by decide, by decide, heapInv_queue3⟩⟩

theorem witness_TbMergeJoinsTwoLeast : ({ Scratch.zero with hn := 1 } : Scratch).hn < 2 ∧
    (2 ≤ ({ Scratch.zero with hn := 2, nn := 511 } : Scratch).hn ∧
      511 ≤ ({ Scratch.zero with hn := 2, nn := 511 } : Scratch).nn) ∧
    (({ Scratch.zero with hn := 256, nn := 510 } : Scratch).hn ≤ 256 ∧
      ({ Scratch.zero with hn := 256, nn := 510 } : Scratch).nn < 511) ∧
    (2 ≤ queue3.hn ∧ queue3.hn ≤ 256 ∧ queue3.nn < 511 ∧ queue3.HeapInv ∧ ∀ j ∈ queue3.queue, j.val < queue3.nn) :=
  ⟨by decide, ⟨by decide, by decide⟩, ⟨by decide, by decide⟩,
    ⟨by decide, by decide, by decide, heapInv_queue3, by decide +kernel⟩⟩

theorem witness_TbBuildIteratesMerge : ({ Scratch.zero with hn := 1 } : Scratch).hn = 1 ∧
    (2 ≤ ({ Scratch.zero with hn := 2, nn := 510 } : Scratch).hn ∧
      ({ Scratch.zero with hn := 2, nn := 510 } : Scratch).nn < 511) ∧
    (({ Scratch.zero with hn := 256, nn := 511 } : Scratch).hn ≤ 256 ∧
      511 ≤ ({ Scratch.zero with hn := 256, nn := 511 } : Scratch).nn) :=
  ⟨by decide, ⟨by decide, by decide⟩, ⟨by decide, by decide⟩⟩

/-- One symbol, with the largest count a register holds. -/
theorem witness_TbBuildMakesOneTree :
    [0x41] = symbols.filter (fun b => decide (1 ≤ symGet (symSet Scratch.zero.freq 0x41 (2 ^ 64 - 1)) b)) ∧
    [(0x41 : Byte)] ≠ [] ∧
    (([0x41] : List Byte).map (symGet (symSet Scratch.zero.freq 0x41 (2 ^ 64 - 1)) ·)).sum < Config.decided.limit := by
  refine ⟨?_, ?_, ?_⟩ <;> decide +kernel

/-- ROOT a leaf, and ROOT an internal node. -/
theorem witness_CaAssignWritesPaths :
    (({ Scratch.zero with node := leaves3, rootValid := true } : Scratch).rootValid = true ∧
      Rep leaves3 3 ({ Scratch.zero with node := leaves3, rootValid := true } : Scratch).root (.leaf 0x41 3) ∧
      (HTree.leaf 0x41 3).depth ≤ 255 ∧ ((HTree.leaf 0x41 3).leaves.map (·.1)).Nodup) ∧
    (({ Scratch.zero with root := 3, rootValid := true } : Scratch).rootValid = true ∧
      Rep (nodeSet leaves3 3 ⟨false, 0, 3, 2, 1⟩) 4 ({ Scratch.zero with root := 3, rootValid := true } : Scratch).root
        (.node (.leaf 0x43 1) (.leaf 0x42 2)) ∧
      (HTree.node (.leaf 0x43 1) (.leaf 0x42 2)).depth ≤ 255 ∧
      ((HTree.node (.leaf 0x43 1) (.leaf 0x42 2)).leaves.map (·.1)).Nodup) :=
  ⟨⟨rfl, Rep.leaf 0 (by decide) (by decide +kernel), by decide, by decide⟩,
    ⟨rfl, Rep.node 3 _ _ (by decide) (by decide +kernel) (by decide +kernel)
      (Rep.leaf 2 (by decide) (by decide +kernel)) (Rep.leaf 1 (by decide) (by decide +kernel)), by decide, by decide⟩⟩

theorem witness_CodesAreFunctionOfFrequencies :
    (∃ b, 1 ≤ symGet (symSet Scratch.zero.freq 0x41 (2 ^ 64 - 1)) b) ∧
    (symbols.map (symGet (symSet Scratch.zero.freq 0x41 (2 ^ 64 - 1)) ·)).sum < Config.decided.limit ∧
    ∃ s : State, s.config = Config.decided ∧ s.scratch.freq = symSet Scratch.zero.freq 0x41 (2 ^ 64 - 1) :=
  ⟨⟨0x41, by decide +kernel⟩, by decide +kernel,
    scratching { Scratch.zero with freq := symSet Scratch.zero.freq 0x41 (2 ^ 64 - 1) }, rfl, rfl⟩

theorem witness_BpPackAppendsPackedBits :
    ({ Scratch.zero with bits := bits9, tbl := 9 } : Scratch).tbl ≤ bits9.length ∧
    bits9.length < ({ Scratch.zero with bits := bits9, tbl := 10 } : Scratch).tbl := by decide

theorem witness_BpUnpackFillsBits :
    Scratch.zero.ppos + ceil8 ({ Scratch.zero with tbl := 9 } : Scratch).tbl ≤ (holding [0x1F, 0x00]).len ∧
    (holding [0x1F]).len < Scratch.zero.ppos + ceil8 ({ Scratch.zero with tbl := 9 } : Scratch).tbl := by decide

theorem witness_SizeFieldsAreLittleEndian : 2 ^ 64 - 1 < Config.decided.limit ∧ 2 ^ 32 - 1 < small.limit := by decide

/-- A payload within the limit, and one of exactly `2^W` bits. -/
theorem witness_SymEncodeConcatenatesCodes :
    ([0x41].flatMap (fun b : Byte => (symGet codes3 b).bits)).length < Config.decided.limit ∧
    small.limit ≤ ([0x41].flatMap
      (fun b : Byte => (symGet (symSet codes3 0x41 ⟨true, List.replicate (2 ^ 32) false⟩) b).bits)).length := by
  refine ⟨by decide +kernel, ?_⟩
  rw [List.flatMap_singleton, symGet_symSet_self, List.length_replicate]
  exact Nat.le_refl _

/-- No header; one entry announced and none there; an empty codebook with the payload in and out of bounds. -/
theorem witness_CbParseReadsCodebook :
    (holding (List.replicate 15 0)).len < 2 * (holding []).config.sz ∧
    (2 * (holding []).config.sz ≤ (holding (size8 1 ++ size8 0)).len ∧ ∀ book p,
      ¬ ParsesTo Config.decided (size8 1 ++ size8 0) (memRead (size8 1 ++ size8 0) 0 8) 16 book p) ∧
    (ParsesTo Config.decided zeros16 (memRead zeros16 0 8) 16 [] 16 ∧ 16 + ceil8 (memRead zeros16 8 8) ≤ zeros16.length) ∧
    (ParsesTo Config.decided (size8 0 ++ size8 1) (memRead (size8 0 ++ size8 1) 0 8) 16 [] 16 ∧
      (size8 0 ++ size8 1).length < 16 + ceil8 (memRead (size8 0 ++ size8 1) 8 8)) := by
  refine ⟨by decide, ⟨by decide, fun book p h => ?_⟩, ⟨.done 16, by decide⟩, ⟨.done 16, by decide⟩⟩
  have h1 : memRead (size8 1 ++ size8 0) 0 8 = 1 := by decide
  rw [h1] at h
  cases h with
  | entry _ _ _ _ _ header => exact absurd header (by decide)

theorem witness_CbCheckRefusesAmbiguity :
    ((∀ e ∈ ([] : List DecodeEntry), e.code ≠ []) ∧ PrefixFree (([] : List DecodeEntry).map (·.code))) ∧
    ((∀ e ∈ book3, e.code ≠ []) ∧ PrefixFree (book3.map (·.code))) ∧
    ¬ ((∀ e ∈ [(⟨0x41, []⟩ : DecodeEntry)], e.code ≠ []) ∧
      PrefixFree ([(⟨0x41, []⟩ : DecodeEntry)].map (·.code))) :=
  ⟨⟨by decide, (prefixFree_iff_pairwise _).mpr (by decide)⟩, ⟨decodable_book3.nonempty, decodable_book3.prefixFree⟩,
    fun h => not_decodable_empty_code ⟨h.1, h.2⟩⟩

theorem witness_CodeWalkDecodesBits :
    bits9.length < ({ Scratch.zero with bits := bits9, tbl := 10 } : Scratch).tbl ∧
    ({ Scratch.zero with bits := bits9, tbl := 9 } : Scratch).tbl ≤ bits9.length ∧ Decodable book3 :=
  ⟨by decide, by decide, decodable_book3⟩

theorem witness_RleScanAppendsRuns : (holding []).buf = [] ∧ (holding [0x41, 0x41, 0x42]).buf ≠ [] ∧
    IsRuns (holding [0x41, 0x41, 0x42]).buf [(2, 0x41), (1, 0x42)] :=
  ⟨rfl, by decide, witness_RleEncWritesRuns.1⟩

/-- A cut pair; counts that add up to `CAP + 1`; counts that add up to `CAP`; no pair at all. -/
theorem witness_RleExpandAppendsCopies :
    ([0, 0, 0, 0] : List Byte).length % (small.sz + 1) ≠ 0 ∧
    (([3, 0, 0, 0, 0x41] : List Byte).length % (small.sz + 1) = 0 ∧
      small.cap < ((pairsOf small [3, 0, 0, 0, 0x41]).map (·.1)).sum) ∧
    ((pairsOf small [2, 0, 0, 0, 0x41]).map (·.1)).sum ≤ small.cap ∧
    (([] : List Byte).length % (small.sz + 1) = 0 ∧ ((pairsOf small []).map (·.1)).sum ≤ small.cap) := by
  decide

end Sys2Proof.Tests
end

section
/-! The whole machine (spec/00_scope.md R8; spec/10_state.md R22, R24, R25; spec/20_memory.md R75): what an
operation, a transaction and a step can answer, and that each keeps the parameters and the invariant. -/

namespace Sys2Proof.Machine

/-! ### What an operation and a transaction can answer -/

/-- An operation that goes on is a command's microprogram run to commit or abort, or a well-formed unit operation
on its own. -/
theorem exec_next_cases {i : Instr} {s t : State} (ht : exec i s = .next t) :
    (i.isCommand = true ∧ runCommand (opOf i) s = .next t) ∨
    (i.isCommand = false ∧ i.wf = true ∧ runUop (opOf i) s = .next t) := by
  cases hc : i.isCommand with
  | true => exact .inl ⟨rfl, by rw [← exec_command hc, ht]⟩
  | false =>
    cases hwf : i.wf with
    | true => exact .inr ⟨rfl, rfl, by rw [← exec_unit hc hwf, ht]⟩
    | false => rw [exec_ill_formed hwf] at ht; cases ht

theorem hLoad_next {x : List Byte} {s t : State} (ht : hLoad x s = .next t) :
    x.length ≤ s.config.cap ∧ t = State.reply .done { s with buf := x } := by
  unfold hLoad at ht
  split at ht
  · next hx => cases ht; exact ⟨hx, rfl⟩
  · cases ht

theorem hReadByte_next {a : Nat} {s t : State} (ht : hReadByte a s = .next t) : ∃ r, t = s.reply r := by
  unfold hReadByte at ht
  split at ht
  · cases ht; exact ⟨_, rfl⟩
  · cases ht

theorem hReadReg_next {r : BitVec 2} {s t : State} (ht : hReadReg r s = .next t) : ∃ v, t = s.reply v := by
  unfold hReadReg at ht
  split at ht
  · cases ht
  · cases ht; exact ⟨_, rfl⟩
  · cases ht; exact ⟨_, rfl⟩
  · cases ht; exact ⟨_, rfl⟩

/-- The state a reset event leaves (R330). -/
theorem hReset_next {s t : State} (ht : hReset s = .next t) :
    t = State.reply .done { s.release with buf := [], status := 0x00, sel := none } := by
  cases ht; rfl

/-- A transaction that goes on is a read, which only replies, a load that fits, an issue, or a reset (R280, R29,
R330). -/
theorem hostStep_cases {op : HostOp} {s t : State} (ht : hostStep op s = .next t) :
    (∃ r, t = s.reply r) ∨
    (∃ x, op = .load x ∧ x.length ≤ s.config.cap ∧ t = State.reply .done { s with buf := x }) ∨
    (∃ c : Byte, (op = .issue c ∨ op = .writeReg 0 c.toNat) ∧ hIssue c s = .next t) ∨
    (op = .reset ∧ t = State.reply .done { s.release with buf := [], status := 0x00, sel := none }) := by
  cases op with
  | load x => exact .inr (.inl ⟨x, rfl, hLoad_next ht⟩)
  | read => cases ht; exact .inl ⟨_, rfl⟩
  | readByte a => exact .inl (hReadByte_next ht)
  | readStatus => cases ht; exact .inl ⟨_, rfl⟩
  | readCfg => cases ht; exact .inl ⟨_, rfl⟩
  | issue c => exact .inr (.inr (.inl ⟨c, .inl rfl, ht⟩))
  | readReg r => exact .inl (hReadReg_next ht)
  | writeReg r v =>
    obtain ⟨c, rfl, rfl, hc⟩ := hWriteReg_next ht
    exact .inr (.inr (.inl ⟨c, .inr rfl, hc⟩))
  | reset => exact .inr (.inr (.inr ⟨rfl, hReset_next ht⟩))

/-! ### The invariant -/

/-- Every unit operation keeps the widths of the registers (R75). -/
theorem opOf_keepsFits {i : Instr} (hu : i.isCommand = false) : KeepsFits (opOf i) := by
  intro c buf sc sc' hb h he
  cases i with
  | hufEnc | hufDec | rleEnc | rleDec => cases hu
  | pqBuild => exact Except.ok.inj he ▸ pqBuild_fits h
  | pqInsert n => exact pqInsert_fits h he
  | pqExtractMin => exact pqExtractMin_fits h he
  | tbMerge => exact tbMerge_fits h he
  | tbBuild => exact tbBuild_fits h he
  | caAssign => exact Except.ok.inj he ▸ caAssign_fits h
  | bpPack => exact bpPack_fits h he
  | bpUnpack => exact bpUnpack_fits h he
  | freqCount => exact Except.ok.inj he ▸ freqCount_fits hb h
  | symEncode => exact symEncode_fits hb h he
  | cbWrite => exact Except.ok.inj he ▸ cbWrite_fits h
  | cbParse => exact cbParse_fits hb h he
  | cbCheck => exact cbCheck_fits h he
  | codeWalk => exact codeWalk_fits h he
  | rleScan => exact Except.ok.inj he ▸ rleScan_fits hb h
  | rleExpand => exact rleExpand_fits hb h he

/-- The invariant does not speak of what is still to be run. -/
theorem State.Inv.pending {s : State} (h : s.Inv) (sel : Option (BitVec 4 × BitVec 9)) (script : List HostOp) :
    State.Inv { s with sel := sel, script := script } :=
  ⟨h.config, h.buf, h.status, h.scratch⟩

theorem exec_inv {i : Instr} {s t : State} (h : s.Inv) (ht : exec i s = .next t) : t.Inv := by
  obtain ⟨-, hr⟩ | ⟨hu, -, hr⟩ := exec_next_cases ht
  · exact runCommand_inv h hr
  · exact runUop_inv (opOf_keepsFits hu) h hr

theorem hIssue_inv {c : Byte} {s t : State} (h : s.Inv) (ht : hIssue c s = .next t) : t.Inv := by
  obtain ⟨u, rfl, ⟨i, -, hu⟩ | ⟨-, rfl⟩⟩ := hIssue_cases ht
  · exact (exec_inv h hu).reply _
  · exact (h.raise _).reply _

theorem hostStep_inv {op : HostOp} {s t : State} (h : s.Inv) (ht : hostStep op s = .next t) : t.Inv := by
  obtain ⟨r, rfl⟩ | ⟨x, -, hx, rfl⟩ | ⟨c, -, hc⟩ | ⟨-, rfl⟩ := hostStep_cases ht
  · exact h.reply r
  · exact ⟨h.config, hx, h.status, h.scratch⟩
  · exact hIssue_inv h hc
  · exact ⟨h.config, Nat.zero_le _, .inl rfl, Scratch.clamp_fits _ _⟩

/-- Settles O17: each of the things a step can be keeps the invariant. -/
theorem stepKeepsInvariant : Obligations.StepKeepsInvariant := by
  intro s t h ht
  obtain ⟨_, _, i, -, -, hi⟩ | ⟨-, -, rfl⟩ | ⟨-, op, rest, -, hop⟩ := step_cases ht
  · exact exec_inv (h.pending none s.script) hi
  · exact h
  · exact hostStep_inv (h.pending s.sel rest) hop

/-- Settles O16. -/
theorem resetMeetsInvariant : Obligations.ResetMeetsInvariant where
  config := by decide
  buf := Nat.zero_le _
  status := .inl rfl
  scratch := Scratch.zero_fits _

/-! ### The parameters -/

@[simp] theorem State.commit_config (sc : Scratch) (s : State) : (s.commit sc).config = s.config := by
  unfold State.commit; split <;> rfl

theorem runUop_config {f : UnitOp} {s t : State} (ht : runUop f s = .next t) : t.config = s.config := by
  obtain ⟨sc, -, h⟩ | ⟨e, -, h⟩ | ⟨r, -, h⟩ := runUop_cases f s <;> rw [h] at ht <;> cases ht <;> rfl

theorem runCommand_config {f : UnitOp} {s t : State} (ht : runCommand f s = .next t) : t.config = s.config := by
  obtain ⟨sc, -, h⟩ | ⟨e, -, h⟩ | ⟨r, -, h⟩ := runCommand_cases f s <;> rw [h] at ht <;> cases ht
  · exact State.commit_config sc s
  · rfl

theorem exec_config {i : Instr} {s t : State} (ht : exec i s = .next t) : t.config = s.config := by
  obtain ⟨-, hr⟩ | ⟨-, -, hr⟩ := exec_next_cases ht
  · exact runCommand_config hr
  · exact runUop_config hr

theorem hIssue_config {c : Byte} {s t : State} (ht : hIssue c s = .next t) : t.config = s.config := by
  obtain ⟨u, rfl, ⟨i, -, hu⟩ | ⟨-, rfl⟩⟩ := hIssue_cases ht
  · exact (State.reply_config _ u).trans (exec_config hu)
  · rfl

theorem hostStep_config {op : HostOp} {s t : State} (ht : hostStep op s = .next t) : t.config = s.config := by
  obtain ⟨r, rfl⟩ | ⟨x, -, -, rfl⟩ | ⟨c, -, hc⟩ | ⟨-, rfl⟩ := hostStep_cases ht
  · rfl
  · rfl
  · exact hIssue_config hc
  · rfl

theorem step_config {s t : State} (ht : step s = .next t) : t.config = s.config := by
  obtain ⟨_, _, i, -, -, hi⟩ | ⟨-, -, rfl⟩ | ⟨-, op, rest, -, hop⟩ := step_cases ht
  · exact exec_config (s := { s with sel := none }) hi
  · rfl
  · exact hostStep_config (s := { s with script := rest }) hop

/-- Settles O21: CFG is an image of the parameters (R25), and no step changes them. -/
theorem parametersAreConstant : Obligations.ParametersAreConstant := fun s t ht =>
  have hc : t.config = s.config := step_config ht
  ⟨hc, by simp only [State.cfg, hc]⟩

end Sys2Proof.Machine
end

section
/-! The state a host sees (spec/10_state.md R21, R24, R25, R29, R50; spec/70_reset_and_hazards.md R331): what STATUS
can hold and what changes it, what CFG reads, and what an access by register number does. -/

namespace Sys2Proof.Machine

/-! ### BUF (R21) -/

/-- Settles O18: the invariant bounds LEN by `CAP`, and a step keeps it. -/
theorem stepKeepsMemoryCanonical : Obligations.StepKeepsMemoryCanonical := fun s t h ht =>
  have ht' : t.Inv := stepKeepsInvariant s t h ht
  Memory.wf_of_length ht'.buf

/-! ### What changes STATUS (R24, R331) -/

/-- Every error sets DONE (R24, R301). -/
theorem Err.status_done (e : Err) : e.status.getLsbD 3 = true := by
  cases e <;> decide

theorem State.raise_done (e : Err) (s : State) : (s.raise e).done = true := e.status_done

@[simp] theorem State.reply_done (r : Reply) (s : State) : (s.reply r).done = s.done := rfl

theorem State.commit_done (sc : Scratch) (s : State) : (s.commit sc).done = true := by
  unfold State.commit
  split
  · exact s.raise_done _
  · exact (by decide : statusOk.getLsbD 3 = true)

/-- A unit operation run on its own leaves STATUS, or raises an error. -/
theorem runUop_status {f : UnitOp} {s t : State} (ht : runUop f s = .next t) :
    t.status = s.status ∨ ∃ e : Err, t.status = e.status := by
  obtain ⟨sc, -, h⟩ | ⟨e, -, h⟩ | ⟨r, -, h⟩ := runUop_cases f s <;> rw [h] at ht <;> cases ht
  · exact .inl rfl
  · exact .inr ⟨e, rfl⟩

theorem runCommand_done {f : UnitOp} {s t : State} (ht : runCommand f s = .next t) : t.done = true := by
  obtain ⟨sc, -, h⟩ | ⟨e, -, h⟩ | ⟨r, -, h⟩ := runCommand_cases f s <;> rw [h] at ht <;> cases ht
  · exact s.commit_done sc
  · exact s.raise_done e

theorem exec_command_done {i : Instr} (hc : i.isCommand = true) {s t : State} (ht : exec i s = .next t) :
    t.done = true :=
  runCommand_done (exec_command hc s ▸ ht)

theorem exec_unit_status {i : Instr} (hu : i.isCommand = false) {s t : State} (ht : exec i s = .next t) :
    t.status = s.status ∨ ∃ e : Err, t.status = e.status := by
  obtain ⟨hc, -⟩ | ⟨-, -, hr⟩ := exec_next_cases ht
  · rw [hu] at hc; cases hc
  · exact runUop_status hr

/-- An issue ends with DONE set, whatever the byte: a reserved one raises IllegalCommand (R285). -/
theorem hIssue_done {c : Byte} {s t : State} (ht : hIssue c s = .next t) : t.done = true := by
  obtain ⟨u, rfl, ⟨i, hd, hu⟩ | ⟨-, rfl⟩⟩ := hIssue_cases ht
  · obtain ⟨hc, -, -⟩ := decodeCommand_ok hd
    exact (State.reply_done _ u).trans (exec_command_done hc hu)
  · exact s.raise_done _

/-- Settles O20: of the things a step can be, only a reset, an issue and a unit operation's raise write STATUS. -/
theorem statusWriters : Obligations.StatusWriters := by
  intro s t ht hne
  obtain ⟨id, n, i, hsel, hd, hi⟩ | ⟨-, -, rfl⟩ | ⟨hsel, op, rest, hscript, hop⟩ := step_cases ht
  · obtain ⟨-, hu, -⟩ := decodeUop_ok hd
    obtain hkept | hraised := exec_unit_status hu hi
    · exact absurd hkept hne
    · exact .inr (.inr ⟨by simp [hsel], hraised⟩)
  · exact absurd rfl hne
  · rw [hscript]
    obtain ⟨r, rfl⟩ | ⟨x, -, -, rfl⟩ | ⟨c, hc, hissue⟩ | ⟨rfl, rfl⟩ := hostStep_cases hop
    · exact absurd rfl hne
    · exact absurd rfl hne
    · refine .inr (.inl ⟨⟨c, rest, hsel, ?_⟩, hIssue_done hissue⟩)
      exact hc.imp (fun e => by rw [e]) (fun e => by rw [e])
    · exact .inl ⟨rest, hsel, rfl, rfl⟩

/-! ### What STATUS and CFG read (R24, R25, R50) -/

/-- The fields of a value that STATUS can hold: zeros in bits 7:4, ERR at most 5, DONE with every error (R24, R301). -/
theorem LegalStatus.fields {v : BitVec 8} (h : LegalStatus v) :
    v.extractLsb' 4 4 = 0 ∧ (v.extractLsb' 0 3).toNat ≤ 5 ∧ (v.extractLsb' 0 3 ≠ 0 → v.getLsbD 3 = true) := by
  obtain rfl | rfl | ⟨e, rfl⟩ := h
  · decide
  · decide
  · cases e <;> decide

/-- Settles O22. -/
theorem statusFieldsAreLegal : Obligations.StatusFieldsAreLegal := fun _ h => h.status.fields

/-- Settles O13: CFG is `SZ` in bytes, and `SZ` has two values (R8). -/
theorem cfgHoldsSizeWidth : Obligations.CfgHoldsSizeWidth := by
  intro s
  rw [State.cfg, Config.sz]
  cases s.config.size <;> rfl

/-- Settles O14: the values `State.reset` names; CFG reads the decided `SZ` (O13). -/
theorem resetState : Obligations.ResetState :=
  ⟨rfl, rfl, rfl, rfl, rfl, cfgHoldsSizeWidth State.reset, rfl⟩

/-! ### Accesses by register number (R29, R23) -/

/-- With nothing selected a step is the host's next transaction (R280). -/
theorem step_hostOp {s : State} {op : HostOp} {rest : List HostOp} (hsel : s.sel = none)
    (hscript : s.script = op :: rest) : step s = hostStep op { s with script := rest } := by
  simp only [step, hsel, hscript]

theorem hWriteReg_cmd (c : Byte) (s : State) : hWriteReg 0 c.toNat s = hIssue c s := by
  simp [hWriteReg, c.isLt]

theorem hWriteReg_cmd_wide {v : Nat} (hv : 256 ≤ v) (s : State) : hWriteReg 0 v s = .refused .cmdValueTooWide := by
  simp [hWriteReg, Nat.not_lt.mpr hv]

theorem hWriteReg_readOnly {r : BitVec 2} (hr : r ≠ 0) (v : Nat) (s : State) :
    hWriteReg r v s = .refused .writeOfReadOnly := by
  unfold hWriteReg
  split
  · next h0 => exact absurd (BitVec.eq_of_toNat_eq h0) hr
  · rfl

/-- Settles O12: a step is the transaction at the head of the script, and each register number has one meaning. -/
theorem registerNumbersSelectRegisters : Obligations.RegisterNumbersSelectRegisters := by
  intro s rest hsel
  refine ⟨fun h => step_hostOp hsel h, fun h => step_hostOp hsel h, fun h => step_hostOp hsel h,
    fun h => step_hostOp hsel h, fun c h => ?_, fun v h hv => ?_, fun r v hr h => ?_⟩
  · have hissue : step { s with script := .issue c :: rest } = hIssue c { s with script := rest } :=
      step_hostOp (s := { s with script := .issue c :: rest }) hsel rfl
    calc step s = hWriteReg 0 c.toNat { s with script := rest } := step_hostOp hsel h
      _ = hIssue c { s with script := rest } := hWriteReg_cmd c _
      _ = step { s with script := .issue c :: rest } := hissue.symm
  · exact (step_hostOp hsel h).trans (hWriteReg_cmd_wide hv _)
  · exact (step_hostOp hsel h).trans (hWriteReg_readOnly hr v _)

end Sys2Proof.Machine
end

section
/-! Memory (spec/20_memory.md R60, R61, R66): what a unit operation leaves as it was, and the bytes of a size field. -/

namespace Sys2Proof.Machine

/-! ### Who writes what (R60, R66, R306) -/

/-- A unit operation that goes on has written scratch alone, or has raised an error. -/
theorem exec_unit_next {i : Instr} (hu : i.isCommand = false) {s t : State} (ht : exec i s = .next t) :
    (∃ sc, t = { s with scratch := sc }) ∨ ∃ e : Err, t = s.raise e := by
  obtain ⟨hc, -⟩ | ⟨-, -, hr⟩ := exec_next_cases ht
  · rw [hu] at hc; cases hc
  · obtain ⟨sc, -, h⟩ | ⟨e, -, h⟩ | ⟨r, -, h⟩ := runUop_cases (opOf i) s <;> rw [h] at hr <;> cases hr
    · exact .inl ⟨sc, rfl⟩
    · exact .inr ⟨e, rfl⟩

/-- Settles O25: a write of scratch and a raise both leave BUF, the parameters and the host's fields. -/
theorem unitOperationFrame : Obligations.UnitOperationFrame := by
  intro i s t hu ht
  obtain ⟨sc, rfl⟩ | ⟨e, rfl⟩ := exec_unit_next hu ht
  · exact ⟨rfl, rfl, rfl, rfl, rfl, .inl ⟨rfl, rfl⟩⟩
  · exact ⟨rfl, rfl, rfl, rfl, rfl, .inr ⟨e, rfl⟩⟩

/-! ### Size fields (R61, R13) -/

/-- Byte `k` of `MemWrite` is `(v div 256^k) mod 256` (R13). -/
theorem leBytes_getD_toNat {n k : Nat} (hk : k < n) (v : Nat) :
    ((leBytes n v).getD k 0).toNat = v / 256 ^ k % 256 := by
  induction n generalizing k v with
  | zero => cases hk
  | succ n ih =>
    cases k with
    | zero => simp [leBytes]
    | succ k =>
      calc ((leBytes (n + 1) v).getD (k + 1) 0).toNat
          = ((leBytes n (v / 256)).getD k 0).toNat := rfl
        _ = v / 256 / 256 ^ k % 256 := ih (Nat.lt_of_succ_lt_succ hk) _
        _ = v / 256 ^ (k + 1) % 256 := by rw [Nat.div_div_eq_div_mul, pow_succ']

/-- Settles O49: a size field takes the values below `2^W`, which is `256^SZ`. -/
theorem sizeFieldsAreLittleEndian : Obligations.SizeFieldsAreLittleEndian := fun c v _ _ hv =>
  ⟨leBytes_length c.sz v, fun _ hk => leBytes_getD_toNat hk v, memRead_append_leBytes rfl (by rwa [← c.limit_eq])⟩

end Sys2Proof.Machine
end

section
/-! The encodings (spec/30_encoding.md R91, R92, R96, R100): decoder and encoder are inverse on the well-formed
operations, and a step runs what the decoder answers. -/

namespace Sys2Proof

/-! ### Decoder and encoder (R92, R96) -/

/-- PQ_INSERT takes each operand that names an entry of NODE (R40, R136). -/
theorem decodeUop_pqInsert {n : BitVec 9} (hn : n.toNat < 511) : decodeUop 0x1 n = .ok (.pqInsert n) :=
  if_pos hn

/-- Settles O2: PQ_INSERT alone has an operand; each other operation is one row of the tables. -/
theorem decodeOfEncode : Obligations.DecodeOfEncode := by
  intro i hwf
  cases i with
  | pqInsert n => exact decodeUop_pqInsert (of_decide_eq_true hwf)
  | hufEnc | hufDec | rleEnc | rleDec => rfl
  | pqBuild | pqExtractMin | tbMerge | tbBuild | caAssign | bpPack | bpUnpack | freqCount | symEncode
  | cbWrite | cbParse | cbCheck | codeWalk | rleScan | rleExpand => rfl

/-- Settles O3: an accepted byte or id is the encoding of what it decodes to. -/
theorem encodeOfDecode : Obligations.EncodeOfDecode := by
  refine ⟨fun c i hd => ?_, fun id n i hd => decodeUop_ok hd⟩
  obtain ⟨hcommand, hencode, -⟩ := decodeCommand_ok hd
  exact ⟨hcommand, hencode⟩

theorem decode_of_encode_eq {i : Instr} {o : OpWord} (ho : encode i = o) (hwf : i.wf = true) : decode o = .ok i :=
  ho ▸ decodeOfEncode i hwf

/-- Settles O1: each row of the tables is the encoding of its operation. -/
theorem tableWordsDecode : Obligations.TableWordsDecode := by
  unfold Obligations.TableWordsDecode
  and_intros <;> exact decode_of_encode_eq rfl rfl

/-! ### Table words (log entry 6) -/

theorem decode_tableWord_of_decodeTableWord {nbits w : Nat} {i : Instr} (h : decodeTableWord nbits w = some i) :
    decode (tableWord nbits w) = .ok i := by
  unfold decodeTableWord at h
  split at h
  · cases hd : decode (tableWord nbits w) with
    | ok j => rw [hd] at h; exact congrArg Except.ok (Option.some.inj h)
    | error e => rw [hd] at h; cases h
  · cases h

end Sys2Proof

namespace Sys2Proof.Machine

/-! ### What a step runs (R96, R100, R284, R289) -/

theorem runSelect_of_decodeUop {id : BitVec 4} {n : BitVec 9} {i : Instr} (hd : decodeUop id n = .ok i) (s : State) :
    runSelect id n s = exec i { s with sel := none } := by
  simp only [runSelect, hd]

/-- Settles O6: a selected operation runs before the next transaction (R280). -/
theorem stepRunsSelectedOperation : Obligations.StepRunsSelectedOperation := fun s id n i hsel hd =>
  calc step s = runSelect id n s := by simp only [step, hsel]
    _ = exec i { s with sel := none } := runSelect_of_decodeUop hd s

/-- An issued command that ends returns its transaction (R284, R285). -/
theorem hIssue_of_decodeCommand {c : Byte} {i : Instr} (hd : decodeCommand c = .ok i) {s t : State}
    (ht : exec i s = .next t) : hIssue c s = .next (t.reply .done) := by
  simp only [hIssue, dispatchCommand, hd, ht]

/-- An issue of a reserved byte raises IllegalCommand (R100, R289). -/
theorem hIssue_reserved {c : Byte} (hc : 4 ≤ c.toNat) (s : State) :
    hIssue c s = .next ((s.raise .illegalCommand).reply .done) := by
  simp only [hIssue, dispatchCommand, decodeCommand_reserved hc, State.raiseIllegalCommand]

/-- Settles O4: a raise leaves BUF and the parameters, and 0x0C is `0x08 | code(IllegalCommand)`. -/
theorem reservedCommandRaisesIllegalCommand : Obligations.ReservedCommandRaisesIllegalCommand := by
  intro s c rest hsel hscript hc
  have hstep : step s = .next ((State.raise .illegalCommand { s with script := rest }).reply .done) :=
    (step_hostOp hsel hscript).trans (hIssue_reserved hc _)
  exact ⟨_, hstep, rfl, rfl, rfl, rfl, hsel, rfl, rfl⟩

/-! ### `withFetchWord` (log entry 6) -/

theorem State.withFetchWord_of_uop {nbits w : Nat} {id : BitVec 4} {n : BitVec 9} (hw : tableWord nbits w = .uop id n)
    (s : State) : s.withFetchWord nbits w = { s with sel := some (id, n) } := by
  simp only [State.withFetchWord, hw]

theorem State.withFetchWord_of_cmd {nbits w : Nat} {c : Byte} (hw : tableWord nbits w = .cmd c) (s : State) :
    s.withFetchWord nbits w = { s with sel := none, script := .issue c :: s.script } := by
  simp only [State.withFetchWord, hw]

/-- A command byte stands at the head of the script, so the next step issues it and takes it from there. -/
theorem step_withFetchWord_of_cmd {nbits w : Nat} {c : Byte} (hw : tableWord nbits w = .cmd c) (s : State) :
    step (s.withFetchWord nbits w) = hIssue c { s with sel := none } := by
  rw [State.withFetchWord_of_cmd hw]
  exact step_hostOp (s := { s with sel := none, script := .issue c :: s.script }) rfl rfl

/-- Settles O7: the table word is a select value or a command byte, and an operation has one of the two only. -/
theorem fetchWordRunsItsOperation : Obligations.FetchWordRunsItsOperation := by
  intro s nbits w i h
  have hd : decode (tableWord nbits w) = .ok i := decode_tableWord_of_decodeTableWord h
  cases hw : tableWord nbits w with
  | uop id n =>
    rw [hw] at hd
    obtain ⟨-, hunit, -⟩ := decodeUop_ok hd
    rw [State.withFetchWord_of_uop hw, hunit]
    exact ⟨fun _ => stepRunsSelectedOperation _ id n i rfl hd, nofun⟩
  | cmd c =>
    rw [hw] at hd
    obtain ⟨hcommand, -⟩ := decodeCommand_ok hd
    rw [step_withFetchWord_of_cmd hw, hcommand]
    exact ⟨nofun, fun _ t ht => hIssue_of_decodeCommand hd ht⟩

end Sys2Proof.Machine
end

section
/-! The priority queue (spec/40_priority_queue.md R132, R135 to R139): what PQ_BUILD, PQ_INSERT and PQ_EXTRACT_MIN
leave of the queue, of HEAP and of NODE, and that the codes built from it depend on FREQ alone. -/

namespace Sys2Proof.Machine

/-! ### PQ_BUILD (R135) -/

/-- The node indices of the first `n` entries are different, since NODE has 511 entries (R40). -/
theorem nodup_map_nodeIdx_range {n : Nat} (hn : n ≤ 511) : ((List.range n).map nodeIdx).Nodup := by
  refine List.nodup_range.map_on fun i hi j hj hij => ?_
  rw [List.mem_range] at hi hj
  calc i = (nodeIdx i).val := (nodeIdx_val (by omega)).symm
    _ = (nodeIdx j).val := congrArg Fin.val hij
    _ = j := nodeIdx_val (by omega)

/-- Settles O38: PQ_BUILD queues the leaves it writes, whose indices are different, in heap order. -/
theorem pqBuildMakesLeafHeap : Obligations.PqBuildMakesLeafHeap := by
  rintro s ps rfl
  obtain ⟨node, heap, hrun, hleaves, hqueue, hordered, hnode, hheap⟩ := pqBuild_spec s.scratch
  have hle := presentIn_length_le s.scratch.freq
  have hdistinct := hqueue.nodup_iff.mpr (nodup_map_nodeIdx_range (by omega))
  exact ⟨node, heap, exec_unit_ok rfl rfl (congrArg Except.ok hrun), hleaves, hqueue,
    HeapInv_of_ordered hle hdistinct hordered, hnode, hheap⟩

/-! ### PQ_INSERT (R136) -/

/-- The meaning of PQ_INSERT for an operand that names an entry of NODE (R40). -/
theorem exec_pqInsert {n : BitVec 9} (hn : n.toNat < 511) (s : State) :
    exec (.pqInsert n) s = runUop (fun _ _ sc => pqInsert ⟨n.toNat, hn⟩ sc) s := dif_pos hn

theorem pqInsert_full {sc : Scratch} (n : NodeIdx) (h : 256 ≤ sc.hn) : pqInsert n sc = .error (.stuck .heapFull) :=
  if_neg (by omega)

/-- Settles O39: `siftUp` permutes the queue with `n` at its end, and restores the heap order. -/
theorem pqInsertQueuesNode : Obligations.PqInsertQueuesNode := by
  refine fun s n => ⟨fun hroom hn => ?_, fun hfull hn => ?_, fun hn => ?_⟩
  · have hqueue := pqInsert_perm s.scratch.node s.scratch.heap ⟨n.toNat, hn⟩ hroom
    refine ⟨_, ?_, hqueue, fun hinv hnew => ?_, insertHeap_same _ _ _ hroom⟩
    · rw [exec_pqInsert hn, runUop_ok (pqInsert_eq _ hroom)]
    · exact HeapInv_of_ordered hroom (hqueue.nodup_iff.mpr (List.nodup_cons.mpr ⟨hnew, hinv.distinct⟩))
        (pqInsert_ordered _ _ _ hroom hinv.orderedFrom)
  · rw [exec_pqInsert hn, runUop_stuck (pqInsert_full _ hfull)]
  · exact exec_ill_formed (by simp [Instr.wf, hn]) s

/-! ### PQ_EXTRACT_MIN (R137) -/

theorem pqExtractMin_empty {sc : Scratch} (h : sc.hn = 0) : pqExtractMin sc = .error (.raised .emptyQueue) := if_pos h

/-- An extraction takes HEAP[0] off the queue. -/
theorem queue_perm_extractHeap {sc : Scratch} (hpos : 1 ≤ sc.hn) (hroom : sc.hn ≤ 256) :
    sc.queue.Perm (heapGet sc.heap 0 :: (extractHeap sc.node sc.heap (sc.hn - 1)).toList.take (sc.hn - 1)) := by
  have h := extractHeap_perm sc.node sc.heap (hn := sc.hn - 1) (by omega)
  rwa [Nat.sub_add_cancel hpos] at h

/-- Settles O40: HEAP[0] is the least of the queue, and the rest of the queue is sifted into a heap again. -/
theorem pqExtractMinTakesLeast : Obligations.PqExtractMinTakesLeast := by
  refine fun s => ⟨fun hempty => exec_unit_raised rfl rfl (pqExtractMin_empty hempty), fun hpos hroom => ?_⟩
  have hlt : s.scratch.hn - 1 < 256 := by omega
  have hqueue := queue_perm_extractHeap hpos hroom
  refine ⟨_, _, exec_unit_ok rfl rfl (pqExtractMin_eq hpos), hqueue, fun hinv => ?_, extractHeap_same _ _ hlt⟩
  obtain ⟨hnew, hdistinct⟩ := List.nodup_cons.mp (hqueue.nodup_iff.mp hinv.distinct)
  refine ⟨fun j hj => ?_, HeapInv_of_ordered hlt.le hdistinct ?_⟩
  · have hleast := root_least_mem hroom hinv.orderedFrom j (hqueue.mem_iff.mpr (.tail _ hj))
    exact less_of_notAfter hleast (ne_of_mem_of_not_mem hj hnew).symm
  · exact extractHeap_ordered _ _ hlt (by rw [Nat.sub_add_cancel hpos]; exact hinv.orderedFrom)

/-! ### One code table per FREQ (R139, R155) -/

theorem mem_presentIn_symbols {freq : Vector Nat 256} {s : Byte} :
    s ∈ presentIn freq symbols ↔ 1 ≤ symGet freq s := by
  simp [presentIn, mem_symbols]

/-- The present symbols' frequencies add up to no more than all of FREQ. -/
theorem sum_presentIn_le (freq : Vector Nat 256) :
    ((presentIn freq symbols).map (symGet freq ·)).sum ≤ (symbols.map (symGet freq ·)).sum :=
  (List.filter_sublist.map _).sum_le_sum fun _ _ => Nat.zero_le _

/-- CODE after a walk does not depend on what CODE held, at the symbols the walk meets. -/
theorem writeCodes_agree {es : List (Byte × Bits)} (hnd : (es.map (·.1)).Nodup) (v w : Vector CodeEntry 256)
    {s : Byte} (hs : s ∈ es.map (·.1)) : symGet (writeCodes v es) s = symGet (writeCodes w es) s := by
  obtain ⟨⟨s, b⟩, he, rfl⟩ := List.mem_map.mp hs
  rw [writeCodes_mem hnd he, writeCodes_mem hnd he]

/-- CODE after a walk over a cleared table is valid at the symbols the walk meets, and at no other. -/
theorem writeCodes_clearValid_valid {es : List (Byte × Bits)} (hnd : (es.map (·.1)).Nodup)
    (v : Vector CodeEntry 256) (s : Byte) :
    (symGet (writeCodes (clearValid v) es) s).valid = decide (s ∈ es.map (·.1)) := by
  by_cases hs : s ∈ es.map (·.1)
  · obtain ⟨⟨s, b⟩, he, rfl⟩ := List.mem_map.mp hs
    rw [writeCodes_mem hnd he, decide_eq_true hs]
  · rw [writeCodes_not_mem hs, decide_eq_false hs, clearValid, symGet_map]

/-- The symbols of a tree with one leaf per present symbol. -/
theorem codes_symbols_perm {freq : Vector Nat 256} {t : HTree}
    (hl : t.leaves.Perm ((presentIn freq symbols).map fun s => (s, symGet freq s))) :
    (t.codes.map (·.1)).Perm (presentIn freq symbols) := by
  rw [t.codes_symbols]
  simpa [Function.comp_def] using hl.map (·.1)

/-- A tree with one leaf per present symbol has paths that PATH can hold (R171). -/
theorem depth_le_of_leaves {freq : Vector Nat 256} {t : HTree}
    (hl : t.leaves.Perm ((presentIn freq symbols).map fun s => (s, symGet freq s))) : t.depth ≤ 255 := by
  have hdepth := t.depth_lt
  have hcount := presentIn_length_le freq
  rw [hl.length_eq, List.length_map] at hdepth
  omega

/-- Settles O45: every scratch state with this FREQ leads to the same tree, and its paths are the codes. -/
theorem codesAreFunctionOfFrequencies : Obligations.CodesAreFunctionOfFrequencies := by
  rintro c freq ⟨b₀, hb₀⟩ hsum
  obtain ⟨t, hleaves, hbuild⟩ := tree_of_freq c freq (List.ne_nil_of_mem (mem_presentIn_symbols.mpr hb₀))
    ((sum_presentIn_le freq).trans_lt hsum)
  have hsym := codes_symbols_perm hleaves
  have hnd : (t.codes.map (·.1)).Nodup := hsym.nodup_iff.mpr (symbols_nodup.filter _)
  have hmem : ∀ b, b ∈ t.codes.map (·.1) ↔ 1 ≤ symGet freq b := fun b => hsym.mem_iff.trans mem_presentIn_symbols
  refine ⟨fun b => (symGet (writeCodes Scratch.zero.code t.codes) b).bits, ?_⟩
  rintro s rfl hfreq
  obtain ⟨node, nn, heap, r, root, hrun, hrep⟩ := hbuild s.scratch hfreq
  have hcodes := caAssign_rep (sc := { s.scratch.withTree node nn heap 1 with
    ret := r, root := root, rootValid := true }) rfl hrep (depth_le_of_leaves hleaves)
  refine ⟨_, _, _, exec_unit_ok rfl rfl rfl, exec_unit_ok rfl rfl hrun,
    exec_unit_ok rfl rfl (congrArg Except.ok hcodes), fun b => ⟨?_, fun hb => ?_⟩⟩
  · exact (writeCodes_clearValid_valid hnd _ b).trans (decide_eq_decide.mpr (hmem b))
  · exact congrArg CodeEntry.bits (writeCodes_agree hnd _ _ ((hmem b).mpr hb))

end Sys2Proof.Machine
end

section
/-! The tree builder (spec/41_tree_builder.md R151 to R154): what TB_MERGE and TB_BUILD leave of the queue, of HEAP and
of NODE, and the one tree that PQ_BUILD and TB_BUILD make. -/

namespace Sys2Proof.Machine

/-! ### TB_MERGE (R151) -/

/-- TB_MERGE with NODE full stops at the write of the internal node (log entry 12). -/
theorem tbMerge_nodeFull (c : Config) {sc : Scratch} (h2 : 2 ≤ sc.hn) (hfull : 511 ≤ sc.nn) :
    tbMerge c sc = .error (.stuck .nodeTableFull) := by
  rw [tbMerge, pqExtractMin_eq (by omega)]
  simp only [bind, Except.bind]
  rw [pqExtractMin_eq (by simp only; omega)]
  simp only [addInternal]
  rw [if_neg (by omega)]

/-- Among different indices the order of keys is strict (R131). -/
theorem forall_less_of_notAfter {node : Vector Node 511} {a : NodeIdx} {xs : List NodeIdx} (ha : a ∉ xs)
    (h : ∀ j ∈ xs, NotAfter node a j) : ∀ j ∈ xs, less node a j = true := fun j hj =>
  less_of_notAfter (h j hj) (ne_of_mem_of_not_mem hj ha).symm

/-- The next node to write is not among nodes that are written. -/
theorem nodeIdx_not_mem_of_lt {n : Nat} (hn : n < 511) {xs : List NodeIdx} (h : ∀ j ∈ xs, j.val < n) :
    nodeIdx n ∉ xs := fun hmem => by
  have hlt := h _ hmem
  rw [nodeIdx_val hn] at hlt
  exact lt_irrefl n hlt

/-- Settles O41: two extractions, a write and an insertion; the queued indices of a heap are different, so the order
of their keys is strict, and index NN is a new one where they are all below NN. -/
theorem tbMergeJoinsTwoLeast : Obligations.TbMergeJoinsTwoLeast := by
  refine fun s => ⟨fun hfew => exec_unit_raised rfl rfl (tbMerge_empty _ _ hfew),
    fun h2 _ hfull => exec_unit_stuck rfl rfl (tbMerge_nodeFull _ h2 hfull), fun h2 hroom hnn => ?_⟩
  obtain ⟨l, r, heap, Q, hqueue, hqueue', -, hsame, hleast, hordered, hrun⟩ :=
    tbMerge_eq s.config s.scratch h2 hroom hnn
  refine ⟨l, r, _, heap, Q, _, rfl, exec_unit_ok rfl rfl hrun, hqueue, hqueue', mergeWeight_of_lt, fun hinv => ?_,
    hsame⟩
  obtain ⟨hl, hrQ⟩ := List.nodup_cons.mp (hqueue.nodup_iff.mp hinv.distinct)
  obtain ⟨hr, hQ⟩ := List.nodup_cons.mp hrQ
  obtain ⟨hleast_l, hleast_r⟩ := hleast hinv.orderedFrom
  refine ⟨forall_less_of_notAfter hl hleast_l, forall_less_of_notAfter hr hleast_r, fun hbelow => ?_⟩
  have hnew : nodeIdx s.scratch.nn ∉ Q :=
    nodeIdx_not_mem_of_lt hnn fun j hj => hbelow j (hqueue.mem_iff.mpr (.tail _ (.tail _ hj)))
  exact HeapInv_of_ordered ((Nat.sub_le _ 1).trans hroom)
    (hqueue'.nodup_iff.mpr (List.nodup_cons.mpr ⟨hnew, hQ⟩)) (hordered hinv.orderedFrom hbelow)

/-! ### TB_BUILD (R152, R153) -/

/-- TB_BUILD with two nodes or more queued stops where its first merge stops (R152). -/
theorem tbBuild_of_tbMerge_error {c : Config} {sc : Scratch} {e : Stop} (h2 : 1 < sc.hn)
    (he : tbMerge c sc = .error e) : tbBuild c sc = .error e := by
  obtain ⟨k, hk⟩ : ∃ k, sc.hn = k + 1 := ⟨sc.hn - 1, by omega⟩
  have hloop : mergeAll c sc.hn sc = .error e := by rw [hk, mergeAll, if_pos h2, he]; rfl
  rw [tbBuild, hloop]
  rfl

/-- A unit operation that makes the same of two scratch states ends in the same state from both: scratch is written or
released in each case (R306). -/
theorem exec_unit_congr_scratch {i : Instr} (h : i.isCommand = false) (hwf : i.wf = true) {s : State} {sc : Scratch}
    (he : opOf i s.config s.buf s.scratch = opOf i s.config s.buf sc) :
    exec i s = exec i { s with scratch := sc } := by
  rw [exec_unit h hwf, exec_unit h hwf, runUop, runUop, he]
  rfl

/-- Settles O42: the loop of TB_BUILD ends with one node queued, and with more it begins with a merge. -/
theorem tbBuildIteratesMerge : Obligations.TbBuildIteratesMerge := by
  refine fun s => ⟨fun hone => exec_unit_ok rfl rfl (tbBuild_one hone), fun h2 hroom hnn => ?_,
    fun h2 _ hfull => exec_unit_stuck rfl rfl (tbBuild_of_tbMerge_error h2 (tbMerge_nodeFull _ h2 hfull))⟩
  obtain ⟨_, _, _, _, -, -, -, -, -, -, hrun⟩ := tbMerge_eq s.config s.scratch h2 hroom hnn
  exact ⟨_, exec_unit_ok rfl rfl hrun, tbMerge_hn hrun, exec_unit_congr_scratch rfl rfl (tbBuild_merge h2 hrun)⟩

/-! ### One tree (R152 to R154) -/

/-- Settles O43: PQ_BUILD leaves the forest of single leaves, and TB_BUILD makes one tree of a forest; ROOT is the
last node written, which is the one leaf where there is nothing to merge. -/
theorem tbBuildMakesOneTree : Obligations.TbBuildMakesOneTree := by
  rintro s ps hps hne hsum
  obtain rfl : ps = presentIn s.scratch.freq symbols := hps
  have hforest := pqBuild_forest s.scratch hne
  obtain ⟨node₀, heap₀, hpq, -⟩ := pqBuild_spec s.scratch
  have hroom := presentIn_length_le s.scratch.freq
  have hpos := List.length_pos_of_ne_nil hne
  generalize presentIn s.scratch.freq symbols = ps at *
  have hweights : ((ps.map fun b => (b, symGet s.scratch.freq b)).map (·.2)).sum =
      (ps.map (symGet s.scratch.freq ·)).sum := by rw [List.map_map]; rfl
  rw [hpq] at hforest
  obtain ⟨node, heap, r, tree, hrun, hrep, hleaves, hroot⟩ :=
    tbBuild_forest s.config hforest hroom (hweights.trans_lt hsum)
  simp only [Scratch.withTree] at hrun hrep hroot
  refine ⟨_, node, _, heap, r, _, tree, exec_unit_ok rfl rfl (congrArg Except.ok hpq),
    exec_unit_ok rfl rfl hrun, by omega, ?_, hrep, hleaves, ?_⟩
  · obtain hone | htwo : ps.length = 1 ∨ 2 ≤ ps.length := by omega
    · have hlt := hrep.lt
      omega
    · rw [hroot htwo, nodeIdx_val (by omega)]
      omega
  · calc (nodeGet node (heapGet heap 0)).weight = tree.weight := hrep.weight
      _ = (tree.leaves.map (·.2)).sum := tree.weight_eq
      _ = (ps.map (symGet s.scratch.freq ·)).sum := ((hleaves.map _).sum_eq).trans hweights

end Sys2Proof.Machine
end

section
/-! The code assigner (spec/42_code_assigner.md R171, R172): the entries of CODE below a root whose tree PATH can hold. -/

namespace Sys2Proof.Machine

/-- A cleared entry keeps its bits (R171). -/
theorem symGet_clearValid (code : Vector CodeEntry 256) (b : Byte) :
    symGet (clearValid code) b = ⟨false, (symGet code b).bits⟩ := symGet_map _ _ _

section
variable {sc : Scratch} {root : NodeIdx} {nn : Nat} {t : HTree}

/-- Each leaf's symbol has its path as code, and "0" where the leaf is alone (R171, R172). -/
theorem codesFrom_rep_mem (hr : Rep sc.node nn root t) (hd : t.depth ≤ 255) (hnd : (t.leaves.map (·.1)).Nodup)
    {e : Byte × Bits} (he : e ∈ t.codes) : symGet (codesFrom sc root) e.1 = ⟨true, e.2⟩ := by
  rw [codesFrom_rep hr hd, writeCodes_mem (t.codes_symbols ▸ hnd) he]

/-- A symbol at no leaf is left cleared (R171). -/
theorem codesFrom_rep_not_mem (hr : Rep sc.node nn root t) (hd : t.depth ≤ 255) {b : Byte}
    (hb : b ∉ t.leaves.map (·.1)) : symGet (codesFrom sc root) b = ⟨false, (symGet sc.code b).bits⟩ := by
  rw [codesFrom_rep hr hd, writeCodes_not_mem (t.codes_symbols ▸ hb), symGet_clearValid]

end

/-- Settles O44: every entry of CODE is the one `codesFrom` leaves at the node CA_ASSIGN begins at, whatever the nodes
below it are; where they represent a tree that PATH can hold, these are the paths of its leaves. -/
theorem caAssignWritesPaths : Obligations.CaAssignWritesPaths := by
  intro s
  obtain ⟨root, code, hroot, hrun, hcode⟩ := caAssign_spec s.scratch
  refine ⟨root, code, hroot, exec_unit_ok rfl rfl (congrArg Except.ok hrun), fun b => ?_,
    fun nn tree hrep hdepth hnd => ⟨fun e he => ?_, fun b hb => ?_⟩⟩
  · rw [hcode]
    exact codesFrom_entry s.scratch root b
  · rw [hcode, codesFrom_rep_mem hrep hdepth hnd he]
  · rw [hcode, codesFrom_rep_not_mem hrep hdepth hb]

end Sys2Proof.Machine
end

section
/-! The bit packer (spec/43_bit_packer.md R186 to R189): the bits of packed and unpacked strings, and where BP_PACK and
BP_UNPACK stop. -/

namespace Sys2Proof.Machine

/-- Bit `i` of a packed string, the padding included (R188). -/
theorem pack_bit (b : Bits) {i : Nat} (hi : i < 8 * ceil8 b.length) :
    ((pack b).getD (i / 8) 0).getLsbD (7 - i % 8) = b.getD i false := by
  rw [pack_getD b (by omega), packByte_bit _ _ _ (Nat.mod_lt _ (by norm_num)), Nat.div_add_mod]

theorem unpack_getElem (B : List Byte) {n i : Nat} (hi : i < (unpack B n).length) :
    (unpack B n)[i] = (B.getD (i / 8) 0).getLsbD (7 - i % 8) := by simp [unpack]

/-- Byte `k` of a read is the byte at the address `a + k` (R13). -/
theorem memReadBytes_getD (buf : List Byte) (a : Nat) {n k : Nat} (hk : k < n) :
    (memReadBytes buf a n).getD k 0 = buf.getD (a + k) 0 := by
  simp [memReadBytes, List.getD_eq_getElem?_getD, hk]

theorem bpPack_short {sc : Scratch} (h : sc.bits.length < sc.tbl) : bpPack sc = .error (.stuck .noSuchBit) := by
  have hbits : payloadBits sc = .error (.stuck .noSuchBit) := if_neg (Nat.not_le.mpr h)
  rw [bpPack, hbits]
  rfl

/-- Settles O46: the loop of BP_PACK appends the packed bits where BITS holds TBL of them. -/
theorem bpPackAppendsPackedBits : Obligations.BpPackAppendsPackedBits := by
  refine fun s => ⟨fun hbits => ?_, fun hshort => exec_unit_stuck rfl rfl (bpPack_short hshort)⟩
  obtain ⟨acc, accn, hrun⟩ := bpPack_eq hbits
  exact ⟨acc, accn, exec_unit_ok rfl rfl hrun⟩

/-- Settles O47: bit `i` is unpacked from byte `i div 8` of the read, which stands at PPOS + `i div 8` of BUF. -/
theorem bpUnpackFillsBits : Obligations.BpUnpackFillsBits := by
  refine fun s => ⟨fun hfits => ⟨_, exec_unit_ok rfl rfl (if_pos hfits), unpack_length _ _, fun i hi => ?_⟩,
    fun hbeyond => exec_unit_stuck rfl rfl (if_neg (Nat.not_le.mpr hbeyond))⟩
  have hbyte : i / 8 < ceil8 s.scratch.tbl := by
    have := ceil8_spec s.scratch.tbl
    rw [unpack_length] at hi
    omega
  rw [unpack_getElem, memReadBytes_getD _ _ hbyte]

/-- Settles O48: surplus bytes lie beyond the packed ones, which spell the string bit by bit. -/
theorem unpackInvertsPack : Obligations.UnpackInvertsPack := by
  refine fun b rest => ⟨?_, pack_length b, fun i hi => pack_bit b hi⟩
  rw [unpack_append rest (pack_length b).ge, unpack_pack]

end Sys2Proof.Machine
end

section
/-! The codebook serializer and the data path (spec/44_codebook_serializer.md R201 to R206): what FREQ_COUNT,
SYM_ENCODE, CB_WRITE, CB_PARSE, CB_CHECK and CODE_WALK leave in scratch, and which error each raises. -/

namespace Sys2Proof.Machine

/-! ### Encode side (R201 to R203) -/

/-- Settles O50: the loop of FREQ_COUNT counts the bytes of BUF, from zeros. -/
theorem freqCountCountsBytes : Obligations.FreqCountCountsBytes := fun s =>
  ⟨_, exec_unit_ok rfl rfl rfl, freqCount_freq s.buf s.scratch⟩

/-- Settles O51: the codes of the input bytes fit a size field, or SYM_ENCODE raises CapacityExceeded. -/
theorem symEncodeConcatenatesCodes : Obligations.SymEncodeConcatenatesCodes := by
  rintro s bits rfl
  have hrun := symEncode_eq s.config s.buf s.scratch
  refine ⟨encodeBytes_length s.scratch.code s.buf, fun hfits => ?_, fun hlong => ?_⟩
  · exact exec_unit_ok rfl rfl (hrun.trans (if_pos hfits))
  · exact exec_unit_raised rfl rfl (hrun.trans (if_neg (Nat.not_lt.mpr hlong)))

/-- Settles O52: header and codebook entries are appended, and nothing else of scratch is written. -/
theorem cbWriteAppendsCodebook : Obligations.CbWriteAppendsCodebook := by
  rintro s book rfl
  exact exec_unit_ok rfl rfl (congrArg Except.ok (cbWrite_eq s.config s.scratch))

/-! ### CB_PARSE (R204) -/

section
variable {c : Config} {buf : List Byte}

/-- Check P1: BUF is too short for the header. -/
theorem cbParse_of_lt (h : buf.length < 2 * c.sz) (sc : Scratch) :
    cbParse c buf sc = .error (.raised .malformedContainer) := if_pos h

/-- With a header CB_PARSE raises what the loop over the entries raises. -/
theorem cbParse_of_parseEntries_error (h : 2 * c.sz ≤ buf.length) {e : Stop}
    (he : parseEntries c buf (memRead buf 0 c.sz) (2 * c.sz) [] = .error e) (sc : Scratch) :
    cbParse c buf sc = .error e := by
  rw [cbParse, if_neg (Nat.not_lt.mpr h), he]
  rfl

/-- With a header and entries that parse, check P4 decides: the payload has to end within BUF. -/
theorem cbParse_of_parsesTo (h : 2 * c.sz ≤ buf.length) {book : List DecodeEntry} {p : Nat}
    (hp : ParsesTo c buf (memRead buf 0 c.sz) (2 * c.sz) book p) (sc : Scratch) :
    cbParse c buf sc =
      if buf.length < p + ceil8 (memRead buf c.sz c.sz) then .error (.raised .malformedContainer)
      else .ok { sc with tbl := memRead buf c.sz c.sz, dtab := book, ppos := p, ipos := p } := by
  rw [cbParse, if_neg (Nat.not_lt.mpr h), parseEntries_of_parsesTo hp]
  rfl

end

/-- Settles O53: the four checks in their order; P2 and P3 fail where no entries are related. -/
theorem cbParseReadsCodebook : Obligations.CbParseReadsCodebook := by
  rintro s du tbl rfl rfl
  refine ⟨fun hshort => ?_, fun hheader hnot => ?_,
    fun hheader book p hp => ⟨fun hbeyond => ?_, fun hfits => ?_⟩⟩
  · exact exec_unit_raised rfl rfl (cbParse_of_lt hshort s.scratch)
  · exact exec_unit_raised rfl rfl (cbParse_of_parseEntries_error hheader (parseEntries_of_not _ _ _ hnot) s.scratch)
  · exact exec_unit_raised rfl rfl ((cbParse_of_parsesTo hheader hp s.scratch).trans (if_pos hbeyond))
  · exact exec_unit_ok rfl rfl
      ((cbParse_of_parsesTo hheader hp s.scratch).trans (if_neg (Nat.not_lt.mpr hfits)))

/-! ### CB_CHECK (R205) -/

/-- Settles O54: CB_CHECK passes the decodable codebooks, and those only. -/
theorem cbCheckRefusesAmbiguity : Obligations.CbCheckRefusesAmbiguity := by
  refine fun s => ⟨fun ⟨hnonempty, hprefixFree⟩ => ?_, fun hbad => ?_⟩
  · exact exec_unit_ok rfl rfl (cbCheck_ok ⟨hnonempty, hprefixFree⟩)
  · exact exec_unit_raised rfl rfl (cbCheck_bad fun h => hbad ⟨h.nonempty, h.prefixFree⟩)

/-! ### CODE_WALK (R206) -/

theorem isPrefix_eq_false_iff {c d : Bits} : isPrefix c d = false ↔ ¬ c <+: d := by
  rw [← isPrefix_iff, Bool.not_eq_true]

theorem payloadBits_of_lt {sc : Scratch} (h : sc.bits.length < sc.tbl) :
    payloadBits sc = .error (.stuck .noSuchBit) := if_neg (Nat.not_le.mpr h)

/-- CODE_WALK stops where BITS holds fewer than TBL bits (log entry 12). -/
theorem codeWalk_short {sc : Scratch} (h : sc.bits.length < sc.tbl) : codeWalk sc = .error (.stuck .noSuchBit) := by
  rw [codeWalk, payloadBits_of_lt h]
  rfl

/-- Settles O55: the payload bits split into codes of DTAB and a rest that no code begins; the walk emits the codes'
symbols, and a rest that is not empty is what CAND holds at the end. -/
theorem codeWalkDecodesBits : Obligations.CodeWalkDecodesBits := by
  refine fun s => ⟨fun hshort => exec_unit_stuck rfl rfl (codeWalk_short hshort), fun hbits hd => ?_⟩
  obtain ⟨es, rem, hes, hrem, hsplit⟩ :=
    exists_split s.scratch.dtab hd.nonempty (s.scratch.bits.take s.scratch.tbl)
  have hrun := codeWalk_eq hd es rem hes hrem hbits hsplit
  refine ⟨es, rem, hes, fun e he => isPrefix_eq_false_iff.mpr (hrem e he), hsplit, ?_⟩
  split
  · next hnone => exact exec_unit_ok rfl rfl (hrun.trans (if_pos hnone))
  · next hleft => exact exec_unit_raised rfl rfl (hrun.trans (if_neg hleft))

end Sys2Proof.Machine
end

section
/-! Commands and their microprograms (spec/47_command_dispatch.md R285, R288; R231, R232, R263, R264): a command runs the
unit operations of its microprogram one after the other, and the first error ends it. -/

namespace Sys2Proof.Machine

/-! ### Unit operations in sequence -/

/-- Unit operations run one after the other on scratch; the first that does not run to its end is the end of all. -/
def runOps (is : List Instr) : UnitOp := fun c buf sc => is.foldlM (fun sc i => opOf i c buf sc) sc

theorem runOps_cons (i : Instr) (is : List Instr) (c : Config) (buf : List Byte) (sc : Scratch) :
    runOps (i :: is) c buf sc = opOf i c buf sc >>= runOps is c buf := rfl

theorem runOps_append (is js : List Instr) (c : Config) (buf : List Byte) (sc : Scratch) :
    runOps (is ++ js) c buf sc = runOps is c buf sc >>= runOps js c buf := List.foldlM_append

theorem ok_bind {ε α β : Type} (a : α) (f : α → Except ε β) : Except.ok a >>= f = f a := rfl

/-- What a command runs on scratch is its microprogram (R231, R232, R263, R264). -/
theorem opOf_command {i : Instr} (hc : i.isCommand = true) (c : Config) (buf : List Byte) (sc : Scratch) :
    opOf i c buf sc = runOps (microprogram buf.length i) c buf sc := by
  cases i with
  | hufEnc =>
    by_cases hlen : 1 ≤ buf.length
    · simp [opOf, microprogram, runOps, hufEncProgram, buildCodes, hlen, ok_bind]
    · simp [opOf, microprogram, runOps, hufEncProgram, buildCodes, hlen, ok_bind]
  | hufDec => simp [opOf, microprogram, runOps, hufDecProgram]
  | rleEnc => rfl
  | rleDec => simp [opOf, microprogram, runOps]
  | pqBuild | pqInsert | pqExtractMin | tbMerge | tbBuild | caAssign | bpPack | bpUnpack | freqCount | symEncode
  | cbWrite | cbParse | cbCheck | codeWalk | rleScan | rleExpand => cases hc

/-- The operations of a command's microprogram are well-formed unit operations. -/
theorem forall_mem_microprogram {i : Instr} (hc : i.isCommand = true) (len : Nat) :
    ∀ j ∈ microprogram len i, j.isCommand = false ∧ j.wf = true := by
  cases i with
  | hufEnc => simp only [microprogram]; split <;> decide
  | hufDec | rleEnc | rleDec => simp only [microprogram]; decide
  | pqBuild | pqInsert | pqExtractMin | tbMerge | tbBuild | caAssign | bpPack | bpUnpack | freqCount | symEncode
  | cbWrite | cbParse | cbCheck | codeWalk | rleScan | rleExpand => cases hc

/-! ### The same on states (log entry 5) -/

/-- A unit operation that goes on has written scratch, with no free value drawn, or has raised an error, which draws
one (R306, log entry 3). -/
theorem exec_unit_draws {i : Instr} (hu : i.isCommand = false) (hwf : i.wf = true) {s t : State}
    (ht : exec i s = .next t) :
    (t.draws = s.draws ∧ ∃ sc, opOf i s.config s.buf s.scratch = .ok sc ∧ t = { s with scratch := sc }) ∨
    (t.draws ≠ s.draws ∧ ∃ e, opOf i s.config s.buf s.scratch = .error (.raised e) ∧ t = s.raise e) := by
  rw [exec_unit hu hwf] at ht
  obtain ⟨sc, hrun, h⟩ | ⟨e, hrun, h⟩ | ⟨r, -, h⟩ := runUop_cases (opOf i) s <;> rw [h] at ht <;> cases ht
  · exact .inl ⟨rfl, sc, hrun, rfl⟩
  · exact .inr ⟨by simp, e, hrun, rfl⟩

/-- A chain of unit operations writes scratch alone, as the operations do in sequence. -/
theorem runOps_of_chain {is : List Instr} (hu : ∀ j ∈ is, j.isCommand = false ∧ j.wf = true) {s u : State}
    (h : Chain is s u) :
    ∃ sc, runOps is s.config s.buf s.scratch = .ok sc ∧ u = { s with scratch := sc } := by
  induction is generalizing s with
  | nil => exact ⟨s.scratch, rfl, h⟩
  | cons i is ih =>
    obtain ⟨t, hi, hdraws, hrest⟩ := h
    obtain ⟨hunit, hwf⟩ := hu i (.head _)
    obtain ⟨-, sc, hrun, rfl⟩ | ⟨hne, -⟩ := exec_unit_draws hunit hwf hi
    · obtain ⟨sc', hrun', rfl⟩ := ih (fun j hj => hu j (.tail _ hj)) hrest
      exact ⟨sc', by rw [runOps_cons, hrun]; exact hrun', rfl⟩
    · exact absurd hdraws hne

/-- Settles O28: the chain is the sequence of the microprogram on initialised scratch, and the error of its next
operation is the error of the whole. -/
theorem commandsRunTheirMicroprograms : Obligations.CommandsRunTheirMicroprograms := by
  intro i s hc
  have hunits := forall_mem_microprogram hc s.len
  have hprogram := opOf_command hc s.config s.buf s.scratch.init
  refine ⟨fun u hchain => ?_, fun before after j u v hsplit hchain hj hdraws => ?_⟩
  · obtain ⟨sc, hrun, rfl⟩ := runOps_of_chain hunits hchain
    rw [exec_command hc]
    exact runCommand_ok (hprogram.trans hrun)
  · rw [hsplit] at hunits
    obtain ⟨sc, hrun, rfl⟩ := runOps_of_chain (fun k hk => hunits k (List.mem_append_left _ hk)) hchain
    obtain ⟨hunit, hwf⟩ := hunits j (by simp)
    obtain ⟨hsame, -⟩ | ⟨-, e, herror, rfl⟩ := exec_unit_draws hunit hwf hj
    · exact absurd hsame hdraws
    · refine exec_command_raised hc ?_
      calc opOf i s.config s.buf s.scratch.init
          = runOps (before ++ j :: after) s.config s.buf s.scratch.init := hprogram.trans (by rw [← hsplit]; rfl)
        _ = (runOps before s.config s.buf s.scratch.init >>= runOps (j :: after) s.config s.buf) := runOps_append ..
        _ = (opOf j s.config s.buf sc >>= runOps after s.config s.buf) := by rw [hrun]; rfl
        _ = .error (.raised e) := by rw [herror]; rfl

end Sys2Proof.Machine
end

section
/-! The Huffman codec (spec/45_huffman_codec.md R230 to R239) and what it has in common with the RLE commands: how every
command ends, on what its result depends, and what HUF_ENC and HUF_DEC write. -/

namespace Sys2Proof.Machine

/-! ### Every command ends (R239, R301) and is a function of BUF (R236) -/

theorem State.output_of_fits {s : State} {out : List Byte} (h : out.length ≤ s.config.cap) :
    s.output out = { s.release with buf := out, status := statusOk } := if_pos h

theorem State.output_of_exceeds {s : State} {out : List Byte} (h : s.config.cap < out.length) :
    s.output out = s.raise .capacityExceeded := if_neg (Nat.not_le.mpr h)

/-- The errors R301 lists for a command. -/
def Err.ListedFor (i : Instr) : Err → Prop
  | .capacityExceeded => True
  | .malformedContainer => i = .hufDec ∨ i = .rleDec
  | .inconsistentCodebook => i = .hufDec
  | .emptyQueue | .illegalCommand => False

/-- On this buffer the microprogram ends with `out` in STAGE, whatever scratch held. -/
def Outputs (i : Instr) (c : Config) (buf out : List Byte) : Prop :=
  ∀ sc : Scratch, ∃ sc', opOf i c buf sc.init = .ok sc' ∧ sc'.stage = out

/-- On this buffer the microprogram raises `e`, whatever scratch held. -/
def Raises (i : Instr) (c : Config) (buf : List Byte) (e : Err) : Prop :=
  ∀ sc : Scratch, opOf i c buf sc.init = .error (.raised e)

theorem Outputs.exec_eq {i : Instr} (hc : i.isCommand = true) {s : State} {out : List Byte}
    (h : Outputs i s.config s.buf out) : exec i s = .next (s.output out) := by
  obtain ⟨sc, hrun, rfl⟩ := h s.scratch
  exact exec_command_ok hc hrun

/-- An output that BUF can hold is committed (R286). -/
theorem Outputs.exec_eq_of_fits {i : Instr} (hc : i.isCommand = true) {s : State} {out : List Byte}
    (h : Outputs i s.config s.buf out) (hcap : out.length ≤ s.config.cap) :
    exec i s = .next { s.release with buf := out, status := statusOk } := by
  rw [h.exec_eq hc, State.output_of_fits hcap]

theorem Raises.exec_eq {i : Instr} (hc : i.isCommand = true) {s : State} {e : Err}
    (h : Raises i s.config s.buf e) : exec i s = .next (s.raise e) := exec_command_raised hc (h s.scratch)

/-- HUF_ENC on initialised scratch: a container of a code of BUF's bytes, or CapacityExceeded where the payload is too
long for a size field (R231, R237). -/
theorem hufEnc_outputs_or_raises (c : Config) {buf : List Byte} (hbuf : buf.length < c.limit) :
    ∃ code, IsCode buf code ∧
      if (buf.flatMap code).length < c.limit then
        Outputs .hufEnc c buf (container c (bookFor code (present buf)) (buf.flatMap code))
      else Raises .hufEnc c buf .capacityExceeded := by
  obtain ⟨code, hcode, hrun⟩ := hufEncProgram_eq c buf hbuf
  refine ⟨code, hcode, ?_⟩
  split
  · next hlim => exact fun sc => (if_pos hlim).mp (hrun sc.init (init_invalid sc))
  · next hlim => exact fun sc => (if_neg hlim).mp (hrun sc.init (init_invalid sc))

/-- RLE_SCAN appends to STAGE what BUF alone decides (R261). -/
theorem exists_rleScan_stage (c : Config) (buf : List Byte) :
    ∃ out, ∀ sc : Scratch, (rleScan c buf sc).stage = sc.stage ++ out := by
  cases buf with
  | nil => exact ⟨[], fun sc => by simp⟩
  | cons b bs => exact ⟨_, fun sc => by rw [rleScan_cons]⟩

/-- Every command comes to an output or to an error listed for it, as BUF and the parameters decide (R236, R239). -/
theorem command_outputs_or_raises {i : Instr} (hc : i.isCommand = true) (c : Config) {buf : List Byte}
    (hbuf : buf.length < c.limit) :
    (∃ out, Outputs i c buf out) ∨ ∃ e : Err, e.ListedFor i ∧ Raises i c buf e := by
  cases i with
  | hufEnc =>
    obtain ⟨code, -, h⟩ := hufEnc_outputs_or_raises c hbuf
    split at h
    · exact .inl ⟨_, h⟩
    · exact .inr ⟨.capacityExceeded, trivial, h⟩
  | hufDec =>
    obtain ⟨out, h⟩ | h | h := hufDecProgram_total c buf
    · exact .inl ⟨out, fun sc => h sc.init⟩
    · exact .inr ⟨.malformedContainer, .inl rfl, fun sc => h sc.init⟩
    · exact .inr ⟨.inconsistentCodebook, rfl, fun sc => h sc.init⟩
  | rleEnc =>
    obtain ⟨out, h⟩ := exists_rleScan_stage c buf
    exact .inl ⟨out, fun sc => ⟨_, rfl, h sc.init⟩⟩
  | rleDec =>
    by_cases hx1 : buf.length % (c.sz + 1) ≠ 0
    · exact .inr ⟨.malformedContainer, .inr rfl, fun sc => (rleExpand_eq c buf sc.init).trans (if_pos hx1)⟩
    by_cases hx2 : ((pairsOf c buf).map (·.1)).sum ≤ c.cap
    · exact .inl ⟨expansion (pairsOf c buf), fun sc =>
        ⟨_, (rleExpand_eq c buf sc.init).trans ((if_neg hx1).trans (if_pos hx2)), rfl⟩⟩
    · exact .inr ⟨.capacityExceeded, trivial, fun sc =>
        (rleExpand_eq c buf sc.init).trans ((if_neg hx1).trans (if_neg hx2))⟩
  | pqBuild | pqInsert | pqExtractMin | tbMerge | tbBuild | caAssign | bpPack | bpUnpack | freqCount | symEncode
  | cbWrite | cbParse | cbCheck | codeWalk | rleScan | rleExpand => cases hc

/-- A command ends with an output that BUF can hold, or with an error listed for it. -/
theorem exec_command_ends {i : Instr} (hc : i.isCommand = true) {s : State} (h : s.Inv) :
    (∃ out, out.length ≤ s.config.cap ∧ exec i s = .next { s.release with buf := out, status := statusOk }) ∨
    ∃ e : Err, e.ListedFor i ∧ exec i s = .next (s.raise e) := by
  obtain ⟨out, hout⟩ | ⟨e, hlisted, he⟩ := command_outputs_or_raises hc s.config h.buf_lt
  · by_cases hcap : out.length ≤ s.config.cap
    · exact .inl ⟨out, hcap, hout.exec_eq_of_fits hc hcap⟩
    · exact .inr ⟨.capacityExceeded, trivial, by rw [hout.exec_eq hc, State.output_of_exceeds (by omega)]⟩
  · exact .inr ⟨e, hlisted, he.exec_eq hc⟩

/-- STATUS after an error listed for a command (R301). -/
theorem Err.ListedFor.status {i : Instr} {e : Err} (h : e.ListedFor i) :
    e.status = 0x0D ∨ (e.status = 0x09 ∧ (i = .hufDec ∨ i = .rleDec)) ∨ (e.status = 0x0A ∧ i = .hufDec) := by
  cases e with
  | capacityExceeded => exact .inl rfl
  | malformedContainer => exact .inr (.inl ⟨rfl, h⟩)
  | inconsistentCodebook => exact .inr (.inr ⟨rfl, h⟩)
  | emptyQueue | illegalCommand => exact h.elim

/-- Settles O26: a raise leaves BUF and the parameters as they are, and every end of a command sets DONE. -/
theorem everyCommandEnds : Obligations.EveryCommandEnds := by
  intro i s hc h
  obtain ⟨out, hcap, hrun⟩ | ⟨e, hlisted, hrun⟩ := exec_command_ends hc h
  · exact ⟨_, hrun, rfl, rfl, rfl, rfl, exec_command_done hc hrun, .inl ⟨rfl, hcap⟩⟩
  · exact ⟨_, hrun, rfl, rfl, rfl, rfl, exec_command_done hc hrun, .inr ⟨rfl, hlisted.status⟩⟩

/-- BUF and STATUS after the end of a command depend on BUF and the parameters alone. -/
theorem State.output_congr {s s' : State} (hbuf : s'.buf = s.buf) (hconfig : s'.config = s.config) (out : List Byte) :
    (s'.output out).buf = (s.output out).buf ∧ (s'.output out).status = (s.output out).status := by
  unfold State.output
  rw [hconfig]
  split
  · exact ⟨rfl, rfl⟩
  · exact ⟨hbuf, rfl⟩

/-- Settles O27: what the microprogram comes to is the same from both states, whatever scratch holds. -/
theorem commandsIgnoreEverythingButBuffer : Obligations.CommandsIgnoreEverythingButBuffer := by
  intro i s s' t t' hc h _ hbuf hconfig ht ht'
  obtain ⟨out, hout⟩ | ⟨e, -, he⟩ := command_outputs_or_raises hc s.config h.buf_lt
  · have hout' : Outputs i s'.config s'.buf out := by rwa [hconfig, hbuf]
    cases ht.symm.trans (hout.exec_eq hc)
    cases ht'.symm.trans (hout'.exec_eq hc)
    exact State.output_congr hbuf hconfig out
  · have he' : Raises i s'.config s'.buf e := by rwa [hconfig, hbuf]
    cases ht.symm.trans (he.exec_eq hc)
    cases ht'.symm.trans (he'.exec_eq hc)
    exact ⟨hbuf, rfl⟩

/-! ### HUF_ENC (R231, R234) -/

/-- Settles O32: the code HUF_ENC assigns, and the two ends R231 and R237 give the command. -/
theorem hufEncWritesContainer : Obligations.HufEncWritesContainer := by
  intro s h
  obtain ⟨code, hcode, hrun⟩ := hufEnc_outputs_or_raises s.config h.buf_lt
  refine ⟨code, hcode, ?_⟩
  split at hrun
  · next hlim => rw [if_pos hlim, hrun.exec_eq rfl]
  · next hlim => rw [if_neg hlim, hrun.exec_eq rfl]

/-- One byte value is present in a buffer of copies of it. -/
theorem present_replicate {n : Nat} (hn : 1 ≤ n) (b : Byte) : present (List.replicate n b) = [b] := by
  have hmem : ∀ s, s ∈ present (List.replicate n b) ↔ s ∈ [b] := fun s => by
    rw [mem_present, List.mem_replicate, List.mem_singleton]
    exact and_iff_right (by omega)
  exact List.perm_singleton.mp
    ((List.perm_ext_iff_of_nodup (present_nodup _) (List.nodup_singleton b)).mpr hmem)

/-- Settles O33: the one code is "0" (R172), so the payload has LEN bits and a size field holds their number. -/
theorem hufEncOfOneSymbol : Obligations.HufEncOfOneSymbol := by
  intro s b n h hn hbuf
  obtain ⟨code, hcode, hrun⟩ := hufEncWritesContainer s h
  have hpresent : present s.buf = [b] := by rw [hbuf, present_replicate hn]
  have hb : code b = [false] := hcode.lone b hpresent
  have hpayload : s.buf.flatMap code = List.replicate n false := by rw [hbuf]; simp [List.flatMap_replicate, hb]
  have hlen : n < s.config.limit := by simpa [hbuf] using h.buf_lt
  rw [hrun, hpayload, hpresent, if_pos (by simpa using hlen), bookFor, List.map_singleton, hb]

/-! ### HUF_DEC (R232, R235) -/

/-- Settles O34: the symbols the payload spells are what STAGE holds at the end, and the output is they (R286). -/
theorem hufDecReadsContainer : Obligations.HufDecReadsContainer := by
  intro s book es rest hdecodable hes hbook hcodes hpayload hbuf
  have hout : Outputs .hufDec s.config s.buf (es.map (·.sym)) := by
    rw [hbuf]
    exact fun sc => hufDecProgram_container s.config book es rest sc.init hdecodable hes hbook hcodes hpayload
  exact hout.exec_eq rfl

/-- An output that does not end with CapacityExceeded is one that BUF can hold (R286). -/
theorem State.output_fits {s : State} {out : List Byte} (h : (s.output out).status = 0x08) :
    out.length ≤ s.config.cap := by
  by_contra hcap
  rw [State.output_of_exceeds (by omega), State.raise_status] at h
  exact absurd h (by decide)

/-- Settles O36: HUF_DEC reads the container HUF_ENC has written, and its output is what BUF held before. -/
theorem hufRoundTrip : Obligations.HufRoundTrip := by
  intro s t h ht hok
  obtain ⟨code, hcode, hrun⟩ := hufEncWritesContainer s h
  rw [hrun] at ht
  split at ht
  · next hpayload =>
    cases ht
    rw [State.output_of_fits (State.output_fits hok)]
    refine ⟨_, Outputs.exec_eq_of_fits rfl ?_ ?_, rfl, rfl, rfl⟩
    · exact fun sc => hufDecProgram_encoded s.config hcode hpayload sc.init
    · exact h.buf
  · cases ht
    exact absurd hok (by rw [State.raise_status]; decide)

end Sys2Proof.Machine
end

section
/-! The run-length codec (spec/46_rle_codec.md R260 to R269): RLE_SCAN and RLE_EXPAND on their own, the two commands
they are the microprograms of, and the empty input of all four commands. -/

namespace Sys2Proof.Machine

/-! ### RLE_SCAN and RLE_ENC (R261, R263) -/

theorem exists_isRuns : ∀ x : List Byte, ∃ ps, IsRuns x ps
  | [] => ⟨[], isRuns_nil⟩
  | b :: bs => ⟨runsFrom b 1 bs, isRuns_runsFrom b bs⟩

/-- RLE_SCAN in terms of the maximal runs of a buffer that has one: the pending run it ends with is the last. -/
theorem IsRuns.rleScan_eq {x : List Byte} {ps : List (Nat × Byte)} {p : Nat × Byte} (h : IsRuns x ps)
    (hlast : ps.getLast? = some p) (c : Config) (sc : Scratch) :
    rleScan c x sc = { sc with
      stage := sc.stage ++ rleStream c ps, runByte := p.2, runCnt := p.1, ipos := x.length } := by
  cases x with
  | nil => rw [h.nil_unique] at hlast; cases hlast
  | cons b bs =>
    obtain rfl := h.unique
    rw [List.getLast?_eq_some_getLast (runsFrom_ne_nil b 1 bs)] at hlast
    cases hlast
    exact rleScan_cons c b bs sc

/-- Settles O56: a buffer that is not empty has a last run, and the registers of the scan end with it. -/
theorem rleScanAppendsRuns : Obligations.RleScanAppendsRuns := by
  intro s
  refine ⟨fun hempty => ?_, fun hne ps hruns => ?_⟩
  · have hscan : rleScan s.config s.buf s.scratch = s.scratch := by rw [hempty, rleScan_nil]
    exact exec_unit_ok rfl rfl (congrArg Except.ok hscan)
  · have hps : ps ≠ [] := fun hnil => hne (by rw [← hruns.spells, hnil, expansion_nil])
    have hlast := List.getLast?_eq_some_getLast hps
    exact ⟨_, _, exec_unit_ok rfl rfl (congrArg Except.ok (hruns.rleScan_eq hlast s.config s.scratch)), hlast⟩

/-- What RLE_SCAN appends to STAGE (R261), the empty buffer included. -/
theorem IsRuns.rleScan_stage {x : List Byte} {ps : List (Nat × Byte)} (h : IsRuns x ps) (c : Config) (sc : Scratch) :
    (rleScan c x sc).stage = sc.stage ++ rleStream c ps := by
  cases x with
  | nil => rw [h.nil_unique]; simp
  | cons b bs => rw [h.unique, rleScan_cons]

theorem IsRuns.rleEnc_outputs {x : List Byte} {ps : List (Nat × Byte)} (h : IsRuns x ps) (c : Config) :
    Outputs .rleEnc c x (rleStream c ps) := fun sc => ⟨_, rfl, h.rleScan_stage c sc.init⟩

/-- Settles O29: the maximal runs exist, and RLE_ENC's output is the stream of any pairs that are they. -/
theorem rleEncWritesRuns : Obligations.RleEncWritesRuns := fun s =>
  ⟨exists_isRuns s.buf, fun _ hruns => (hruns.rleEnc_outputs s.config).exec_eq rfl⟩

/-! ### RLE_EXPAND and RLE_DEC (R262, R264) -/

section
variable {c : Config} {buf : List Byte} (sc : Scratch)

/-- Check X1 (R262). -/
theorem rleExpand_of_cut_pair (hcut : buf.length % (c.sz + 1) ≠ 0) :
    rleExpand c buf sc = .error (.raised .malformedContainer) := by
  rw [rleExpand_eq, if_pos hcut]

/-- Check X2 (R262). -/
theorem rleExpand_of_exceeds (hwhole : buf.length % (c.sz + 1) = 0)
    (hcap : c.cap < ((pairsOf c buf).map (·.1)).sum) :
    rleExpand c buf sc = .error (.raised .capacityExceeded) := by
  rw [rleExpand_eq, if_neg (not_not.mpr hwhole), if_neg (Nat.not_le.mpr hcap)]

theorem rleExpand_of_fits (hwhole : buf.length % (c.sz + 1) = 0)
    (hcap : ((pairsOf c buf).map (·.1)).sum ≤ c.cap) :
    rleExpand c buf sc = .ok { sc with
      stage := sc.stage ++ expansion (pairsOf c buf)
      total := ((pairsOf c buf).map (·.1)).sum
      ipos := buf.length } := by
  rw [rleExpand_eq, if_neg (not_not.mpr hwhole), if_pos hcap]

end

/-- Settles O57: check X1, check X2, and the loop that passes both. -/
theorem rleExpandAppendsCopies : Obligations.RleExpandAppendsCopies := fun s =>
  ⟨fun hcut => exec_unit_raised rfl rfl (rleExpand_of_cut_pair s.scratch hcut),
    fun hwhole hcap => exec_unit_raised rfl rfl (rleExpand_of_exceeds s.scratch hwhole hcap),
    fun hwhole hcap => exec_unit_ok rfl rfl (rleExpand_of_fits s.scratch hwhole hcap)⟩

theorem rleDec_outputs {c : Config} {buf : List Byte} (hwhole : buf.length % (c.sz + 1) = 0)
    (hcap : ((pairsOf c buf).map (·.1)).sum ≤ c.cap) : Outputs .rleDec c buf (expansion (pairsOf c buf)) :=
  fun sc => ⟨_, rleExpand_of_fits sc.init hwhole hcap, rfl⟩

/-- Settles O30: the ends of RLE_EXPAND are those of the command; X2 has bounded the output, so commit takes it. -/
theorem rleDecExpandsPairs : Obligations.RleDecExpandsPairs := by
  intro s
  split
  · next hcut => exact exec_command_raised rfl (rleExpand_of_cut_pair s.scratch.init hcut)
  · next hwhole =>
    have hwhole : s.buf.length % (s.config.sz + 1) = 0 := not_not.mp hwhole
    split
    · next hcap => exact (rleDec_outputs hwhole hcap).exec_eq_of_fits rfl ((expansion_length _).trans_le hcap)
    · next hcap => exact exec_command_raised rfl (rleExpand_of_exceeds s.scratch.init hwhole (Nat.not_le.mp hcap))

/-! ### Round trip (R266) -/

theorem IsRuns.sum_counts {x : List Byte} {ps : List (Nat × Byte)} (h : IsRuns x ps) :
    (ps.map (·.1)).sum = x.length := by rw [← expansion_length, h.spells]

/-- The stream of the runs of `x` is a whole number of pairs whose counts fit their fields and add up to the length
of `x`, so neither X1 nor X2 fires and RLE_DEC gives `x` (R266). -/
theorem IsRuns.rleDec_outputs {x : List Byte} {ps : List (Nat × Byte)} (h : IsRuns x ps) {c : Config}
    (hlim : x.length < c.limit) (hcap : x.length ≤ c.cap) : Outputs .rleDec c (rleStream c ps) x := by
  have hcounts : ∀ p ∈ ps, p.1 < c.limit := fun p hp =>
    calc p.1 ≤ (ps.map (·.1)).sum := List.le_sum_of_mem (List.mem_map_of_mem hp)
      _ = x.length := h.sum_counts
      _ < c.limit := hlim
  have hpairs : pairsOf c (rleStream c ps) = ps := pairsOf_rleStream c ps hcounts
  have hwhole : (rleStream c ps).length % (c.sz + 1) = 0 := by rw [rleStream_length, Nat.mul_mod_right]
  have hout := Machine.rleDec_outputs hwhole (by rwa [hpairs, h.sum_counts])
  rwa [hpairs, h.spells] at hout

/-- Settles O31: RLE_DEC reads the stream RLE_ENC has committed, and its output is what BUF held before. -/
theorem rleRoundTrip : Obligations.RleRoundTrip := by
  intro s t h ht hok
  obtain ⟨ps, hruns⟩ := exists_isRuns s.buf
  cases ht.symm.trans ((hruns.rleEnc_outputs s.config).exec_eq rfl)
  rw [State.output_of_fits (State.output_fits hok)]
  exact ⟨_, Outputs.exec_eq_of_fits rfl (hruns.rleDec_outputs h.buf_lt h.buf) h.buf, rfl, rfl, rfl⟩

/-! ### The empty input (R233, R265) -/

theorem leBytes_zero (n : Nat) : leBytes n 0 = List.replicate n 0 := by
  induction n with
  | zero => rfl
  | succ n ih => rw [leBytes, Nat.zero_div, ih, List.replicate_succ]; rfl

/-- The container of the empty input is its two size fields, both zero (R233). -/
theorem container_nil (c : Config) : container c [] [] = List.replicate (2 * c.sz) 0 := by
  simp [container, leBytes_zero, two_mul]

theorem decodable_nil : Decodable [] := ⟨by simp, fun i _ hi => absurd hi (Nat.not_lt_zero i)⟩

/-- Settles O37: no byte is present, so the codebook and the payload are empty; and an empty buffer has no runs and
no pairs. -/
theorem emptyInput : Obligations.EmptyInput := by
  intro s h
  have hlim := s.config.limit_pos
  refine ⟨fun hempty => ⟨?_, ?_, ?_⟩, fun hzeros => ?_⟩
  · obtain ⟨code, -, hrun⟩ := hufEncWritesContainer s h
    have hbook : bookFor code (present []) = [] := by simp [bookFor, present]
    rw [hrun, hempty, hbook, List.flatMap_nil, container_nil]
    exact if_pos hlim
  · have hout : Outputs .rleEnc s.config s.buf [] := by rw [hempty]; exact isRuns_nil.rleEnc_outputs s.config
    exact hout.exec_eq_of_fits rfl (Nat.zero_le _)
  · have hout : Outputs .rleDec s.config s.buf [] := by
      rw [hempty]; exact isRuns_nil.rleDec_outputs hlim (Nat.zero_le _)
    exact hout.exec_eq_of_fits rfl (Nat.zero_le _)
  · have hrun := hufDecReadsContainer s [] [] [] decodable_nil (by simp) hlim (by simp) hlim
      (by simpa [container_nil] using hzeros)
    rw [hrun, List.map_nil, State.output_of_fits (Nat.zero_le _)]
    rfl

end Sys2Proof.Machine
end

section
/-! Command dispatch (spec/47_command_dispatch.md R281 to R285): an issue is the command its byte decodes to, and what
each of the other transactions leaves. -/

namespace Sys2Proof.Machine

/-! ### Dispatch (R284, R285) and the idle machine (R313) -/

theorem dispatchCommand_of_decodeCommand {c : Byte} {i : Instr} (hd : decodeCommand c = .ok i) (s : State) :
    dispatchCommand c s = exec i s := by
  simp only [dispatchCommand, hd]

/-- Settles O5: a step is the issue, and an issue dispatches its byte to the operation it decodes to. -/
theorem stepRunsIssuedCommand : Obligations.StepRunsIssuedCommand := by
  intro s c rest i hsel hscript hd
  rw [← dispatchCommand_of_decodeCommand hd]
  exact step_hostOp hsel hscript

/-- Settles O8: with nothing selected and an empty script no branch of a step is left but the idle one. -/
theorem idleStepChangesNothing : Obligations.IdleStepChangesNothing := by
  intro s hsel hscript
  simp only [step, hsel, hscript]

/-! ### Loads and reads (R281 to R283) -/

theorem hLoad_of_fits {x : List Byte} {s : State} (h : x.length ≤ s.config.cap) :
    hLoad x s = .next (State.reply .done { s with buf := x }) := if_pos h

theorem hLoad_of_exceeds {x : List Byte} {s : State} (h : s.config.cap < x.length) :
    hLoad x s = .refused .loadTooLong := if_neg (Nat.not_le.mpr h)

/-- Settles O9: the load fits BUF, or it is refused. -/
theorem loadReplacesBuffer : Obligations.LoadReplacesBuffer := by
  intro s x rest hsel hscript
  refine ⟨fun hfits => ⟨?_, rfl⟩, fun hexceeds => ?_⟩
  · exact (step_hostOp hsel hscript).trans (hLoad_of_fits hfits)
  · exact (step_hostOp hsel hscript).trans (hLoad_of_exceeds hexceeds)

/-- Settles O10: each of the three transactions is one reply. -/
theorem hostReadsHaveNoSideEffect : Obligations.HostReadsHaveNoSideEffect := fun _ _ hsel =>
  ⟨fun h => step_hostOp hsel h, fun h => step_hostOp hsel h, fun h => step_hostOp hsel h⟩

theorem hReadByte_of_lt {a : Nat} {s : State} (h : a < s.buf.length) :
    hReadByte a s = .next (s.reply (.byte s.buf[a])) := by
  simp only [hReadByte, List.getElem?_eq_getElem h]

theorem hReadByte_of_le {a : Nat} {s : State} (h : s.buf.length ≤ a) : hReadByte a s = .refused .readBeyondLen := by
  simp only [hReadByte, List.getElem?_eq_none h]

/-- Settles O11: the address lies below LEN, or the read is refused. -/
theorem byteReadIsBoundedByLen : Obligations.ByteReadIsBoundedByLen := by
  intro s a rest hsel hscript
  refine ⟨fun hlt => ?_, fun hle => ?_⟩
  · exact (step_hostOp hsel hscript).trans (hReadByte_of_lt (s := { s with script := rest }) hlt)
  · exact (step_hostOp hsel hscript).trans (hReadByte_of_le (s := { s with script := rest }) hle)

end Sys2Proof.Machine
end

section
/-! Exceptions (spec/60_exceptions.md R301 to R307): the values of STATUS, what a failed command leaves unchanged, and
the containers HUF_DEC rejects. -/

namespace Sys2Proof.Machine

/-! ### STATUS and the abort (R301, R306) -/

/-- Settles O23: `0x08 | code(E)` for the codes 1 to 5 (R301, R306). -/
theorem errorStatusValues : Obligations.ErrorStatusValues := ⟨rfl, rfl, rfl, rfl, rfl, rfl⟩

/-- A command that goes on has committed its output, or has raised an error (R286, R306). -/
theorem exec_command_next {i : Instr} (hc : i.isCommand = true) {s t : State} (ht : exec i s = .next t) :
    (∃ out, t = { s.release with buf := out, status := statusOk }) ∨ ∃ e : Err, t = s.raise e := by
  rw [exec_command hc] at ht
  obtain ⟨sc, -, -, rfl⟩ | ⟨e, rfl, -⟩ := runCommand_next_cases ht
  · exact .inl ⟨sc.stage, rfl⟩
  · exact .inr ⟨e, rfl⟩

/-- Settles O24: a commit leaves STATUS 0x08, so the command has raised an error, and a raise keeps the rest. -/
theorem failedCommandChangesOnlyStatus : Obligations.FailedCommandChangesOnlyStatus := by
  intro i s t hc ht hfailed
  obtain ⟨out, rfl⟩ | ⟨e, rfl⟩ := exec_command_next hc ht
  · exact absurd rfl hfailed
  · exact ⟨⟨e, rfl⟩, rfl, rfl, rfl, rfl, rfl, rfl⟩

/-! ### What HUF_DEC rejects (R302, R303, R238) -/

/-- An error of CB_PARSE ends the microprogram of HUF_DEC (R232). -/
theorem hufDecProgram_of_cbParse_error {c : Config} {buf : List Byte} {sc : Scratch} {e : Stop}
    (h : cbParse c buf sc = .error e) : hufDecProgram c buf sc = .error e := by
  rw [hufDecProgram, h]
  rfl

/-- BP_UNPACK reads the payload of a container back, with or without surplus bytes (R187, R97, R108). -/
theorem bpUnpack_container {c : Config} {book : List DecodeEntry} {payload : Bits} {sc : Scratch}
    (hppos : sc.ppos = 2 * c.sz + (book.flatMap (entryBytes c)).length) (htbl : sc.tbl = payload.length)
    (rest : List Byte) : bpUnpack (container c book payload ++ rest) sc = .ok { sc with bits := payload } := by
  have hsplit : container c book payload ++ rest =
      (leBytes c.sz book.length ++ leBytes c.sz payload.length ++ book.flatMap (entryBytes c)) ++
        pack payload ++ rest := rfl
  have hheader : sc.ppos =
      (leBytes c.sz book.length ++ leBytes c.sz payload.length ++ book.flatMap (entryBytes c)).length := by
    simp only [List.length_append, leBytes_length]; omega
  rw [hsplit, bpUnpack, if_pos, htbl, memReadBytes_append_of_eq hheader (pack_length payload).symm, unpack_pack]
  rw [hheader, htbl]
  simp only [List.length_append, pack_length]; omega

section
variable (c : Config) {book : List DecodeEntry} {payload : Bits} (rest : List Byte) (sc : Scratch)
  (hbook : book.length < c.limit) (hcodes : ∀ e ∈ book, e.code.length < c.limit)
  (hpayload : payload.length < c.limit)
include hbook hcodes hpayload

/-- A container whose codebook CB_CHECK refuses (R205, R303). -/
theorem hufDecProgram_container_of_not_decodable (hbad : ¬ Decodable book) :
    hufDecProgram c (container c book payload ++ rest) sc = .error (.raised .inconsistentCodebook) := by
  rw [hufDecProgram, cbParse_container c book payload rest sc hbook hpayload hcodes, ok_bind, cbCheck_bad hbad]
  rfl

/-- With a codebook that CB_CHECK passes HUF_DEC comes to CODE_WALK on the payload's bits (R232). -/
theorem hufDecProgram_container_eq_codeWalk (hd : Decodable book) :
    hufDecProgram c (container c book payload ++ rest) sc = codeWalk { sc with
      tbl := payload.length
      dtab := book
      ppos := 2 * c.sz + (book.flatMap (entryBytes c)).length
      ipos := 2 * c.sz + (book.flatMap (entryBytes c)).length
      bits := payload } := by
  rw [hufDecProgram, cbParse_container c book payload rest sc hbook hpayload hcodes, ok_bind, cbCheck_ok hd, ok_bind,
    bpUnpack_container rfl rfl, ok_bind]

end

/-- Settles O35: check P1 fails, CB_CHECK refuses the codebook, or CODE_WALK ends with `rem` in CAND. -/
theorem hufDecRejects : Obligations.HufDecRejects := by
  refine ⟨fun s hshort => ?_, fun s book payload rest hbad hbook hcodes hpayload hbuf => ?_,
    fun s book es rem rest hd hes hleft hrem hbook hcodes hpayload hbuf => ?_⟩
  · exact exec_command_raised rfl (hufDecProgram_of_cbParse_error (cbParse_of_lt hshort _))
  · have hraises : Raises .hufDec s.config s.buf .inconsistentCodebook := fun sc => by
      rw [hbuf]
      exact hufDecProgram_container_of_not_decodable s.config rest sc.init hbook hcodes hpayload hbad
    exact hraises.exec_eq rfl
  · have hnone : ∀ e ∈ book, ¬ e.code <+: rem := fun e he => isPrefix_eq_false_iff.mp (hrem e he)
    have hraises : Raises .hufDec s.config s.buf .malformedContainer := fun sc => by
      rw [hbuf]
      calc hufDecProgram s.config (container s.config book (es.flatMap (·.code) ++ rem) ++ rest) sc.init
          = codeWalk _ := hufDecProgram_container_eq_codeWalk s.config rest sc.init hbook hcodes hpayload hd
        _ = _ := codeWalk_eq hd es rem hes hnone le_rfl List.take_length
        _ = .error (.raised .malformedContainer) := if_neg hleft
    exact hraises.exec_eq rfl

end Sys2Proof.Machine
end

section
/-! Reset and hazards (spec/70_reset_and_hazards.md R330, R331): the reset event, and what changes BUF. -/

namespace Sys2Proof.Machine

/-- Settles O15: BUF, STATUS and the select are reset whatever they held, and the rest but scratch is kept (R50). -/
theorem resetEventClears : Obligations.ResetEventClears := fun _ _ hsel hscript =>
  ⟨_, step_hostOp hsel hscript, rfl, rfl, rfl, rfl, rfl, rfl, rfl, rfl⟩

/-- An issue that changes BUF is the commit of one of the four commands (R286, R289). -/
theorem hIssue_of_buf_ne {c : Byte} {s t : State} (ht : hIssue c s = .next t) (hne : t.buf ≠ s.buf) :
    c.toNat < 4 ∧ t.status = 0x08 ∧ t.script = s.script := by
  obtain ⟨u, rfl, ⟨i, hd, hu⟩ | ⟨-, rfl⟩⟩ := hIssue_cases ht
  · obtain ⟨hcommand, -, hc⟩ := decodeCommand_ok hd
    obtain ⟨out, rfl⟩ | ⟨e, rfl⟩ := exec_command_next hcommand hu
    · exact ⟨hc, rfl, rfl⟩
    · exact absurd rfl hne
  · exact absurd rfl hne

/-- Settles O19: of the things a step can be, only a load, a reset and an issue can change BUF. -/
theorem bufferWriters : Obligations.BufferWriters := by
  intro s t ht hne
  obtain ⟨id, n, i, -, hd, hi⟩ | ⟨-, -, rfl⟩ | ⟨hsel, op, rest, hscript, hop⟩ := step_cases ht
  · obtain ⟨-, hu, -⟩ := decodeUop_ok hd
    obtain ⟨hbuf, -⟩ := unitOperationFrame i _ t hu hi
    exact absurd hbuf hne
  · exact absurd rfl hne
  · rw [hscript]
    refine ⟨hsel, rest, ?_⟩
    obtain ⟨r, rfl⟩ | ⟨x, rfl, -, rfl⟩ | ⟨c, hc, hissue⟩ | ⟨rfl, rfl⟩ := hostStep_cases hop
    · exact absurd rfl hne
    · exact ⟨rfl, .inl ⟨x, rfl, rfl, rfl⟩⟩
    · obtain ⟨hbyte, hstatus, hrest⟩ := hIssue_of_buf_ne hissue hne
      exact ⟨hrest, .inr (.inr ⟨c, hc.imp (congrArg (· :: rest)) (congrArg (· :: rest)), hbyte, hstatus⟩)⟩
    · exact ⟨rfl, .inr (.inl ⟨rfl, rfl⟩)⟩

end Sys2Proof.Machine
end
